-- ==== Sys2Proof/Word.lean ====
section
/-! DEFINITION. The widths of the block's values (spec 00_scope.md R10, R12): every value is unsigned. -/

namespace Sys2Proof

/-- `u8`: a data byte, a bank, a B-bus offset (R10, R12). -/
abbrev Byte := BitVec 8

/-- `u16`: a pointer or a byte count of a channel (R12). -/
abbrev Half := BitVec 16

/-- `u24`: an address on the external bus (R10, R12). -/
abbrev Addr := BitVec 24

/-- A channel index, 0 to 7 (R10, R20). -/
abbrev Chan := Fin 8

end Sys2Proof
end

