-- ==== Sys2Proof/Syntax.lean ====
section
/-! DEFINITION. The transactions of the block: the raw header and data byte (spec 30_encoding.md R91), the 39 transactions
of R92 and R93 (one constructor per row of opcode_table.json), the registers of a channel's page (10_state.md R48) and the
pseudo-instructions of R102. -/

namespace Sys2Proof

/-- One transaction as the host port carries it (R90, R91): the 16-bit header `t_hdr` and the data byte `t_din`. -/
structure Txn where
  hdr : BitVec 16
  din : Byte
  deriving DecidableEq, Repr

/-- The 16 offsets of a channel's register page (10_state.md R48), in the order of their offsets. -/
inductive Reg where
  | ctrl  -- 0x0 mode/control byte
  | tgt   -- 0x1 target_address
  | srcl  -- 0x2 source_address[7:0]
  | srch  -- 0x3 source_address[15:8]
  | srcb  -- 0x4 source_bank
  | sizel -- 0x5 transfer_size[7:0]
  | sizeh -- 0x6 transfer_size[15:8]
  | ibank -- 0x7 indirect_bank
  | hadrl -- 0x8 hdma_address[7:0]
  | hadrh -- 0x9 hdma_address[15:8]
  | line  -- 0xA line_counter
  | scrb  -- 0xB scratch
  | rsvc  -- 0xC offset 0xC, no field
  | rsvd  -- 0xD offset 0xD, no field
  | rsve  -- 0xE offset 0xE, no field
  | scrf  -- 0xF scratch, the alias of offset 0xB
  deriving DecidableEq, Repr

/-- The 39 transactions (R92, R93). `c` is the channel, `v` the byte written, `m` an enable mask. The data byte of the
transactions that carry none is ignored (R95) and is no operand. -/
inductive Instr where
  | wrCtrl (c : Chan) (v : Byte)
  | wrTgt (c : Chan) (v : Byte)
  | wrSrcl (c : Chan) (v : Byte)
  | wrSrch (c : Chan) (v : Byte)
  | wrSrcb (c : Chan) (v : Byte)
  | wrSizel (c : Chan) (v : Byte)
  | wrSizeh (c : Chan) (v : Byte)
  | wrIbank (c : Chan) (v : Byte)
  | wrHadrl (c : Chan) (v : Byte)
  | wrHadrh (c : Chan) (v : Byte)
  | wrLine (c : Chan) (v : Byte)
  | wrScrb (c : Chan) (v : Byte)
  | wrRsvc (c : Chan) (v : Byte)
  | wrRsvd (c : Chan) (v : Byte)
  | wrRsve (c : Chan) (v : Byte)
  | wrScrf (c : Chan) (v : Byte)
  | rdCtrl (c : Chan)
  | rdTgt (c : Chan)
  | rdSrcl (c : Chan)
  | rdSrch (c : Chan)
  | rdSrcb (c : Chan)
  | rdSizel (c : Chan)
  | rdSizeh (c : Chan)
  | rdIbank (c : Chan)
  | rdHadrl (c : Chan)
  | rdHadrh (c : Chan)
  | rdLine (c : Chan)
  | rdScrb (c : Chan)
  | rdRsvc (c : Chan)
  | rdRsvd (c : Chan)
  | rdRsve (c : Chan)
  | rdScrf (c : Chan)
  | enDma (m : Byte)
  | enHdma (m : Byte)
  | dmarun
  | hdmarun
  | hdmasetup
  | reset
  | hfin
  deriving DecidableEq, Repr

/-- The pseudo-instructions of R102, with their operands as an assembler reads them: plain numbers, which
WellFormed.lean bounds. -/
inductive Pseudo where
  | wr16Src (c imm16 : Nat)
  | wr24Src (c imm24 : Nat)
  | wr16Size (c imm16 : Nat)
  | wr16Hadr (c imm16 : Nat)
  | wrCtrlF (c d i f m : Nat)
  | rd16Size (c : Nat)
  | rd16Src (c : Nat)
  | rd16Hadr (c : Nat)
  deriving DecidableEq, Repr

end Sys2Proof
end

