-- ==== Sys2Proof/WellFormed.lean ====
section
/-! DEFINITION. Which raw transactions are encodings at all (spec 30_encoding.md R95, R98), and which pseudo-instructions
have operands in range (R101, R102). A transaction of `Instr` needs no check of its own: its channel is a `Fin 8` and its
byte a `BitVec 8`, so every term of `Instr` is well formed ("every byte value is legal", 42_controller.md R182 to R197). -/

namespace Sys2Proof

/-- `rsv`, bits 11:7, is 0 (R91, R95). -/
def Txn.reservedClear (t : Txn) : Bool := t.hdr &&& 0x0F80 == 0

/-- The kind is not one of the reserved kinds 0x9 to 0xF (R92, R98). -/
def Txn.kindDefined (t : Txn) : Bool := t.hdr < 0x9000

/-- Kinds 0x0 and 0x1 use bits 6:0; for the other kinds they are 0 (R95). -/
def Txn.operandsClear (t : Txn) : Bool := t.hdr < 0x2000 || t.hdr &&& 0x007F == 0

/-- The header is no reserved encoding (R95, R98). -/
def Txn.wf (t : Txn) : Bool := t.reservedClear && t.kindDefined && t.operandsClear

/-- The operands of a pseudo-instruction are in the ranges of R101 and R102. -/
def Pseudo.wf : Pseudo → Bool
  | .wr16Src c imm => decide (c < 8) && decide (imm < 2 ^ 16)
  | .wr24Src c imm => decide (c < 8) && decide (imm < 2 ^ 24)
  | .wr16Size c imm => decide (c < 8) && decide (imm < 2 ^ 16)
  | .wr16Hadr c imm => decide (c < 8) && decide (imm < 2 ^ 16)
  | .wrCtrlF c d i f m =>
    decide (c < 8) && decide (d < 2) && decide (i < 2) && decide (f < 2) && decide (m < 8)
  | .rd16Size c => decide (c < 8)
  | .rd16Src c => decide (c < 8)
  | .rd16Hadr c => decide (c < 8)

end Sys2Proof
end

