-- ==== Sys2Proof/Decode.lean ====
section
/-! DEFINITION. The decoder (spec 30_encoding.md R91 to R98), total on every header and rejecting by name; the encoder,
written from the match values of opcode_table.json; the opcode table itself; and the host's `decodeTableWord`. -/

namespace Sys2Proof

/-- Why a header is `Invalid` (R96, R98). The host sees one reason for all three, ReservedEncoding (R243). -/
inductive DecodeError where
  | reservedBits   -- `t_hdr[11:7] != 0`
  | operandBits    -- kind 0x2 to 0x8 with `t_hdr[6:0] != 0`
  | reservedKind   -- kind 0x9 to 0xF
  deriving DecidableEq, Repr

/-- `kind`, bits 15:12 (R91). -/
def hdrKind (h : BitVec 16) : BitVec 4 := h.extractLsb' 12 4

/-- `rsv`, bits 11:7 (R91). -/
def hdrRsv (h : BitVec 16) : BitVec 5 := h.extractLsb' 7 5

/-- `ch`, bits 6:4 (R91, R93). -/
def hdrCh (h : BitVec 16) : Chan := (h.extractLsb' 4 3).toFin

/-- `off`, bits 3:0 (R91, R93). -/
def hdrOff (h : BitVec 16) : BitVec 4 := h.extractLsb' 0 4

/-- Bits 6:0: the local register address of kinds 0x0 and 0x1, and 0 for the others (R91, R97). -/
def hdrLow (h : BitVec 16) : BitVec 7 := h.extractLsb' 0 7

/-- The register at an offset (R93's table). -/
def regAt (off : BitVec 4) : Reg :=
  match off.toNat with
  | 0x0 => .ctrl
  | 0x1 => .tgt
  | 0x2 => .srcl
  | 0x3 => .srch
  | 0x4 => .srcb
  | 0x5 => .sizel
  | 0x6 => .sizeh
  | 0x7 => .ibank
  | 0x8 => .hadrl
  | 0x9 => .hadrh
  | 0xA => .line
  | 0xB => .scrb
  | 0xC => .rsvc
  | 0xD => .rsvd
  | 0xE => .rsve
  | _ => .scrf   -- 0xF, the one value left

/-- The offset of a register (10_state.md R48). -/
def Reg.offset : Reg → BitVec 4
  | .ctrl => 0x0
  | .tgt => 0x1
  | .srcl => 0x2
  | .srch => 0x3
  | .srcb => 0x4
  | .sizel => 0x5
  | .sizeh => 0x6
  | .ibank => 0x7
  | .hadrl => 0x8
  | .hadrh => 0x9
  | .line => 0xA
  | .scrb => 0xB
  | .rsvc => 0xC
  | .rsvd => 0xD
  | .rsve => 0xE
  | .scrf => 0xF

/-- `WR.<reg>` of channel c with the byte v (R93). -/
def wrInstr (r : Reg) (c : Chan) (v : Byte) : Instr :=
  match r with
  | .ctrl => .wrCtrl c v
  | .tgt => .wrTgt c v
  | .srcl => .wrSrcl c v
  | .srch => .wrSrch c v
  | .srcb => .wrSrcb c v
  | .sizel => .wrSizel c v
  | .sizeh => .wrSizeh c v
  | .ibank => .wrIbank c v
  | .hadrl => .wrHadrl c v
  | .hadrh => .wrHadrh c v
  | .line => .wrLine c v
  | .scrb => .wrScrb c v
  | .rsvc => .wrRsvc c v
  | .rsvd => .wrRsvd c v
  | .rsve => .wrRsve c v
  | .scrf => .wrScrf c v

/-- `RD.<reg>` of channel c (R93). -/
def rdInstr (r : Reg) (c : Chan) : Instr :=
  match r with
  | .ctrl => .rdCtrl c
  | .tgt => .rdTgt c
  | .srcl => .rdSrcl c
  | .srch => .rdSrch c
  | .srcb => .rdSrcb c
  | .sizel => .rdSizel c
  | .sizeh => .rdSizeh c
  | .ibank => .rdIbank c
  | .hadrl => .rdHadrl c
  | .hadrh => .rdHadrh c
  | .line => .rdLine c
  | .scrb => .rdScrb c
  | .rsvc => .rdRsvc c
  | .rsvd => .rdRsvd c
  | .rsve => .rdRsve c
  | .scrf => .rdScrf c

/-- Kinds 0x2 to 0x8 (R92), given that the other bits of the header are 0. -/
def commandOfKind (kind : BitVec 4) (din : Byte) : Except DecodeError Instr :=
  match kind.toNat with
  | 0x2 => .ok (.enDma din)
  | 0x3 => .ok (.enHdma din)
  | 0x4 => .ok .dmarun
  | 0x5 => .ok .hdmarun
  | 0x6 => .ok .hdmasetup
  | 0x7 => .ok .reset
  | 0x8 => .ok .hfin
  | _ => .error .reservedKind

/-- The decoder, in the order of R97. -/
def decode (t : Txn) : Except DecodeError Instr :=
  if hdrRsv t.hdr ≠ 0 then .error .reservedBits
  else if hdrKind t.hdr = 0x0 then .ok (wrInstr (regAt (hdrOff t.hdr)) (hdrCh t.hdr) t.din)
  else if hdrKind t.hdr = 0x1 then .ok (rdInstr (regAt (hdrOff t.hdr)) (hdrCh t.hdr))
  else if hdrKind t.hdr ≤ 0x8 ∧ hdrLow t.hdr ≠ 0 then .error .operandBits
  else commandOfKind (hdrKind t.hdr) t.din

/-- The channel field of a header: `c` at bits 6:4, every other bit 0 (R91). -/
def chBits (c : Chan) : BitVec 16 := BitVec.ofNat 16 (c.val * 0x10)

/-- The header and data byte of a transaction: the `match` value of its row of opcode_table.json with the channel at bits
6:4; the data byte is 0 where R95 ignores it. -/
def encode : Instr → Txn
  | .wrCtrl c v => ⟨0x0000 ||| chBits c, v⟩
  | .wrTgt c v => ⟨0x0001 ||| chBits c, v⟩
  | .wrSrcl c v => ⟨0x0002 ||| chBits c, v⟩
  | .wrSrch c v => ⟨0x0003 ||| chBits c, v⟩
  | .wrSrcb c v => ⟨0x0004 ||| chBits c, v⟩
  | .wrSizel c v => ⟨0x0005 ||| chBits c, v⟩
  | .wrSizeh c v => ⟨0x0006 ||| chBits c, v⟩
  | .wrIbank c v => ⟨0x0007 ||| chBits c, v⟩
  | .wrHadrl c v => ⟨0x0008 ||| chBits c, v⟩
  | .wrHadrh c v => ⟨0x0009 ||| chBits c, v⟩
  | .wrLine c v => ⟨0x000A ||| chBits c, v⟩
  | .wrScrb c v => ⟨0x000B ||| chBits c, v⟩
  | .wrRsvc c v => ⟨0x000C ||| chBits c, v⟩
  | .wrRsvd c v => ⟨0x000D ||| chBits c, v⟩
  | .wrRsve c v => ⟨0x000E ||| chBits c, v⟩
  | .wrScrf c v => ⟨0x000F ||| chBits c, v⟩
  | .rdCtrl c => ⟨0x1000 ||| chBits c, 0⟩
  | .rdTgt c => ⟨0x1001 ||| chBits c, 0⟩
  | .rdSrcl c => ⟨0x1002 ||| chBits c, 0⟩
  | .rdSrch c => ⟨0x1003 ||| chBits c, 0⟩
  | .rdSrcb c => ⟨0x1004 ||| chBits c, 0⟩
  | .rdSizel c => ⟨0x1005 ||| chBits c, 0⟩
  | .rdSizeh c => ⟨0x1006 ||| chBits c, 0⟩
  | .rdIbank c => ⟨0x1007 ||| chBits c, 0⟩
  | .rdHadrl c => ⟨0x1008 ||| chBits c, 0⟩
  | .rdHadrh c => ⟨0x1009 ||| chBits c, 0⟩
  | .rdLine c => ⟨0x100A ||| chBits c, 0⟩
  | .rdScrb c => ⟨0x100B ||| chBits c, 0⟩
  | .rdRsvc c => ⟨0x100C ||| chBits c, 0⟩
  | .rdRsvd c => ⟨0x100D ||| chBits c, 0⟩
  | .rdRsve c => ⟨0x100E ||| chBits c, 0⟩
  | .rdScrf c => ⟨0x100F ||| chBits c, 0⟩
  | .enDma m => ⟨0x2000, m⟩
  | .enHdma m => ⟨0x3000, m⟩
  | .dmarun => ⟨0x4000, 0⟩
  | .hdmarun => ⟨0x5000, 0⟩
  | .hdmasetup => ⟨0x6000, 0⟩
  | .reset => ⟨0x7000, 0⟩
  | .hfin => ⟨0x8000, 0⟩

/-- A row of opcode_table.json: a header belongs to it when `hdr & mask == pattern`. -/
structure OpcodeRow where
  mnemonic : String
  pattern : BitVec 16
  mask : BitVec 16
  deriving DecidableEq, Repr

/-- The rows WR.<reg> of opcode_table.json (R97). -/
def opcodeRowsWr : List OpcodeRow :=
  [⟨"WR.CTRL", 0x0000, 0xFF8F⟩,
   ⟨"WR.TGT", 0x0001, 0xFF8F⟩,
   ⟨"WR.SRCL", 0x0002, 0xFF8F⟩,
   ⟨"WR.SRCH", 0x0003, 0xFF8F⟩,
   ⟨"WR.SRCB", 0x0004, 0xFF8F⟩,
   ⟨"WR.SIZEL", 0x0005, 0xFF8F⟩,
   ⟨"WR.SIZEH", 0x0006, 0xFF8F⟩,
   ⟨"WR.IBANK", 0x0007, 0xFF8F⟩,
   ⟨"WR.HADRL", 0x0008, 0xFF8F⟩,
   ⟨"WR.HADRH", 0x0009, 0xFF8F⟩,
   ⟨"WR.LINE", 0x000A, 0xFF8F⟩,
   ⟨"WR.SCRB", 0x000B, 0xFF8F⟩,
   ⟨"WR.RSVC", 0x000C, 0xFF8F⟩,
   ⟨"WR.RSVD", 0x000D, 0xFF8F⟩,
   ⟨"WR.RSVE", 0x000E, 0xFF8F⟩,
   ⟨"WR.SCRF", 0x000F, 0xFF8F⟩]

/-- The rows RD.<reg> of opcode_table.json (R97). -/
def opcodeRowsRd : List OpcodeRow :=
  [⟨"RD.CTRL", 0x1000, 0xFF8F⟩,
   ⟨"RD.TGT", 0x1001, 0xFF8F⟩,
   ⟨"RD.SRCL", 0x1002, 0xFF8F⟩,
   ⟨"RD.SRCH", 0x1003, 0xFF8F⟩,
   ⟨"RD.SRCB", 0x1004, 0xFF8F⟩,
   ⟨"RD.SIZEL", 0x1005, 0xFF8F⟩,
   ⟨"RD.SIZEH", 0x1006, 0xFF8F⟩,
   ⟨"RD.IBANK", 0x1007, 0xFF8F⟩,
   ⟨"RD.HADRL", 0x1008, 0xFF8F⟩,
   ⟨"RD.HADRH", 0x1009, 0xFF8F⟩,
   ⟨"RD.LINE", 0x100A, 0xFF8F⟩,
   ⟨"RD.SCRB", 0x100B, 0xFF8F⟩,
   ⟨"RD.RSVC", 0x100C, 0xFF8F⟩,
   ⟨"RD.RSVD", 0x100D, 0xFF8F⟩,
   ⟨"RD.RSVE", 0x100E, 0xFF8F⟩,
   ⟨"RD.SCRF", 0x100F, 0xFF8F⟩]

/-- The seven single-value rows of opcode_table.json (R97). -/
def opcodeRowsSingle : List OpcodeRow :=
  [⟨"EN.DMA", 0x2000, 0xFFFF⟩, ⟨"EN.HDMA", 0x3000, 0xFFFF⟩, ⟨"DMARUN", 0x4000, 0xFFFF⟩, ⟨"HDMARUN", 0x5000, 0xFFFF⟩,
   ⟨"HDMASETUP", 0x6000, 0xFFFF⟩, ⟨"RESET", 0x7000, 0xFFFF⟩, ⟨"HFIN", 0x8000, 0xFFFF⟩]

/-- The 39 rows of opcode_table.json. -/
def opcodeTable : List OpcodeRow := opcodeRowsWr ++ opcodeRowsRd ++ opcodeRowsSingle

/-- The header belongs to the row. -/
def OpcodeRow.covers (row : OpcodeRow) (h : BitVec 16) : Bool := h &&& row.mask == row.pattern

/-- The mnemonic of a transaction, as opcode_table.json spells it. -/
def Instr.mnemonic : Instr → String
  | .wrCtrl _ _ => "WR.CTRL"
  | .wrTgt _ _ => "WR.TGT"
  | .wrSrcl _ _ => "WR.SRCL"
  | .wrSrch _ _ => "WR.SRCH"
  | .wrSrcb _ _ => "WR.SRCB"
  | .wrSizel _ _ => "WR.SIZEL"
  | .wrSizeh _ _ => "WR.SIZEH"
  | .wrIbank _ _ => "WR.IBANK"
  | .wrHadrl _ _ => "WR.HADRL"
  | .wrHadrh _ _ => "WR.HADRH"
  | .wrLine _ _ => "WR.LINE"
  | .wrScrb _ _ => "WR.SCRB"
  | .wrRsvc _ _ => "WR.RSVC"
  | .wrRsvd _ _ => "WR.RSVD"
  | .wrRsve _ _ => "WR.RSVE"
  | .wrScrf _ _ => "WR.SCRF"
  | .rdCtrl _ => "RD.CTRL"
  | .rdTgt _ => "RD.TGT"
  | .rdSrcl _ => "RD.SRCL"
  | .rdSrch _ => "RD.SRCH"
  | .rdSrcb _ => "RD.SRCB"
  | .rdSizel _ => "RD.SIZEL"
  | .rdSizeh _ => "RD.SIZEH"
  | .rdIbank _ => "RD.IBANK"
  | .rdHadrl _ => "RD.HADRL"
  | .rdHadrh _ => "RD.HADRH"
  | .rdLine _ => "RD.LINE"
  | .rdScrb _ => "RD.SCRB"
  | .rdRsvc _ => "RD.RSVC"
  | .rdRsvd _ => "RD.RSVD"
  | .rdRsve _ => "RD.RSVE"
  | .rdScrf _ => "RD.SCRF"
  | .enDma _ => "EN.DMA"
  | .enHdma _ => "EN.HDMA"
  | .dmarun => "DMARUN"
  | .hdmarun => "HDMARUN"
  | .hdmasetup => "HDMASETUP"
  | .reset => "RESET"
  | .hfin => "HFIN"

/-- The transaction whose bits are `w` as opcode_table.json numbers them: the header is bits 15:0 and the data byte, the
second unit of a transaction (R100), bits 23:16. Bits from `nbits` up count as 0. -/
def txnOfTableWord (nbits w : Nat) : Txn :=
  ⟨BitVec.ofNat 16 (w % 2 ^ nbits), BitVec.ofNat 8 (w % 2 ^ nbits / 2 ^ 16)⟩

/-- What the decoder reads from a table word; none where it refuses. -/
def decodeTableWord (nbits w : Nat) : Option Instr :=
  match decode (txnOfTableWord nbits w) with
  | .ok i => some i
  | .error _ => none

end Sys2Proof
end

