-- ==== Sys2Proof/Config.lean ====
section
/-! DEFINITION. The parameters of spec 00_scope.md R11, which "the model takes as an argument", as one record of plain data,
and the values the spec leaves open, as constants without a body.

The record stands in State (field `cfg`), so that every statement over all states is a statement over all parameters; no
transaction changes it. The default values are in Machine/Gate.lean. -/

namespace Sys2Proof

/-- `mode4_mask` (R11, R130, 92 D16): one of 0xFF and 0x03. -/
inductive Mode4Mask where
  | full   -- 0xFF: `+byte_index` mod 256, the default
  | low2   -- 0x03: repeat every four registers
  deriving DecidableEq, Repr

/-- `hdma_direct_ptr` (R11, R164, 92 D18). -/
inductive DirectPtr where
  | sourceAddress
  | hdmaAddress
  deriving DecidableEq, Repr

/-- `ctrl_readback` (R11, R198, 92 D19). -/
inductive CtrlReadback where
  | bitwise
  | collapse
  deriving DecidableEq, Repr

/-- `setup_guard` (R11, R154, 92 D28). -/
inductive SetupGuard where
  | skipIfEnabled
  | skipIfDisabled
  deriving DecidableEq, Repr

/-- One term of an address predicate, as R66 and R67 write theirs: `(a & mask) == value`. -/
structure AddrMatch where
  mask : Addr
  value : Addr
  deriving DecidableEq, Repr

/-- The parameters of R11 but `power_on_fields`, which is an argument of `Machine.State.powerOn`.

`aGate` and `wramRegion` are address predicates (`u24 -> Bool` in R11). A list of terms, true where some term matches, can
say every predicate on 24-bit addresses (a term with the mask 0xFFFFFF names one address), so nothing is lost by holding
them as plain data (assumption 5). -/
structure Config where
  dmaPageBase : Addr
  bbusBase : Addr
  aGate : List AddrMatch
  wramRegion : List AddrMatch
  /-- `K_dma`, the fixed overhead of DMARUN (R222, OPEN). -/
  kDma : Nat
  /-- `K_hrun`, the fixed overhead of HDMARUN (R222, OPEN). -/
  kHrun : Nat
  /-- `K_hsetup`, the fixed overhead of HDMASETUP (R222, OPEN). -/
  kHsetup : Nat
  mode4Mask : Mode4Mask
  hdmaDirectPtr : DirectPtr
  ctrlReadback : CtrlReadback
  setupGuard : SetupGuard
  deriving DecidableEq, Repr

/-- `K_dma` of the configuration at power-on: OPEN, no default (R11, 92 D11), so a constant nothing is known of
(assumption 6). -/
opaque Config.openKDma : Nat

/-- `K_hrun` of the configuration at power-on: OPEN, no default (R11, 92 D11; assumption 6). -/
opaque Config.openKHrun : Nat

/-- `K_hsetup` of the configuration at power-on: OPEN, no default (R11, 92 D11; assumption 6). -/
opaque Config.openKHsetup : Nat

/-- The free value of a bus read for which State lists no answer: "a draw, free at each read" (R60, 92 D38), applied to the
number of such reads so far (assumption 2). -/
opaque Config.freeByte : Nat → Byte

end Sys2Proof
end

