-- ==== Sys2Proof/Machine/Gate.lean ====
section
/-! DEFINITION. The address predicates of the bus path (spec 20_memory.md R66, R67) and the default values of the
parameters (00_scope.md R11), those from general knowledge marked PRESUMED (assumption 5). -/

namespace Sys2Proof.Machine

/-- `(a & mask) == value`. -/
def matchesTerm (t : AddrMatch) (a : Addr) : Bool := a &&& t.mask == t.value

/-- Some term of the predicate matches. -/
def matchesAny (ts : List AddrMatch) (a : Addr) : Bool := ts.any (matchesTerm · a)

/-- `a_gate(a)`: true when the A-bus address is rejected (R66). -/
def gated (cfg : Config) (a : Addr) : Bool := matchesAny cfg.aGate a

/-- `validA(a) = not a_gate(a)` (R66). -/
def validA (cfg : Config) (a : Addr) : Bool := !gated cfg a

/-- `wram_region(a)` (R67). -/
def inWram (cfg : Config) (a : Addr) : Bool := matchesAny cfg.wramRegion a

/-- `validB(off, a) = not (off == 0x80 and wram_region(a))` (R67). -/
def validB (cfg : Config) (off : Byte) (a : Addr) : Bool := !(off == 0x80 && inWram cfg a)

/-- The default `a_gate` (R66, 93 G3). PRESUMED by the spec, from general knowledge: unsafe where the masks are wrong. -/
def defaultGate : List AddrMatch :=
  [⟨0x40FF00, 0x002100⟩,   -- PPU/APU page
   ⟨0x40FE00, 0x004000⟩,   -- controller ports
   ⟨0x40FFE0, 0x004200⟩,   -- CPU registers
   ⟨0x40FF80, 0x004300⟩]   -- DMA registers

/-- The default `wram_region` (R67, 93 G4). PRESUMED by the spec, from general knowledge: unsafe where the ranges are
wrong. -/
def defaultWram : List AddrMatch :=
  [⟨0xFE0000, 0x7E0000⟩,   -- banks 7E-7F
   ⟨0x40E000, 0x000000⟩]   -- banks 00-3F and 80-BF, 0000-1FFF

/-- The defaults of R11. The three overheads are OPEN and stay free constants. -/
def defaultConfig : Config where
  dmaPageBase := 0x004300
  bbusBase := 0x002100
  aGate := defaultGate
  wramRegion := defaultWram
  kDma := Config.openKDma
  kHrun := Config.openKHrun
  kHsetup := Config.openKHsetup
  mode4Mask := .full
  hdmaDirectPtr := .sourceAddress
  ctrlReadback := .bitwise
  setupGuard := .skipIfEnabled

end Sys2Proof.Machine
end

