-- ==== Sys2Proof/Machine/State.lean ====
section
/-! DEFINITION. Every piece of state the spec gives the block (10_state.md R20 to R54), its ports (30_encoding.md R90) and
the parameters (00_scope.md R11), as plain data; the power-on state and `State.reset`. -/

namespace Sys2Proof.Machine

/-- One channel's fields: those of 10_state.md R21 to R39 and no others (R20). A field of 1 bit is a Bool, true for 1. -/
structure Channel where
  enable : Bool                -- R21
  hdmaEnable : Bool            -- R22
  direction : Bool             -- R23: false = A→B, true = B→A
  indirect : Bool              -- R24
  unused : Bool                -- R25
  reverseTransfer : Bool       -- R26
  fixedTransfer : Bool         -- R27
  transferMode : BitVec 3      -- R28
  targetAddress : Byte         -- R29
  sourceAddress : Half         -- R30
  sourceBank : Byte            -- R31
  transferSize : Half          -- R32
  indirectBank : Byte          -- R33
  hdmaAddress : Half           -- R34
  lineCounter : Byte           -- R35
  scratch : Byte               -- R36
  indirectAddress : Half       -- R37
  hdmaCompleted : Bool         -- R38
  hdmaDoTransfer : Bool        -- R39
  deriving DecidableEq, Repr

/-- The reasons of a refusal, a closed list (60_exceptions.md R243). -/
inductive RefuseReason where
  | reservedEncoding   -- the decoder: a reserved header (30_encoding.md R96)
  | reentrantCommand   -- DMARUN, HDMARUN, HDMASETUP, RESET issued while `running`
  deriving DecidableEq, Repr

/-- How a transaction ends on the host port (30_encoding.md R90): `t_done`, with `t_dout` where the transaction has data
out (R92), or the refusal with its reason (60_exceptions.md R242). -/
inductive Reply where
  | done
  | data (v : Byte)
  | refused (why : RefuseReason)
  deriving DecidableEq, Repr

/-- What the host does at one bus access that reaches the bus (20_memory.md R75, 70_reset_and_hazards.md R265): the
re-entrant transactions it issues before the access returns, in order, and the byte `b_rdata` it answers a read with (a
write carries no answer: the byte is then not used). -/
structure BusTurn where
  reentrant : List Txn
  rdata : Byte
  deriving DecidableEq, Repr

/-- What leaves the block on its bus port and its cycle port (30_encoding.md R90), in the order it happens. -/
inductive PortEvent where
  | charge (n : Nat)             -- `cyc_add` carrying n
  | read (a : Addr) (v : Byte)   -- a bus read of a and the byte the bus returned
  | write (a : Addr) (v : Byte)  -- a bus write of v to a
  deriving DecidableEq, Repr

/-- The machine. -/
structure State where
  channels : Vector Channel 8   -- R20
  cycles : Nat                  -- R41
  status : Bool                 -- R42
  running : Bool                -- R43
  refused : Bool                -- R44
  cfg : Config                  -- the parameters of 00_scope.md R11
  requests : List Txn           -- host port in: the top-level transactions to come, the next one first
  replies : List Reply          -- host port out: what each transaction answered, the oldest first
  turns : List BusTurn          -- bus port in: what the host does at the bus accesses to come, the next one first
  trace : List PortEvent        -- bus and cycle ports out: what the block issued, the oldest first (R280)
  draws : Nat                   -- the model's own: how many free bus bytes were drawn (assumption 2)
  deriving DecidableEq, Repr

/-- The faults of a step: none. "The block raises no synchronous exception" (60_exceptions.md R240), and a refusal has a
next state (R242; assumption 1), so no step stops with a fault (assumption 15). -/
inductive Fault where
  deriving DecidableEq, Repr

/-- Why the model has no meaning for an instruction. -/
inductive Refusal where
  /-- Raised by an arm of `exec` whose instruction has no meaning yet; safe. No arm of this model raises it. -/
  | notModelled (mnemonic : String)
  deriving DecidableEq, Repr

/-- What RESET does to a channel (70_reset_and_hazards.md R260): the four control flags become false, every other field is
unchanged. -/
def Channel.disarm (k : Channel) : Channel :=
  { k with enable := false, hdmaEnable := false, hdmaCompleted := false, hdmaDoTransfer := false }

/-- Power-on (70_reset_and_hazards.md R261): "as if RESET had been applied to an arbitrary state". `draw` is the parameter
`power_on_fields` (00_scope.md R11): any value for each field of each channel; `cycles` and `status` are the host's, and
`cfg` the parameters. Nothing has been requested, answered or issued. -/
def State.powerOn (draw : Vector Channel 8) (cycles : Nat) (status : Bool) (cfg : Config) : State where
  channels := #v[draw[0].disarm, draw[1].disarm, draw[2].disarm, draw[3].disarm,
                 draw[4].disarm, draw[5].disarm, draw[6].disarm, draw[7].disarm]
  cycles := cycles
  status := status
  running := false
  refused := false
  cfg := cfg
  requests := []
  replies := []
  turns := []
  trace := []
  draws := 0

/-- A channel all of whose fields are zero: the value the model names for the fields R261 leaves unspecified (DESIGN
CHOICE, unsafe; assumption 7). -/
def zeroChannel : Channel where
  enable := false
  hdmaEnable := false
  direction := false
  indirect := false
  unused := false
  reverseTransfer := false
  fixedTransfer := false
  transferMode := 0
  targetAddress := 0
  sourceAddress := 0
  sourceBank := 0
  transferSize := 0
  indirectBank := 0
  hdmaAddress := 0
  lineCounter := 0
  scratch := 0
  indirectAddress := 0
  hdmaCompleted := false
  hdmaDoTransfer := false

/-- The machine right after power-on, with one named value for what the spec leaves unspecified: zero for each drawn field,
0 for `cycles` and false for `status` (DESIGN CHOICE, unsafe; assumption 7). -/
def State.reset : State :=
  State.powerOn #v[zeroChannel, zeroChannel, zeroChannel, zeroChannel,
                   zeroChannel, zeroChannel, zeroChannel, zeroChannel] 0 false defaultConfig

end Sys2Proof.Machine
end

