-- ==== Sys2Proof/Machine/Ops.lean ====
section
/-! DEFINITION. The shared operations over the state: reading and writing a channel, charging cycle-units, answering the
host, and the refusal, which is this hardware's one abnormal outcome (60_exceptions.md R240, R242: the block has no
exception to take and none to return from, R248, R249). -/

namespace Sys2Proof.Machine

/-- `ch[c]` (00_scope.md R13). -/
def State.ch (s : State) (c : Chan) : Channel := s.channels[c]

/-- Replace channel c. "No field of one channel aliases a field of another" (10_state.md R45). -/
def State.setCh (s : State) (c : Chan) (k : Channel) : State := { s with channels := s.channels.set c k }

/-- Change the fields of channel c: `ch[c].f <- v` (00_scope.md R13). -/
def State.modCh (s : State) (c : Chan) (f : Channel → Channel) : State := s.setCh c (f (s.ch c))

/-- The order of every pass over the channels (42_controller.md R220). -/
def channelOrder : List Chan := [0, 1, 2, 3, 4, 5, 6, 7]

/-- Visit the channels 0 to 7, one at a time (R220). -/
def forChannels (f : Chan → State → State) (s : State) : State := channelOrder.foldl (fun s c => f c s) s

/-- `Charge(n)` (00_scope.md R15): add n to `cycles`, and emit the `cyc_add` event of the cycle port (30_encoding.md R90).
Nothing else changes `cycles`. -/
def charge (n : Nat) (s : State) : State :=
  { s with cycles := s.cycles + n, trace := s.trace ++ [.charge n] }

/-- Record an access on the bus port (70_reset_and_hazards.md R280). -/
def emit (e : PortEvent) (s : State) : State := { s with trace := s.trace ++ [e] }

/-- Answer the host (30_encoding.md R90). -/
def reply (r : Reply) (s : State) : State := { s with replies := s.replies ++ [r] }

/-- The refusal (60_exceptions.md R242): every piece of state stays as it was, `refused` becomes true, and the reason goes
to the host. -/
def refuse (why : RefuseReason) (s : State) : State := reply (.refused why) { s with refused := true }

end Sys2Proof.Machine
end

