-- ==== Sys2Proof/Machine/Operands.lean ====
section
/-! DEFINITION. Operand forms: the halves of a 16-bit register, the CTRL byte, the registers of a channel's page, the
formation of A-bus and B-bus addresses, the B-register mode decoder, the length of an HDMA line, and the host's mapping of
its own addresses onto the host port. -/

namespace Sys2Proof.Machine

/-- Bits 7:0 of a 16-bit register (20_memory.md R63). -/
def loByte (w : Half) : Byte := w.extractLsb' 0 8

/-- Bits 15:8 of a 16-bit register (20_memory.md R63). -/
def hiByte (w : Half) : Byte := w.extractLsb' 8 8

/-- `{hi, lo}` (00_scope.md R12). -/
def joinBytes (hi lo : Byte) : Half := hi ++ lo

/-- Write bits 7:0 and keep bits 15:8 (R63). -/
def withLo (w : Half) (v : Byte) : Half := joinBytes (hiByte w) v

/-- Write bits 15:8 and keep bits 7:0 (R63). -/
def withHi (w : Half) (v : Byte) : Half := joinBytes v (loByte w)

/-- WR.CTRL's assignment of the control byte to its six fields (42_controller.md R182). -/
def Channel.setCtrl (k : Channel) (v : Byte) : Channel :=
  { k with
    transferMode := v.extractLsb' 0 3
    fixedTransfer := v.getLsbD 3
    reverseTransfer := v.getLsbD 4
    unused := v.getLsbD 5
    indirect := v.getLsbD 6
    direction := v.getLsbD 7 }

/-- The low six bits of the control byte as RD.CTRL composes them (R198's `low`). -/
def Channel.ctrlLow (k : Channel) : BitVec 6 :=
  BitVec.ofBool k.unused ++ BitVec.ofBool k.reverseTransfer ++ BitVec.ofBool k.fixedTransfer ++ k.transferMode

/-- RD.CTRL's byte under the policy `ctrl_readback` (R198). -/
def Channel.ctrlByte (policy : CtrlReadback) (k : Channel) : Byte :=
  match policy with
  | .bitwise => BitVec.ofBool k.direction ++ BitVec.ofBool k.indirect ++ k.ctrlLow
  | .collapse => BitVec.ofBool (!k.indirect && k.direction) ++ BitVec.ofBool k.indirect ++ k.ctrlLow

/-- A write of the byte v to a register of the channel's page (42_controller.md R182 to R197). -/
def Channel.writeReg (k : Channel) (r : Reg) (v : Byte) : Channel :=
  match r with
  | .ctrl => k.setCtrl v
  | .tgt => { k with targetAddress := v }
  | .srcl => { k with sourceAddress := withLo k.sourceAddress v }
  | .srch => { k with sourceAddress := withHi k.sourceAddress v }
  | .srcb => { k with sourceBank := v }
  | .sizel => { k with transferSize := withLo k.transferSize v }
  | .sizeh => { k with transferSize := withHi k.transferSize v }
  | .ibank => { k with indirectBank := v }
  | .hadrl => { k with hdmaAddress := withLo k.hdmaAddress v }
  | .hadrh => { k with hdmaAddress := withHi k.hdmaAddress v }
  | .line => { k with lineCounter := v }
  | .scrb => { k with scratch := v }
  | .rsvc => k
  | .rsvd => k
  | .rsve => k
  | .scrf => { k with scratch := v }

/-- The byte read from a register of the channel's page (42_controller.md R198 to R213). -/
def Channel.readReg (cfg : Config) (k : Channel) (r : Reg) : Byte :=
  match r with
  | .ctrl => k.ctrlByte cfg.ctrlReadback
  | .tgt => k.targetAddress
  | .srcl => loByte k.sourceAddress
  | .srch => hiByte k.sourceAddress
  | .srcb => k.sourceBank
  | .sizel => loByte k.transferSize
  | .sizeh => hiByte k.transferSize
  | .ibank => k.indirectBank
  | .hadrl => loByte k.hdmaAddress
  | .hadrh => hiByte k.hdmaAddress
  | .line => k.lineCounter
  | .scrb => k.scratch
  | .rsvc => 0x00
  | .rsvd => 0x00
  | .rsve => 0x00
  | .scrf => k.scratch

/-- An A-bus address: the bank in bits 23:16, the pointer in bits 15:0, no carry between them (20_memory.md R61). -/
def aBusAddr (bank : Byte) (pointer : Half) : Addr := bank ++ pointer

/-- The A-bus address of a general DMA byte, and of an HDMA direct byte under SourceAddress (R61). -/
def Channel.sourceAddr (k : Channel) : Addr := aBusAddr k.sourceBank k.sourceAddress

/-- The A-bus address of an HDMA table read, and of an HDMA direct byte under HdmaAddress (R61). -/
def Channel.tableAddr (k : Channel) : Addr := aBusAddr k.sourceBank k.hdmaAddress

/-- The A-bus address of an HDMA indirect byte (R61). -/
def Channel.indirectAddr (k : Channel) : Addr := aBusAddr k.indirectBank k.indirectAddress

/-- A B-bus address: `bbus_base | zext_24(off)` (20_memory.md R62). -/
def bBusAddr (cfg : Config) (off : Byte) : Addr := cfg.bbusBase ||| off.setWidth 24

/-- The value of `mode4_mask` (40_general_dma.md R130). -/
def mode4MaskByte : Mode4Mask → Byte
  | .full => 0xFF
  | .low2 => 0x03

/-- What the mode adds to the target at a byte index (R129's `k`). -/
def modeStep (mask : Mode4Mask) (mode : BitVec 3) (idx : Nat) : Byte :=
  match mode.toNat with
  | 1 => BitVec.ofNat 8 (idx % 2)
  | 5 => BitVec.ofNat 8 (idx % 2)
  | 3 => BitVec.ofNat 8 (idx / 2 % 2)
  | 7 => BitVec.ofNat 8 (idx / 2 % 2)
  | 4 => BitVec.ofNat 8 (idx % 256) &&& mode4MaskByte mask
  | _ => 0   -- modes 0, 2 and 6

/-- `BOffset(m, t, idx)`, the B-register mode decoder; the sum wraps mod 256 (R129). -/
def bOffset (mask : Mode4Mask) (mode : BitVec 3) (target : Byte) (idx : Nat) : Byte := target + modeStep mask mode idx

/-- `Length(m)`, the bytes of an HDMA line: 1, 2, 2, 4, 4, 4, 2, 4 for modes 0 to 7 (41_hdma.md R163, 90_conflicts.md C1). -/
def lineLength (mode : BitVec 3) : Nat :=
  match mode.toNat with
  | 0 => 1
  | 1 => 2
  | 2 => 2
  | 3 => 4
  | 4 => 4
  | 5 => 4
  | 6 => 2
  | _ => 4   -- mode 7

/-- The host's mapping of one of its bus addresses onto the channel page: `A - dma_page_base`, where A lies in the page's
128 bytes (30_encoding.md R99, 10_state.md R53). -/
def pageOffset (cfg : Config) (a : Addr) : Option (BitVec 7) :=
  if cfg.dmaPageBase.toNat ≤ a.toNat ∧ a.toNat ≤ cfg.dmaPageBase.toNat + 0x7F then
    some (BitVec.ofNat 7 (a.toNat - cfg.dmaPageBase.toNat))
  else none

/-- A CPU write of v to bus address a becomes a WR with `t_hdr[6:0] = A - dma_page_base` (R99). -/
def hostWrite (cfg : Config) (a : Addr) (v : Byte) : Option Txn :=
  (pageOffset cfg a).map fun off => ⟨off.setWidth 16, v⟩

/-- A CPU read of bus address a becomes an RD with `t_hdr[6:0] = A - dma_page_base` (R99). -/
def hostRead (cfg : Config) (a : Addr) : Option Txn :=
  (pageOffset cfg a).map fun off => ⟨0x1000 ||| off.setWidth 16, 0⟩

/-- A CPU write of DMAEN becomes EN.DMA (R99). Its bus address is the host's (10_state.md R49). -/
def hostWriteDmaEn (m : Byte) : Txn := ⟨0x2000, m⟩

/-- A CPU write of HDMAEN becomes EN.HDMA (R99). -/
def hostWriteHdmaEn (m : Byte) : Txn := ⟨0x3000, m⟩

end Sys2Proof.Machine
end

