-- ==== Sys2Proof/Machine/Flags.lean ====
section
/-! DEFINITION. The block's flags and the predicates computed from them: HDMA-active, the chain tests, the enable masks
(DMAEN, HDMAEN), the setup guard. The block has no condition codes (10_state.md R50). -/

namespace Sys2Proof.Machine

/-- `Active(c)`: `hdma_enable && !hdma_completed` (41_hdma.md R150). -/
def Channel.active (k : Channel) : Bool := k.hdmaEnable && !k.hdmaCompleted

/-- The chain link `next(i)`: i + 1, and none for channel 7 (10_state.md R40). -/
def nextChannel (c : Chan) : Option Chan := if h : c.val + 1 < 8 then some ⟨c.val + 1, h⟩ else none

/-- `FinishedAfter(c)`: no channel c+1..7 is HDMA-active (41_hdma.md R151), as the index-range scan the rule asks for. -/
def finishedAfter (c : Chan) (s : State) : Bool := channelOrder.all fun j => decide (j ≤ c) || !(s.ch j).active

/-- `Finished()`: no channel is HDMA-active (41_hdma.md R152). It is the `hdma_finished` output (10_state.md R50). -/
def hdmaFinished (s : State) : Bool := channelOrder.all fun j => !(s.ch j).active

/-- `SetupSkips(c)` under the parameter `setup_guard` (41_hdma.md R154). -/
def setupSkips (guard : SetupGuard) (k : Channel) : Bool :=
  match guard with
  | .skipIfEnabled => k.hdmaEnable
  | .skipIfDisabled => !k.hdmaEnable

/-- The byte whose bit c is the flag of channel c (10_state.md R49). -/
def maskOf (flag : Channel → Bool) (s : State) : Byte :=
  BitVec.ofBool (flag (s.ch 7)) ++ BitVec.ofBool (flag (s.ch 6)) ++ BitVec.ofBool (flag (s.ch 5)) ++
  BitVec.ofBool (flag (s.ch 4)) ++ BitVec.ofBool (flag (s.ch 3)) ++ BitVec.ofBool (flag (s.ch 2)) ++
  BitVec.ofBool (flag (s.ch 1)) ++ BitVec.ofBool (flag (s.ch 0))

/-- DMAEN: bit c is `ch[c].enable` (10_state.md R49). No transaction reads it. -/
def dmaEn (s : State) : Byte := maskOf Channel.enable s

/-- HDMAEN: bit c is `ch[c].hdma_enable` (10_state.md R49). No transaction reads it. -/
def hdmaEn (s : State) : Byte := maskOf Channel.hdmaEnable s

/-- `for c in 0..7: ch[c].enable <- (m[c] == 1)` (42_controller.md R214). -/
def assignEnable (m : Byte) (s : State) : State :=
  forChannels (fun c s => s.modCh c fun k => { k with enable := m.getLsbD c.val }) s

/-- `for c in 0..7: ch[c].hdma_enable <- (m[c] == 1)` (42_controller.md R215). -/
def assignHdmaEnable (m : Byte) (s : State) : State :=
  forChannels (fun c s => s.modCh c fun k => { k with hdmaEnable := m.getLsbD c.val }) s

/-- Some bit rises: 0 in the old mask and 1 in the new (R214's `(m & ~old) != 0`). -/
def risingEdge (old new : Byte) : Bool := new &&& ~~~old != 0

end Sys2Proof.Machine
end

