-- ==== Sys2Proof/Machine/Registers.lean ====
section
/-! DEFINITION. The 32 register transactions (42_controller.md R180 to R213): a write changes only the field it names and
answers `t_done`; a read changes no state and answers the byte (R181). -/

namespace Sys2Proof.Machine

/-- `WR.<reg> c, v` (R181): channel c's page register takes the byte, and the host is answered. -/
def writePage (c : Chan) (r : Reg) (v : Byte) (s : State) : State :=
  reply .done (s.modCh c fun k => k.writeReg r v)

/-- `RD.<reg> c` (R181): the host is answered with the byte, and nothing else changes. -/
def readPage (c : Chan) (r : Reg) (s : State) : State :=
  reply (.data ((s.ch c).readReg s.cfg r)) s

/-- WR.CTRL (R182). -/
def execWrCtrl (c : Chan) (v : Byte) (s : State) : Host.Outcome State Fault Refusal := .next (writePage c .ctrl v s)

/-- WR.TGT (R183). -/
def execWrTgt (c : Chan) (v : Byte) (s : State) : Host.Outcome State Fault Refusal := .next (writePage c .tgt v s)

/-- WR.SRCL (R184). -/
def execWrSrcl (c : Chan) (v : Byte) (s : State) : Host.Outcome State Fault Refusal := .next (writePage c .srcl v s)

/-- WR.SRCH (R185). -/
def execWrSrch (c : Chan) (v : Byte) (s : State) : Host.Outcome State Fault Refusal := .next (writePage c .srch v s)

/-- WR.SRCB (R186). -/
def execWrSrcb (c : Chan) (v : Byte) (s : State) : Host.Outcome State Fault Refusal := .next (writePage c .srcb v s)

/-- WR.SIZEL (R187). -/
def execWrSizel (c : Chan) (v : Byte) (s : State) : Host.Outcome State Fault Refusal := .next (writePage c .sizel v s)

/-- WR.SIZEH (R188). -/
def execWrSizeh (c : Chan) (v : Byte) (s : State) : Host.Outcome State Fault Refusal := .next (writePage c .sizeh v s)

/-- WR.IBANK (R189). -/
def execWrIbank (c : Chan) (v : Byte) (s : State) : Host.Outcome State Fault Refusal := .next (writePage c .ibank v s)

/-- WR.HADRL (R190). -/
def execWrHadrl (c : Chan) (v : Byte) (s : State) : Host.Outcome State Fault Refusal := .next (writePage c .hadrl v s)

/-- WR.HADRH (R191). -/
def execWrHadrh (c : Chan) (v : Byte) (s : State) : Host.Outcome State Fault Refusal := .next (writePage c .hadrh v s)

/-- WR.LINE (R192). -/
def execWrLine (c : Chan) (v : Byte) (s : State) : Host.Outcome State Fault Refusal := .next (writePage c .line v s)

/-- WR.SCRB (R193). -/
def execWrScrb (c : Chan) (v : Byte) (s : State) : Host.Outcome State Fault Refusal := .next (writePage c .scrb v s)

/-- WR.RSVC (R194). -/
def execWrRsvc (c : Chan) (v : Byte) (s : State) : Host.Outcome State Fault Refusal := .next (writePage c .rsvc v s)

/-- WR.RSVD (R195). -/
def execWrRsvd (c : Chan) (v : Byte) (s : State) : Host.Outcome State Fault Refusal := .next (writePage c .rsvd v s)

/-- WR.RSVE (R196). -/
def execWrRsve (c : Chan) (v : Byte) (s : State) : Host.Outcome State Fault Refusal := .next (writePage c .rsve v s)

/-- WR.SCRF (R197). -/
def execWrScrf (c : Chan) (v : Byte) (s : State) : Host.Outcome State Fault Refusal := .next (writePage c .scrf v s)

/-- RD.CTRL (R198). -/
def execRdCtrl (c : Chan) (s : State) : Host.Outcome State Fault Refusal := .next (readPage c .ctrl s)

/-- RD.TGT (R199). -/
def execRdTgt (c : Chan) (s : State) : Host.Outcome State Fault Refusal := .next (readPage c .tgt s)

/-- RD.SRCL (R200). -/
def execRdSrcl (c : Chan) (s : State) : Host.Outcome State Fault Refusal := .next (readPage c .srcl s)

/-- RD.SRCH (R201). -/
def execRdSrch (c : Chan) (s : State) : Host.Outcome State Fault Refusal := .next (readPage c .srch s)

/-- RD.SRCB (R202). -/
def execRdSrcb (c : Chan) (s : State) : Host.Outcome State Fault Refusal := .next (readPage c .srcb s)

/-- RD.SIZEL (R203). -/
def execRdSizel (c : Chan) (s : State) : Host.Outcome State Fault Refusal := .next (readPage c .sizel s)

/-- RD.SIZEH (R204). -/
def execRdSizeh (c : Chan) (s : State) : Host.Outcome State Fault Refusal := .next (readPage c .sizeh s)

/-- RD.IBANK (R205). -/
def execRdIbank (c : Chan) (s : State) : Host.Outcome State Fault Refusal := .next (readPage c .ibank s)

/-- RD.HADRL (R206). -/
def execRdHadrl (c : Chan) (s : State) : Host.Outcome State Fault Refusal := .next (readPage c .hadrl s)

/-- RD.HADRH (R207). -/
def execRdHadrh (c : Chan) (s : State) : Host.Outcome State Fault Refusal := .next (readPage c .hadrh s)

/-- RD.LINE (R208). -/
def execRdLine (c : Chan) (s : State) : Host.Outcome State Fault Refusal := .next (readPage c .line s)

/-- RD.SCRB (R209). -/
def execRdScrb (c : Chan) (s : State) : Host.Outcome State Fault Refusal := .next (readPage c .scrb s)

/-- RD.RSVC (R210). -/
def execRdRsvc (c : Chan) (s : State) : Host.Outcome State Fault Refusal := .next (readPage c .rsvc s)

/-- RD.RSVD (R211). -/
def execRdRsvd (c : Chan) (s : State) : Host.Outcome State Fault Refusal := .next (readPage c .rsvd s)

/-- RD.RSVE (R212). -/
def execRdRsve (c : Chan) (s : State) : Host.Outcome State Fault Refusal := .next (readPage c .rsve s)

/-- RD.SCRF (R213). -/
def execRdScrf (c : Chan) (s : State) : Host.Outcome State Fault Refusal := .next (readPage c .scrf s)

end Sys2Proof.Machine
end

