-- ==== Sys2Proof/Machine/Reentry.lean ====
section
/-! DEFINITION. The re-entrant transactions: those the host issues while a bus access of an orchestration is outstanding
(20_memory.md R75, 92 D25). They issue no bus access themselves, so they do not nest (60_exceptions.md R249). -/

namespace Sys2Proof.Machine

/-- HFIN's answer: 0x01 if no channel is HDMA-active, else 0x00 (42_controller.md R219). -/
def answerFinished (s : State) : State := reply (.data (if hdmaFinished s then 0x01 else 0x00)) s

/-- A decoded transaction issued re-entrantly: WR, RD, EN.HDMA and HFIN act as at top level, EN.DMA assigns the bits and
starts nothing (42_controller.md R214, corner case 3), and the commands are refused (60_exceptions.md R243). -/
def reenterInstr (i : Instr) (s : State) : State :=
  match i with
  | .wrCtrl c v => writePage c .ctrl v s
  | .wrTgt c v => writePage c .tgt v s
  | .wrSrcl c v => writePage c .srcl v s
  | .wrSrch c v => writePage c .srch v s
  | .wrSrcb c v => writePage c .srcb v s
  | .wrSizel c v => writePage c .sizel v s
  | .wrSizeh c v => writePage c .sizeh v s
  | .wrIbank c v => writePage c .ibank v s
  | .wrHadrl c v => writePage c .hadrl v s
  | .wrHadrh c v => writePage c .hadrh v s
  | .wrLine c v => writePage c .line v s
  | .wrScrb c v => writePage c .scrb v s
  | .wrRsvc c v => writePage c .rsvc v s
  | .wrRsvd c v => writePage c .rsvd v s
  | .wrRsve c v => writePage c .rsve v s
  | .wrScrf c v => writePage c .scrf v s
  | .rdCtrl c => readPage c .ctrl s
  | .rdTgt c => readPage c .tgt s
  | .rdSrcl c => readPage c .srcl s
  | .rdSrch c => readPage c .srch s
  | .rdSrcb c => readPage c .srcb s
  | .rdSizel c => readPage c .sizel s
  | .rdSizeh c => readPage c .sizeh s
  | .rdIbank c => readPage c .ibank s
  | .rdHadrl c => readPage c .hadrl s
  | .rdHadrh c => readPage c .hadrh s
  | .rdLine c => readPage c .line s
  | .rdScrb c => readPage c .scrb s
  | .rdRsvc c => readPage c .rsvc s
  | .rdRsvd c => readPage c .rsvd s
  | .rdRsve c => readPage c .rsve s
  | .rdScrf c => readPage c .scrf s
  | .enDma m => reply .done (assignEnable m s)
  | .enHdma m => reply .done (assignHdmaEnable m s)
  | .dmarun => refuse .reentrantCommand s
  | .hdmarun => refuse .reentrantCommand s
  | .hdmasetup => refuse .reentrantCommand s
  | .reset => refuse .reentrantCommand s
  | .hfin => answerFinished s

/-- A raw transaction issued re-entrantly. Decoding comes first, so a reserved header is refused as such
(60_exceptions.md R247). -/
def reenterTxn (t : Txn) (s : State) : State :=
  match decode t with
  | .ok i => reenterInstr i s
  | .error _ => refuse .reservedEncoding s

/-- The transactions of one bus turn, each on the current state, in the host's order (R75). -/
def reenterAll (ts : List Txn) (s : State) : State := ts.foldl (fun s t => reenterTxn t s) s

end Sys2Proof.Machine
end

