-- ==== Sys2Proof/Machine/Bus.lean ====
section
/-! DEFINITION. The bus port: single-byte accesses (20_memory.md R60, R71), with the host's re-entrant transactions inside
each access that reaches the bus (R75), and the gated forms (R68 to R70). -/

namespace Sys2Proof.Machine

/-- The byte the bus returns at the next access: the host's answer, or, where State lists none, a free value (R60, 92 D38;
assumption 2). -/
def nextByte (s : State) : Byte :=
  match s.turns with
  | [] => Config.freeByte s.draws
  | t :: _ => t.rdata

/-- What happens while an access of the block is outstanding: the re-entrant transactions of the host's next turn (R75).
The turn is then over. -/
def hostTurn (s : State) : State :=
  match s.turns with
  | [] => s
  | t :: rest => reenterAll t.reentrant { s with turns := rest }

/-- Count a free byte, where the bus's answer was one. -/
def countDraw (s : State) : State :=
  match s.turns with
  | [] => { s with draws := s.draws + 1 }
  | _ :: _ => s

/-- `MemRead(addr, 1)` (00_scope.md R14): issue one read, let the host act, return the byte. -/
def memRead (a : Addr) (s : State) : Byte × State :=
  (nextByte s, hostTurn (countDraw (emit (.read a (nextByte s)) s)))

/-- `MemWrite(addr, 1, v)` (00_scope.md R14): issue one write and let the host act. -/
def memWrite (a : Addr) (v : Byte) (s : State) : State := hostTurn (emit (.write a v) s)

/-- `AbusRead(a)`: a rejected address yields 0x00 without a bus access (R68). -/
def abusRead (a : Addr) (s : State) : Byte × State := if gated s.cfg a then (0x00, s) else memRead a s

/-- `AbusWrite(a, v)`: a write to a rejected address is dropped (R69). -/
def abusWrite (a : Addr) (v : Byte) (s : State) : State := if gated s.cfg a then s else memWrite a v s

/-- A B-bus read: only the WRAM conflict suppresses it, and then it yields 0x00 without a bus access (R70). -/
def bbusRead (valid : Bool) (b : Addr) (s : State) : Byte × State := if valid then memRead b s else (0x00, s)

/-- A B-bus write: only the WRAM conflict suppresses it (R70). -/
def bbusWrite (valid : Bool) (b : Addr) (v : Byte) (s : State) : State := if valid then memWrite b v s else s

end Sys2Proof.Machine
end

