-- ==== Sys2Proof/Machine/GeneralDma.lean ====
section
/-! DEFINITION. The byte-transfer routine and general DMA on one channel (40_general_dma.md R120 to R140). -/

namespace Sys2Proof.Machine

/-- `Transfer(c, a, idx)` (R128): mode, direction and target are read once, before the byte's first bus access (R135); one
charge of 8 whether or not the accesses reach the bus (R133, R134); the read step precedes the write step (R131, R132). -/
def transfer (c : Chan) (a : Addr) (idx : Nat) (s : State) : State :=
  let k := s.ch c
  let off := bOffset s.cfg.mode4Mask k.transferMode k.targetAddress idx
  let b := bBusAddr s.cfg off
  let vb := validB s.cfg off a
  if k.direction then
    let r := bbusRead vb b (charge 8 s)
    abusWrite a r.1 r.2
  else
    let r := abusRead a (charge 8 s)
    bbusWrite vb b r.1 r.2

/-- After a byte, `source_address` advances by 1 mod 2^16 unless `fixed_transfer` is set, which is read live (R124, 92 D26;
assumption 10). -/
def advanceSource (c : Chan) (s : State) : State :=
  s.modCh c fun k => if k.fixedTransfer then k else { k with sourceAddress := k.sourceAddress + 1 }

/-- After a byte, `transfer_size` decreases by 1 in u16 arithmetic (R125). -/
def countByte (c : Chan) (s : State) : State := s.modCh c fun k => { k with transferSize := k.transferSize - 1 }

/-- One iteration of the loop of R120: the byte at the live source address, then the advance and the count (R123 to R125). -/
def dmaByte (c : Chan) (idx : Nat) (s : State) : State :=
  countByte c (advanceSource c (transfer c (s.ch c).sourceAddr idx s))

/-- The test after the byte: the count is 0 or `enable` is false (R125). -/
def dmaStops (c : Chan) (s : State) : Bool := (s.ch c).transferSize == 0 || !(s.ch c).enable

/-- The loop of R120, from byte index `idx`. `fuel` bounds the number of bytes; `dmaFuel` is enough for every state
(Laws/Dma.lean, `dmaLoop_fuel`), so the case 0 is never met from `runGeneralDma` (assumption 11). -/
def dmaLoop (fuel : Nat) (c : Chan) (idx : Nat) (s : State) : State :=
  match fuel with
  | 0 => s
  | n + 1 =>
    let s := dmaByte c idx s
    if dmaStops c s then s else dmaLoop n c (idx + 1) s

/-- A bound on the bytes of one invocation: without re-entrant transactions a byte lowers `transfer_size`, and each turn
of the host, of which `turns` lists finitely many, can set it anew (70_reset_and_hazards.md R279). -/
def dmaFuel (c : Chan) (s : State) : Nat := s.turns.length * 2 ^ 16 + (s.ch c).transferSize.toNat

/-- `RunGeneralDma(c)` (R120): nothing on a disabled channel (R121); a charge of 8 (R122); no byte on a zero count (R126);
`enable` cleared at the end (R127). -/
def runGeneralDma (c : Chan) (s : State) : State :=
  if (s.ch c).enable then
    let s := charge 8 s
    let s := if (s.ch c).transferSize == 0 then s else dmaLoop (dmaFuel c s) c 0 s
    s.modCh c fun k => { k with enable := false }
  else s

end Sys2Proof.Machine
end

