-- ==== Sys2Proof/Machine/Hdma.lean ====
section
/-! DEFINITION. HDMA on one channel: Setup, Reload, Advance and the per-line transfer (41_hdma.md R150 to R167). -/

namespace Sys2Proof.Machine

/-- One table byte: `Charge(8)`, a gated read at the table address, and `hdma_address` moves on by 1 mod 2^16 (R156). -/
def tableByte (c : Chan) (s : State) : Byte × State :=
  let r := abusRead (s.ch c).tableAddr (charge 8 s)
  (r.1, r.2.modCh c fun k => { k with hdmaAddress := k.hdmaAddress + 1 })

/-- The count byte v of a table entry: the new `line_counter`, and the two flags it decides (R156, R157). -/
def loadCount (c : Chan) (v : Byte) (s : State) : State :=
  s.modCh c fun k => { k with lineCounter := v, hdmaCompleted := v == 0, hdmaDoTransfer := !(v == 0) }

/-- The two pointer bytes of an indirect entry, low byte first (R158, 20_memory.md R64). -/
def loadPointer (c : Chan) (s : State) : State :=
  let lo := tableByte c s
  let hi := tableByte c lo.2
  hi.2.modCh c fun k => { k with indirectAddress := joinBytes hi.1 lo.1 }

/-- The pointer bytes are read when `indirect` is set, unless the channel is completed and no later channel is active
(R158, R159). -/
def readsPointer (c : Chan) (s : State) : Bool :=
  (s.ch c).indirect && !((s.ch c).hdmaCompleted && finishedAfter c s)

/-- Bits 6:0 of `line_counter` are 0: the current table entry is exhausted (R155). -/
def entryExhausted (k : Channel) : Bool := k.lineCounter &&& 0x7F == 0

/-- `Reload(c)` (R155). -/
def reload (c : Chan) (s : State) : State :=
  if entryExhausted (s.ch c) then
    let r := tableByte c s
    let s := loadCount c r.1 r.2
    if readsPointer c s then loadPointer c s else s
  else s

/-- `Setup(c)` (R153). -/
def setup (c : Chan) (s : State) : State :=
  let s := s.modCh c fun k => { k with hdmaDoTransfer := true }
  if setupSkips s.cfg.setupGuard (s.ch c) then s
  else reload c (s.modCh c fun k => { k with enable := false, hdmaAddress := k.sourceAddress, lineCounter := 0 })

/-- `Advance(c)` (R160): the decrement wraps mod 256, and `hdma_do_transfer` is bit 7 of the decremented value. -/
def advance (c : Chan) (s : State) : State :=
  if (s.ch c).active then
    reload c (s.modCh c fun k =>
      { k with lineCounter := k.lineCounter - 1, hdmaDoTransfer := (k.lineCounter - 1).getLsbD 7 })
  else s

/-- One byte of an HDMA line, by the data pointer that `indirect` and `hdma_direct_ptr` select at the byte's start; the
pointer advances by 1 mod 2^16 after the byte, whatever `fixed_transfer` holds (R161, R164, R165). -/
def hdmaByte (c : Chan) (idx : Nat) (s : State) : State :=
  if (s.ch c).indirect then
    (transfer c (s.ch c).indirectAddr idx s).modCh c fun k => { k with indirectAddress := k.indirectAddress + 1 }
  else
    match s.cfg.hdmaDirectPtr with
    | .sourceAddress =>
      (transfer c (s.ch c).sourceAddr idx s).modCh c fun k => { k with sourceAddress := k.sourceAddress + 1 }
    | .hdmaAddress =>
      (transfer c (s.ch c).tableAddr idx s).modCh c fun k => { k with hdmaAddress := k.hdmaAddress + 1 }

/-- `n` bytes of an HDMA line, from byte index `idx`. The line is not cancellable (R167). -/
def hdmaBytes (n : Nat) (c : Chan) (idx : Nat) (s : State) : State :=
  match n with
  | 0 => s
  | n + 1 => hdmaBytes n c (idx + 1) (hdmaByte c idx s)

/-- `HdmaTransfer(c)` (R161): nothing on an inactive channel; `enable` cleared on an active one (R162); the length of the
line latched at its start (R163). -/
def hdmaTransfer (c : Chan) (s : State) : State :=
  if (s.ch c).active then
    let s := s.modCh c fun k => { k with enable := false }
    if (s.ch c).hdmaDoTransfer then hdmaBytes (lineLength (s.ch c).transferMode) c 0 s else s
  else s

end Sys2Proof.Machine
end

