-- ==== Sys2Proof/Machine/Control.lean ====
section
/-! DEFINITION. The enable ports, the orchestration commands, the query and RESET (42_controller.md R214 to R223,
70_reset_and_hazards.md R260). -/

namespace Sys2Proof.Machine

/-- What every orchestration has in common (R221 to R223, 60_exceptions.md R246): `running` for its whole span, the fixed
overhead before any channel, `status` set after the last channel. -/
def orchestrate (overhead : Nat) (body : State → State) (s : State) : State :=
  { body (charge overhead { s with running := true }) with status := true, running := false }

/-- `DoDmaRun()` (R216). -/
def doDmaRun (s : State) : State := orchestrate s.cfg.kDma (forChannels runGeneralDma) s

/-- The body of HDMARUN: the transfer pass over all channels, then the advance pass over all channels (R217). -/
def hdmaPasses (s : State) : State := forChannels advance (forChannels hdmaTransfer s)

/-- The orchestration of HDMARUN (R217). -/
def doHdmaRun (s : State) : State := orchestrate s.cfg.kHrun hdmaPasses s

/-- The orchestration of HDMASETUP (R218). -/
def doHdmaSetup (s : State) : State := orchestrate s.cfg.kHsetup (forChannels setup) s

/-- A command: refused with ReentrantCommand while `running` (60_exceptions.md R243), else carried out and answered. -/
def command (effect : State → State) (s : State) : State :=
  if s.running then refuse .reentrantCommand s else reply .done (effect s)

/-- RESET's effect: the four control flags of every channel become false (70_reset_and_hazards.md R260). -/
def resetChannels (s : State) : State := forChannels (fun c s => s.modCh c Channel.disarm) s

/-- EN.DMA (R214): assign the 8 enable bits; on a rising edge, outside an orchestration, run general DMA. -/
def enableDma (m : Byte) (s : State) : State :=
  if !s.running && risingEdge (dmaEn s) m then doDmaRun (assignEnable m s) else assignEnable m s

/-- EN.DMA (R214). -/
def execEnDma (m : Byte) (s : State) : Host.Outcome State Fault Refusal := .next (reply .done (enableDma m s))

/-- EN.HDMA (R215). -/
def execEnHdma (m : Byte) (s : State) : Host.Outcome State Fault Refusal := .next (reply .done (assignHdmaEnable m s))

/-- DMARUN (R216). -/
def execDmarun (s : State) : Host.Outcome State Fault Refusal := .next (command doDmaRun s)

/-- HDMARUN (R217). -/
def execHdmarun (s : State) : Host.Outcome State Fault Refusal := .next (command doHdmaRun s)

/-- HDMASETUP (R218). -/
def execHdmasetup (s : State) : Host.Outcome State Fault Refusal := .next (command doHdmaSetup s)

/-- RESET (70_reset_and_hazards.md R260). -/
def execReset (s : State) : Host.Outcome State Fault Refusal := .next (command resetChannels s)

/-- HFIN (R219). -/
def execHfin (s : State) : Host.Outcome State Fault Refusal := .next (answerFinished s)

end Sys2Proof.Machine
end

