-- ==== Sys2Proof/Machine/Dispatch.lean ====
section
/-! DEFINITION. The meaning of each transaction, one arm per constructor of Instr. -/

namespace Sys2Proof.Machine

def exec (i : Instr) (s : State) : Host.Outcome State Fault Refusal :=
  match i with
  | .wrCtrl c v => Sys2Proof.Machine.execWrCtrl c v s
  | .wrTgt c v => Sys2Proof.Machine.execWrTgt c v s
  | .wrSrcl c v => Sys2Proof.Machine.execWrSrcl c v s
  | .wrSrch c v => Sys2Proof.Machine.execWrSrch c v s
  | .wrSrcb c v => Sys2Proof.Machine.execWrSrcb c v s
  | .wrSizel c v => Sys2Proof.Machine.execWrSizel c v s
  | .wrSizeh c v => Sys2Proof.Machine.execWrSizeh c v s
  | .wrIbank c v => Sys2Proof.Machine.execWrIbank c v s
  | .wrHadrl c v => Sys2Proof.Machine.execWrHadrl c v s
  | .wrHadrh c v => Sys2Proof.Machine.execWrHadrh c v s
  | .wrLine c v => Sys2Proof.Machine.execWrLine c v s
  | .wrScrb c v => Sys2Proof.Machine.execWrScrb c v s
  | .wrRsvc c v => Sys2Proof.Machine.execWrRsvc c v s
  | .wrRsvd c v => Sys2Proof.Machine.execWrRsvd c v s
  | .wrRsve c v => Sys2Proof.Machine.execWrRsve c v s
  | .wrScrf c v => Sys2Proof.Machine.execWrScrf c v s
  | .rdCtrl c => Sys2Proof.Machine.execRdCtrl c s
  | .rdTgt c => Sys2Proof.Machine.execRdTgt c s
  | .rdSrcl c => Sys2Proof.Machine.execRdSrcl c s
  | .rdSrch c => Sys2Proof.Machine.execRdSrch c s
  | .rdSrcb c => Sys2Proof.Machine.execRdSrcb c s
  | .rdSizel c => Sys2Proof.Machine.execRdSizel c s
  | .rdSizeh c => Sys2Proof.Machine.execRdSizeh c s
  | .rdIbank c => Sys2Proof.Machine.execRdIbank c s
  | .rdHadrl c => Sys2Proof.Machine.execRdHadrl c s
  | .rdHadrh c => Sys2Proof.Machine.execRdHadrh c s
  | .rdLine c => Sys2Proof.Machine.execRdLine c s
  | .rdScrb c => Sys2Proof.Machine.execRdScrb c s
  | .rdRsvc c => Sys2Proof.Machine.execRdRsvc c s
  | .rdRsvd c => Sys2Proof.Machine.execRdRsvd c s
  | .rdRsve c => Sys2Proof.Machine.execRdRsve c s
  | .rdScrf c => Sys2Proof.Machine.execRdScrf c s
  | .enDma m => Sys2Proof.Machine.execEnDma m s
  | .enHdma m => Sys2Proof.Machine.execEnHdma m s
  | .dmarun => Sys2Proof.Machine.execDmarun s
  | .hdmarun => Sys2Proof.Machine.execHdmarun s
  | .hdmasetup => Sys2Proof.Machine.execHdmasetup s
  | .reset => Sys2Proof.Machine.execReset s
  | .hfin => Sys2Proof.Machine.execHfin s

end Sys2Proof.Machine
end

