-- ==== Sys2Proof/Machine/Step.lean ====
section
/-! DEFINITION. One step of the machine: the block takes the host's next top-level transaction, decodes it and runs it to
completion (20_memory.md R74, 42_controller.md R223); with no transaction requested it is idle and holds its state
(60_exceptions.md R255). -/

namespace Sys2Proof.Machine

/-- The state in which a transaction runs: its request has been taken from the host port. -/
def State.takeRequest (s : State) (rest : List Txn) : State := { s with requests := rest }

/-- One step. A reserved header is refused (30_encoding.md R96), which is a next state (60_exceptions.md R242;
assumption 1). -/
def step (s : State) : Host.Outcome State Fault Refusal :=
  match s.requests with
  | [] => .next s
  | t :: rest =>
    match decode t with
    | .ok i => exec i (s.takeRequest rest)
    | .error _ => .next (refuse .reservedEncoding (s.takeRequest rest))

/-- The host requests the transaction of a table word next (assumption 8). -/
def State.withFetchWord (s : State) (nbits w : Nat) : State :=
  { s with requests := txnOfTableWord nbits w :: s.requests }

end Sys2Proof.Machine
end

