-- ==== Sys2Proof/Machine/Asm.lean ====
section
/-! DEFINITION. The assembler's side of the encoding (30_encoding.md R101, R102): the expansions of the
pseudo-instructions, the printed form of a transaction, and the reader of one assembler line (assumption 14). -/

namespace Sys2Proof.Machine

/-- The channel operand `c` of an assembler line: a decimal 0..7 (R101); a larger number, which WellFormed.lean refuses,
has no channel. -/
def asmChan (c : Nat) : Option Chan := if h : c < 8 then some ⟨c, h⟩ else none

/-- Bits `8*i+7 : 8*i` of an immediate (R102). -/
def immByte (imm i : Nat) : Byte := BitVec.ofNat 8 (imm / 2 ^ (8 * i))

/-- The expansion of a pseudo-instruction on a channel, in the order R102 gives. -/
def expandAt (p : Pseudo) (c : Chan) : List Instr :=
  match p with
  | .wr16Src _ imm => [.wrSrcl c (immByte imm 0), .wrSrch c (immByte imm 1)]
  | .wr24Src _ imm => [.wrSrcl c (immByte imm 0), .wrSrch c (immByte imm 1), .wrSrcb c (immByte imm 2)]
  | .wr16Size _ imm => [.wrSizel c (immByte imm 0), .wrSizeh c (immByte imm 1)]
  | .wr16Hadr _ imm => [.wrHadrl c (immByte imm 0), .wrHadrh c (immByte imm 1)]
  | .wrCtrlF _ d i f m => [.wrCtrl c (BitVec.ofNat 8 (d * 2 ^ 7 + i * 2 ^ 6 + f * 2 ^ 3 + m))]
  | .rd16Size _ => [.rdSizel c, .rdSizeh c]
  | .rd16Src _ => [.rdSrcl c, .rdSrch c]
  | .rd16Hadr _ => [.rdHadrl c, .rdHadrh c]

/-- The channel operand of a pseudo-instruction. -/
def pseudoChan : Pseudo → Nat
  | .wr16Src c _ => c
  | .wr24Src c _ => c
  | .wr16Size c _ => c
  | .wr16Hadr c _ => c
  | .wrCtrlF c _ _ _ _ => c
  | .rd16Size c => c
  | .rd16Src c => c
  | .rd16Hadr c => c

/-- The transactions a pseudo-instruction stands for (R102); none where its operands are out of range. -/
def expand (p : Pseudo) : Option (List Instr) :=
  if p.wf then (asmChan (pseudoChan p)).map (expandAt p) else none

/-- The value of RD16.SIZE, RD16.SRC and RD16.HADR from their two bytes, in the order they are read (R102). -/
def rd16Value (lo hi : Byte) : Half := joinBytes hi lo

/-- A hexadecimal digit. -/
def hexDigit (n : Nat) : String :=
  ((["0", "1", "2", "3", "4", "5", "6", "7", "8", "9", "A", "B", "C", "D", "E", "F"] : List String)[n % 16]?).getD "0"

/-- A byte as R101 writes it: `0x` and two hex digits. -/
def hexByte (v : Byte) : String := "0x" ++ hexDigit (v.toNat / 16) ++ hexDigit v.toNat

/-- A header as R101 writes it: `0x` and four hex digits. -/
def hexHeader (h : BitVec 16) : String :=
  "0x" ++ hexDigit (h.toNat / 4096) ++ hexDigit (h.toNat / 256) ++ hexDigit (h.toNat / 16) ++ hexDigit h.toNat

/-- The encoding of a line as R101 writes it: `hdr=0xHHHH din=0xDD`. -/
def asmEncoding (t : Txn) : String := "hdr=" ++ hexHeader t.hdr ++ " din=" ++ hexByte t.din

/-- The operands of a transaction as R101 writes them: the kind and channel fields of its header say which it has. -/
def asmOperands (t : Txn) : String :=
  match (hdrKind t.hdr).toNat with
  | 0x0 => " " ++ hexDigit (hdrCh t.hdr).val ++ ", #" ++ hexByte t.din
  | 0x1 => " " ++ hexDigit (hdrCh t.hdr).val
  | 0x2 => " #" ++ hexByte t.din
  | 0x3 => " #" ++ hexByte t.din
  | _ => ""

/-- The assembler line of a transaction (R101). -/
def asmLine (i : Instr) : String := i.mnemonic ++ asmOperands (encode i)

/-- The names R93's table gives the 16 registers. -/
def regNames : List (String × Reg) :=
  [("CTRL", .ctrl), ("TGT", .tgt), ("SRCL", .srcl), ("SRCH", .srch), ("SRCB", .srcb), ("SIZEL", .sizel),
   ("SIZEH", .sizeh), ("IBANK", .ibank), ("HADRL", .hadrl), ("HADRH", .hadrh), ("LINE", .line), ("SCRB", .scrb),
   ("RSVC", .rsvc), ("RSVD", .rsvd), ("RSVE", .rsve), ("SCRF", .scrf)]

/-- The mnemonics of R101 that stand alone on a line. -/
def bareNames : List (String × Instr) :=
  [("DMARUN", .dmarun), ("HDMARUN", .hdmarun), ("HDMASETUP", .hdmasetup), ("RESET", .reset), ("HFIN", .hfin)]

/-- End a word of the line: `cur` holds its characters, the last one first. -/
def endWord (cur : List Char) (rest : List (List Char)) : List (List Char) :=
  if cur.isEmpty then rest else cur.reverse :: rest

/-- The words of an assembler line: blanks part them, a comma is a word of its own, and `;` starts a comment (R101). -/
def asmWords (line cur : List Char) : List (List Char) :=
  match line with
  | [] => endWord cur []
  | x :: xs =>
    if x == ';' then endWord cur []
    else if x == ' ' || x == '\t' then endWord cur (asmWords xs [])
    else if x == ',' then endWord cur ([','] :: asmWords xs [])
    else asmWords xs (x :: cur)

/-- The value of a decimal digit. -/
def decValue (x : Char) : Option Nat := if '0' ≤ x ∧ x ≤ '9' then some (x.toNat - '0'.toNat) else none

/-- The value of a hexadecimal digit, in either case. -/
def hexValue (x : Char) : Option Nat :=
  if 'A' ≤ x ∧ x ≤ 'F' then some (x.toNat - 'A'.toNat + 10)
  else if 'a' ≤ x ∧ x ≤ 'f' then some (x.toNat - 'a'.toNat + 10)
  else decValue x

/-- The value of a row of decimal digits, after `acc`. -/
def decDigits (ds : List Char) (acc : Nat) : Option Nat :=
  match ds with
  | [] => some acc
  | x :: xs =>
    match decValue x with
    | some d => decDigits xs (acc * 10 + d)
    | none => none

/-- `<c>`, a decimal 0..7 (R101). -/
def readChan (word : List Char) : Option Chan :=
  match word with
  | [x] => (decValue x).bind asmChan
  | _ => none

/-- `#<imm8>`: `#0x` and two hex digits, or `#` and a decimal 0..255 (R101). -/
def readByte (word : List Char) : Option Byte :=
  match word with
  | ['#', '0', 'x', a, b] => (hexValue a).bind fun hi => (hexValue b).map fun lo => BitVec.ofNat 8 (hi * 16 + lo)
  | '#' :: d :: ds => (decDigits (d :: ds) 0).bind fun n => if n < 256 then some (BitVec.ofNat 8 n) else none
  | _ => none

/-- The register a mnemonic names after the prefix `WR.` or `RD.`. -/
def readReg (kind : String) (word : List Char) : Option Reg :=
  (regNames.find? fun p => (kind ++ p.1).toList == word).map Prod.snd

/-- The transaction of an assembler line (R101); none where the line is not of a form R101 gives. -/
def asmRead (line : String) : Option Instr :=
  match asmWords line.toList [] with
  | [m, c, [','], v] => (readReg "WR." m).bind fun r => (readChan c).bind fun c => (readByte v).map (wrInstr r c)
  | [m, a] =>
    if m == "EN.DMA".toList then (readByte a).map .enDma
    else if m == "EN.HDMA".toList then (readByte a).map .enHdma
    else (readReg "RD." m).bind fun r => (readChan a).map (rdInstr r)
  | [m] => (bareNames.find? fun p => p.1.toList == m).map Prod.snd
  | _ => none

end Sys2Proof.Machine
end

