-- ==== Sys2Proof/Safety.lean ====
section
/-! DEFINITION. What claims mean by a good configuration, an idle block, a clean run, and the parts of a trace. -/

namespace Sys2Proof.Machine

/-- An admissible configuration: `a_gate` meets the four cases that "every choice must meet" (20_memory.md R66). -/
def admissible (cfg : Config) : Bool :=
  !validA cfg 0x2140 && validA cfg 0x1234 && !validA cfg 0x4200 && !validA cfg 0x4305

/-- Between top-level transactions no orchestration is running (10_state.md R43, 42_controller.md R223). -/
def State.idle (s : State) : Prop := s.running = false

/-- A clean run: no transaction was refused (10_state.md R44, 70_reset_and_hazards.md R280). -/
def State.clean (s : State) : Prop := s.refused = false

/-- The invariant of the block between top-level transactions: idle, under an admissible configuration. -/
def State.Inv (s : State) : Prop := s.running = false ∧ admissible s.cfg = true

/-- The host issues nothing re-entrantly at the bus accesses to come (20_memory.md R75 allows it to). -/
def State.quiet (s : State) : Prop := ∀ t ∈ s.turns, t.reentrant = []

/-- The cycle-units an event carries (30_encoding.md R90). -/
def PortEvent.units : PortEvent → Nat
  | .charge n => n
  | .read _ _ => 0
  | .write _ _ => 0

/-- The cycle-units of a list of events. -/
def unitsOf (es : List PortEvent) : Nat := (es.map PortEvent.units).sum

/-- The bus address of an access; none for a charge. -/
def PortEvent.busAddr : PortEvent → Option Addr
  | .charge _ => none
  | .read a _ => some a
  | .write a _ => some a

/-- The bus accesses of a trace (70_reset_and_hazards.md R280): what is left without the charges. -/
def accessesOf (es : List PortEvent) : List PortEvent := es.filter fun e => e.busAddr.isSome

/-- An access the bus path may issue: the A-bus path only at addresses the gate accepts (20_memory.md R68, R69), the B-bus
path only in the page of R62. -/
def PortEvent.permitted (cfg : Config) (e : PortEvent) : Prop :=
  ∀ a, e.busAddr = some a → gated cfg a = false ∨ ∃ off, a = bBusAddr cfg off

/-- An address of the block's own register page in any bank whose bit 6 is 0 (20_memory.md R66's DMA-register range,
R81). -/
def inRegisterPage (a : Addr) : Bool := a &&& 0x40FF80 == 0x004300

/-- What a top-level raw transaction is answered when it ends, from the state it was issued in: ReservedEncoding for a
reserved header, whatever `running` holds (60_exceptions.md R243, R247); else by the kind's data out (30_encoding.md R92):
the byte read for RD, the query's bit for HFIN, ReentrantCommand for a command issued while `running` (R243), and for the
others `t_done` without data. -/
def answerTo (q : Txn) (s : State) : Reply :=
  if q.wf then
    match (hdrKind q.hdr).toNat with
    | 0x1 => .data ((s.ch (hdrCh q.hdr)).readReg s.cfg (regAt (hdrOff q.hdr)))
    | 0x4 => if s.running then .refused .reentrantCommand else .done
    | 0x5 => if s.running then .refused .reentrantCommand else .done
    | 0x6 => if s.running then .refused .reentrantCommand else .done
    | 0x7 => if s.running then .refused .reentrantCommand else .done
    | 0x8 => .data (if hdmaFinished s then 0x01 else 0x00)
    | _ => .done   -- kinds 0x0, 0x2 and 0x3
  else .refused .reservedEncoding

/-- What is left of a channel when the fields the engine writes are blanked: `hdma_enable`, the CTRL fields, the target, the
banks and the scratch byte, each of which only the host's transactions write (10_state.md R22 to R29, R31, R33, R36). -/
def Channel.hostOwned (k : Channel) : Channel :=
  { k with
    enable := false, sourceAddress := 0, transferSize := 0, hdmaAddress := 0, lineCounter := 0,
    indirectAddress := 0, hdmaCompleted := false, hdmaDoTransfer := false }

/-- What is left of a channel when the fields without effect on any transfer are blanked: `unused` (40_general_dma.md
R137), `reverse_transfer` (R136) and `scratch` (10_state.md R36). -/
def Channel.effective (k : Channel) : Channel :=
  { k with unused := false, reverseTransfer := false, scratch := 0 }

/-- Two states that differ at most in the fields without effect on any transfer, in `cycles`, which the block never reads
(60_exceptions.md R251), and in the answers given to the host. -/
structure State.SameEffect (s t : State) : Prop where
  channels : ∀ c, (s.ch c).effective = (t.ch c).effective
  status : s.status = t.status
  running : s.running = t.running
  refused : s.refused = t.refused
  cfg : s.cfg = t.cfg
  requests : s.requests = t.requests
  turns : s.turns = t.turns
  trace : s.trace = t.trace
  draws : s.draws = t.draws

/-- What a register write has to be (42_controller.md R181, 30_encoding.md R93): the headers of its row decode to it with
the channel of bits 6:4, and at top level and re-entrantly alike it changes channel c as `f` says, answers `t_done`, and
changes nothing else. -/
def WritesRegister (pattern : BitVec 16) (write : Chan → Byte → Instr) (f : Byte → Channel → Channel) : Prop :=
  (∀ h v, h &&& 0xFF8F = pattern → decode ⟨h, v⟩ = .ok (write (h.extractLsb' 4 3).toFin v)) ∧
  ∀ c v (s : State),
    exec (write c v) s =
      .next { s with channels := s.channels.set c (f v s.channels[c]), replies := s.replies ++ [.done] } ∧
    reenterInstr (write c v) s =
      { s with channels := s.channels.set c (f v s.channels[c]), replies := s.replies ++ [.done] }

/-- What a register read has to be (42_controller.md R181, 30_encoding.md R93): the headers of its row decode to it with
the channel of bits 6:4, whatever the data byte (R95), and at top level and re-entrantly alike it answers the byte `f` says
and changes nothing else. -/
def ReadsRegister (pattern : BitVec 16) (read : Chan → Instr) (f : Config → Channel → Byte) : Prop :=
  (∀ h v, h &&& 0xFF8F = pattern → decode ⟨h, v⟩ = .ok (read (h.extractLsb' 4 3).toFin)) ∧
  ∀ c (s : State),
    exec (read c) s = .next { s with replies := s.replies ++ [.data (f s.cfg s.channels[c])] } ∧
    reenterInstr (read c) s = { s with replies := s.replies ++ [.data (f s.cfg s.channels[c])] }

/-- 60_exceptions.md R243: a command issued while an orchestration is running changes nothing but the mark, and is answered
ReentrantCommand, at top level and re-entrantly alike. -/
def RefusedWhileRunning (i : Instr) : Prop :=
  ∀ s : State,
    (s.running = true →
      exec i s = .next { s with refused := true, replies := s.replies ++ [.refused .reentrantCommand] }) ∧
    reenterInstr i s = { s with refused := true, replies := s.replies ++ [.refused .reentrantCommand] }

end Sys2Proof.Machine
end

