-- ==== Sys2Proof/Certificates/Slice0/Obligations.lean ====
section
/-! DEFINITION. The statements for the provers. Each docstring names the rules of the spec it formalises. -/

open Sys2Proof Sys2Proof.Machine

/-! ### Encoding -/

/-- 30_encoding.md R91, R93, R97: decoding the encoding of a transaction gives it back, for all 39 and every operand. -/
def Obligations.DecodeOfEncodeIsTheTransaction : Prop := ∀ i : Instr, decode (encode i) = .ok i

/-- 30_encoding.md R91, R92: each header has one meaning. Encoding what a raw transaction decodes to gives its header back,
and its data byte where its kind carries one (0x0, 0x2, 0x3). -/
def Obligations.EncodeOfDecodeIsTheRawTransaction : Prop :=
  ∀ (t : Txn) (i : Instr), decode t = .ok i →
    (encode i).hdr = t.hdr ∧ (hdrKind t.hdr = 0 ∨ hdrKind t.hdr = 2 ∨ hdrKind t.hdr = 3 → (encode i).din = t.din)

/-- 30_encoding.md R96 and 60_exceptions.md R242: the decoder is total. It accepts exactly the headers that are no reserved
encoding; another header, met by a step or issued re-entrantly, leaves every piece of state as it was, sets the mark, and
is answered ReservedEncoding, `running` or not (R243, R247). -/
def Obligations.ReservedHeadersAreRefusedAndNothingElse : Prop :=
  (∀ t : Txn, (∃ i, decode t = .ok i) ↔ t.wf = true) ∧
  ∀ (t : Txn) (rest : List Txn) (s : State), t.wf = false →
    (s.requests = t :: rest → step s = .next { s with
      requests := rest, refused := true, replies := s.replies ++ [.refused .reservedEncoding] }) ∧
    reenterTxn t s = { s with refused := true, replies := s.replies ++ [.refused .reservedEncoding] }

/-- 30_encoding.md R95: a non-zero reserved field, or non-zero bits 6:0 on a kind other than 0x0 and 0x1, is a reserved
encoding; the data byte of RD, DMARUN, HDMARUN, HDMASETUP, RESET and HFIN is ignored. -/
def Obligations.ReservedBitsAndIgnoredDataBytes : Prop :=
  (∀ t : Txn, (t.hdr.extractLsb' 7 5 ≠ 0 ∨ t.hdr.extractLsb' 12 4 ≠ 0 ∧ t.hdr.extractLsb' 12 4 ≠ 1 ∧
      t.hdr.extractLsb' 0 7 ≠ 0) → ∀ i, decode t ≠ .ok i) ∧
  ∀ (h : BitVec 16) (v w : Byte), h.extractLsb' 12 4 ≠ 0 → h.extractLsb' 12 4 ≠ 2 → h.extractLsb' 12 4 ≠ 3 →
    decode ⟨h, v⟩ = decode ⟨h, w⟩

/-- 30_encoding.md R97: 39 rows, no two overlap, and the decoder reads from a header the transaction of the row that covers
it, and nothing from a header no row covers. -/
def Obligations.OpcodeRowsAreDisjointAndAreWhatDecodes : Prop :=
  opcodeTable.length = 39 ∧
  opcodeTable.Pairwise (fun a b => ∀ h, ¬(a.covers h = true ∧ b.covers h = true)) ∧
  (∀ (t : Txn) (i : Instr), decode t = .ok i → ∃ row ∈ opcodeTable, row.covers t.hdr = true ∧ row.mnemonic = i.mnemonic) ∧
  ∀ (t : Txn) (row : OpcodeRow), row ∈ opcodeTable → row.covers t.hdr = true →
    ∃ i, decode t = .ok i ∧ i.mnemonic = row.mnemonic

/-- 30_encoding.md R91 to R93, on words written out from the header's fields. -/
def Obligations.WordsWrittenOutDecode : Prop :=
  decode ⟨0b0000_00000_111_0101, 0xAB⟩ = .ok (.wrSizel 7 0xAB) ∧
  decode ⟨0b0001_00000_111_1111, 0x00⟩ = .ok (.rdScrf 7) ∧
  decode ⟨0b0010_00000_000_0000, 0x81⟩ = .ok (.enDma 0x81) ∧
  decode ⟨0b0011_00000_000_0000, 0xFE⟩ = .ok (.enHdma 0xFE) ∧
  decode ⟨0b0101_00000_000_0000, 0x00⟩ = .ok .hdmarun ∧
  decode ⟨0b1000_00000_000_0000, 0x00⟩ = .ok .hfin ∧
  decode ⟨0b0000_00001_000_0000, 0x00⟩ = .error .reservedBits ∧
  decode ⟨0b0010_00000_001_0000, 0x00⟩ = .error .operandBits ∧
  decode ⟨0b1001_00000_000_0000, 0x00⟩ = .error .reservedKind

/-! ### The step -/

/-- A step runs the host's next transaction: where it decodes to i, the step is `exec i`, with the request taken from the
host port; so too for a word the host places. With no transaction requested the block holds its state (60_exceptions.md
R255). The list of requests that a step takes from, and that `withFetchWord` puts a table word in front of, is the model's
choice (assumption 8), as is how a table word is read (assumption 9): no rule speaks of either. -/
def Obligations.StepRunsTheRequestedTransaction : Prop :=
  (∀ (s : State) (t : Txn) (rest : List Txn) (i : Instr), s.requests = t :: rest → decode t = .ok i →
    step s = exec i { s with requests := rest }) ∧
  (∀ (s : State) (nbits w : Nat) (i : Instr), decodeTableWord nbits w = some i →
    step (s.withFetchWord nbits w) = exec i s) ∧
  ∀ s : State, s.requests = [] → step s = .next s

/-- 60_exceptions.md R240, 42_controller.md R223, 30_encoding.md R90, R92: no step faults or stops; each takes exactly one
request, and adds answers at the end of those given, the last of them that of the transaction it took, which `answerTo`
gives from the state before the step. The answers before it are those of the transactions issued re-entrantly. That
requests and answers are lists is the model's choice (assumptions 8 and 12). Rests on every access being answered (assumption 3) and on finitely
many re-entrant transactions (assumption 4). -/
def Obligations.EveryStepEndsAndTakesOneRequest : Prop :=
  ∀ s : State, ∃ t, step s = .next t ∧ t.requests = s.requests.tail ∧
    (s.requests = [] → t = s) ∧
    ∀ q rest, s.requests = q :: rest → ∃ rs, t.replies = s.replies ++ rs ++ [answerTo q s]

/-! ### Register writes -/

/-- 42_controller.md R182: WR.CTRL assigns the six fields of the control byte. -/
def Obligations.WriteCtrlAssignsSixFields : Prop :=
  WritesRegister 0x0000 .wrCtrl fun v k => { k with
    transferMode := v.extractLsb' 0 3, fixedTransfer := v.getLsbD 3, reverseTransfer := v.getLsbD 4,
    unused := v.getLsbD 5, indirect := v.getLsbD 6, direction := v.getLsbD 7 }

/-- 42_controller.md R183, R186, R189, R192: the whole-byte registers take the byte. -/
def Obligations.WritesOfByteRegisters : Prop :=
  WritesRegister 0x0001 .wrTgt (fun v k => { k with targetAddress := v }) ∧
  WritesRegister 0x0004 .wrSrcb (fun v k => { k with sourceBank := v }) ∧
  WritesRegister 0x0007 .wrIbank (fun v k => { k with indirectBank := v }) ∧
  WritesRegister 0x000A .wrLine (fun v k => { k with lineCounter := v })

/-- 42_controller.md R184, R187, R190: a write of the low half keeps the high half. -/
def Obligations.WritesOfLowHalves : Prop :=
  WritesRegister 0x0002 .wrSrcl (fun v k => { k with sourceAddress := k.sourceAddress.extractLsb' 8 8 ++ v }) ∧
  WritesRegister 0x0005 .wrSizel (fun v k => { k with transferSize := k.transferSize.extractLsb' 8 8 ++ v }) ∧
  WritesRegister 0x0008 .wrHadrl (fun v k => { k with hdmaAddress := k.hdmaAddress.extractLsb' 8 8 ++ v })

/-- 42_controller.md R185, R188, R191: a write of the high half keeps the low half. -/
def Obligations.WritesOfHighHalves : Prop :=
  WritesRegister 0x0003 .wrSrch (fun v k => { k with sourceAddress := v ++ k.sourceAddress.extractLsb' 0 8 }) ∧
  WritesRegister 0x0006 .wrSizeh (fun v k => { k with transferSize := v ++ k.transferSize.extractLsb' 0 8 }) ∧
  WritesRegister 0x0009 .wrHadrh (fun v k => { k with hdmaAddress := v ++ k.hdmaAddress.extractLsb' 0 8 })

/-- 42_controller.md R193 to R197: offsets 0xB and 0xF write one scratch byte; offsets 0xC, 0xD and 0xE change nothing. -/
def Obligations.WritesOfScratchAndReservedOffsets : Prop :=
  WritesRegister 0x000B .wrScrb (fun v k => { k with scratch := v }) ∧
  WritesRegister 0x000C .wrRsvc (fun _ k => k) ∧
  WritesRegister 0x000D .wrRsvd (fun _ k => k) ∧
  WritesRegister 0x000E .wrRsve (fun _ k => k) ∧
  WritesRegister 0x000F .wrScrf (fun v k => { k with scratch := v })

/-! ### Register reads -/

/-- 42_controller.md R198: RD.CTRL composes the six fields; under Collapse bit 7 reads 0 whenever bit 6 is 1. -/
def Obligations.ReadCtrlComposesSixFields : Prop :=
  ReadsRegister 0x1000 .rdCtrl fun cfg k =>
    let low : BitVec 8 := k.unused.toNat * 32 + k.reverseTransfer.toNat * 16 + k.fixedTransfer.toNat * 8 + k.transferMode.toNat
    match cfg.ctrlReadback with
    | .bitwise => k.direction.toNat * 128 + k.indirect.toNat * 64 + low
    | .collapse => (if k.indirect then 0 else k.direction.toNat * 128) + k.indirect.toNat * 64 + low

/-- 42_controller.md R199, R202, R205, R208: the whole-byte registers read as their field. -/
def Obligations.ReadsOfByteRegisters : Prop :=
  ReadsRegister 0x1001 .rdTgt (fun _ k => k.targetAddress) ∧
  ReadsRegister 0x1004 .rdSrcb (fun _ k => k.sourceBank) ∧
  ReadsRegister 0x1007 .rdIbank (fun _ k => k.indirectBank) ∧
  ReadsRegister 0x100A .rdLine (fun _ k => k.lineCounter)

/-- 42_controller.md R200, R201, R203, R204, R206, R207: each half of a 16-bit register reads as its eight bits. -/
def Obligations.ReadsOfHalves : Prop :=
  ReadsRegister 0x1002 .rdSrcl (fun _ k => k.sourceAddress.extractLsb' 0 8) ∧
  ReadsRegister 0x1003 .rdSrch (fun _ k => k.sourceAddress.extractLsb' 8 8) ∧
  ReadsRegister 0x1005 .rdSizel (fun _ k => k.transferSize.extractLsb' 0 8) ∧
  ReadsRegister 0x1006 .rdSizeh (fun _ k => k.transferSize.extractLsb' 8 8) ∧
  ReadsRegister 0x1008 .rdHadrl (fun _ k => k.hdmaAddress.extractLsb' 0 8) ∧
  ReadsRegister 0x1009 .rdHadrh (fun _ k => k.hdmaAddress.extractLsb' 8 8)

/-- 42_controller.md R209 to R213: offsets 0xB and 0xF read the scratch byte; offsets 0xC, 0xD and 0xE read 0x00. -/
def Obligations.ReadsOfScratchAndReservedOffsets : Prop :=
  ReadsRegister 0x100B .rdScrb (fun _ k => k.scratch) ∧
  ReadsRegister 0x100C .rdRsvc (fun _ _ => 0x00) ∧
  ReadsRegister 0x100D .rdRsvd (fun _ _ => 0x00) ∧
  ReadsRegister 0x100E .rdRsve (fun _ _ => 0x00) ∧
  ReadsRegister 0x100F .rdScrf (fun _ k => k.scratch)

/-- 10_state.md R48, 42_controller.md R198: a register of the page reads back the byte written to it, but for offsets 0xC to
0xE, which read 0x00, and CTRL under Collapse, which loses bit 7 when bit 6 is set. -/
def Obligations.RegistersReadBackWhatWasWritten : Prop :=
  ∀ (r : Reg) (c : Chan) (v : Byte) (s t : State), exec (wrInstr r c v) s = .next t →
    exec (rdInstr r c) t = .next { t with replies := t.replies ++ [.data (
      match r with
      | .rsvc | .rsvd | .rsve => 0x00
      | .ctrl => match s.cfg.ctrlReadback with
        | .bitwise => v
        | .collapse => if v.getLsbD 6 then v &&& 0x7F else v
      | _ => v)] }

/-- 10_state.md R45, 20_memory.md R63: a register write changes what no other register of the page reads, in its own channel
(where only offsets 0xB and 0xF alias) or in another. -/
def Obligations.RegisterWritesLeaveTheOtherRegisters : Prop :=
  ∀ (r q : Reg) (c d : Chan) (v : Byte) (s t : State), exec (wrInstr r c v) s = .next t →
    (d ≠ c ∨ q ≠ r ∧ ¬(r = .scrb ∧ q = .scrf) ∧ ¬(r = .scrf ∧ q = .scrb)) →
    (t.ch d).readReg t.cfg q = (s.ch d).readReg s.cfg q

/-- 30_encoding.md R102: the expansions of the 16-bit and 24-bit writes load the whole register, from any state, and change
no other field. -/
def Obligations.PseudoWritesLoadTheWholeRegister : Prop :=
  ∀ (c : Chan) (imm : BitVec 24) (s : State),
    (∃ i j t u, expand (.wr16Src c.val (imm.toNat % 2 ^ 16)) = some [i, j] ∧ exec i s = .next t ∧ exec j t = .next u ∧
      u = { s with channels := s.channels.set c { s.channels[c] with sourceAddress := imm.extractLsb' 0 16 },
                   replies := s.replies ++ [.done, .done] }) ∧
    (∃ i j k t u w, expand (.wr24Src c.val imm.toNat) = some [i, j, k] ∧
      exec i s = .next t ∧ exec j t = .next u ∧ exec k u = .next w ∧
      w = { s with channels := s.channels.set c { s.channels[c] with
                     sourceAddress := imm.extractLsb' 0 16, sourceBank := imm.extractLsb' 16 8 },
                   replies := s.replies ++ [.done, .done, .done] }) ∧
    (∃ i j t u, expand (.wr16Size c.val (imm.toNat % 2 ^ 16)) = some [i, j] ∧ exec i s = .next t ∧ exec j t = .next u ∧
      u = { s with channels := s.channels.set c { s.channels[c] with transferSize := imm.extractLsb' 0 16 },
                   replies := s.replies ++ [.done, .done] }) ∧
    ∃ i j t u, expand (.wr16Hadr c.val (imm.toNat % 2 ^ 16)) = some [i, j] ∧ exec i s = .next t ∧ exec j t = .next u ∧
      u = { s with channels := s.channels.set c { s.channels[c] with hdmaAddress := imm.extractLsb' 0 16 },
                   replies := s.replies ++ [.done, .done] }

/-- 30_encoding.md R99: under the host's mapping, a CPU access in the 128 bytes of the page becomes the write or the read of
the register at `(A - dma_page_base) mod 16` of channel `(A - dma_page_base) div 16`; outside the page it becomes none. -/
def Obligations.HostMappingReachesThePage : Prop :=
  ∀ (cfg : Config) (a : Addr) (v : Byte),
    (cfg.dmaPageBase.toNat ≤ a.toNat ∧ a.toNat ≤ cfg.dmaPageBase.toNat + 0x7F →
      ∃ (t u : Txn) (c : Chan) (r : Reg), hostWrite cfg a v = some t ∧ hostRead cfg a = some u ∧
        decode t = .ok (wrInstr r c v) ∧ decode u = .ok (rdInstr r c) ∧
        c.val * 0x10 + r.offset.toNat = a.toNat - cfg.dmaPageBase.toNat) ∧
    (¬(cfg.dmaPageBase.toNat ≤ a.toNat ∧ a.toNat ≤ cfg.dmaPageBase.toNat + 0x7F) →
      hostWrite cfg a v = none ∧ hostRead cfg a = none)

/-! ### Enable ports, commands, query -/

/-- 42_controller.md R215: EN.HDMA assigns the 8 hdma_enable bits and changes nothing else, at top level and re-entrantly
alike. -/
def Obligations.EnHdmaAssignsTheEightBits : Prop :=
  ∀ (m : Byte) (s : State), decode ⟨0x3000, m⟩ = .ok (.enHdma m) ∧ ∃ t,
    exec (.enHdma m) s = .next t ∧ reenterInstr (.enHdma m) s = t ∧
    (∀ c, t.ch c = { s.ch c with hdmaEnable := m.getLsbD c.val }) ∧
    t = { s with channels := t.channels, replies := s.replies ++ [.done] }

/-- 42_controller.md R214: EN.DMA assigns the 8 enable bits; when some bit rises and no orchestration is running it then
does what a DMARUN does; else nothing but the bits changes. Re-entrantly it only assigns. -/
def Obligations.EnDmaAssignsAndRunsOnARisingEdge : Prop :=
  ∀ (m : Byte) (s : State), decode ⟨0x2000, m⟩ = .ok (.enDma m) ∧ ∃ u : State,
    (∀ c, u.ch c = { s.ch c with enable := m.getLsbD c.val }) ∧ u = { s with channels := u.channels } ∧
    (s.running = false → (∃ c : Chan, m.getLsbD c.val = true ∧ (s.ch c).enable = false) →
      ∃ t, exec (.enDma m) s = .next t ∧ exec .dmarun u = .next t) ∧
    (s.running = true ∨ (∀ c : Chan, m.getLsbD c.val = true → (s.ch c).enable = true) →
      exec (.enDma m) s = .next { u with replies := s.replies ++ [.done] }) ∧
    reenterInstr (.enDma m) s = { u with replies := s.replies ++ [.done] }

/-- 42_controller.md R216, R220 to R222: outside an orchestration DMARUN charges K_dma, runs general DMA on channels 0 to 7
in index order with `running` set, sets `status`, and answers; inside one it is refused. -/
def Obligations.DmaRunRunsTheChannelsInOrder : Prop :=
  (∀ v, decode ⟨0x4000, v⟩ = .ok .dmarun) ∧ RefusedWhileRunning .dmarun ∧
  ∀ s : State, s.running = false → ∃ u : State,
    u = runGeneralDma 7 (runGeneralDma 6 (runGeneralDma 5 (runGeneralDma 4 (runGeneralDma 3 (runGeneralDma 2
      (runGeneralDma 1 (runGeneralDma 0 { s with
        running := true, cycles := s.cycles + s.cfg.kDma, trace := s.trace ++ [.charge s.cfg.kDma] }))))))) ∧
    exec .dmarun s = .next { u with status := true, running := false, replies := u.replies ++ [.done] }

/-- 42_controller.md R217, R220 to R222: outside an orchestration HDMARUN charges K_hrun, runs the transfer pass over the
channels in index order, then the advance pass, never interleaved, sets `status`, and answers; inside one it is refused. -/
def Obligations.HdmaRunTransfersThenAdvances : Prop :=
  (∀ v, decode ⟨0x5000, v⟩ = .ok .hdmarun) ∧ RefusedWhileRunning .hdmarun ∧
  ∀ s : State, s.running = false → ∃ u w : State,
    u = hdmaTransfer 7 (hdmaTransfer 6 (hdmaTransfer 5 (hdmaTransfer 4 (hdmaTransfer 3 (hdmaTransfer 2
      (hdmaTransfer 1 (hdmaTransfer 0 { s with
        running := true, cycles := s.cycles + s.cfg.kHrun, trace := s.trace ++ [.charge s.cfg.kHrun] }))))))) ∧
    w = advance 7 (advance 6 (advance 5 (advance 4 (advance 3 (advance 2 (advance 1 (advance 0 u))))))) ∧
    exec .hdmarun s = .next { w with status := true, running := false, replies := w.replies ++ [.done] }

/-- 42_controller.md R218, R220 to R222: outside an orchestration HDMASETUP charges K_hsetup, sets up the channels in index
order, sets `status`, and answers; inside one it is refused. -/
def Obligations.HdmaSetupSetsUpTheChannelsInOrder : Prop :=
  (∀ v, decode ⟨0x6000, v⟩ = .ok .hdmasetup) ∧ RefusedWhileRunning .hdmasetup ∧
  ∀ s : State, s.running = false → ∃ u : State,
    u = setup 7 (setup 6 (setup 5 (setup 4 (setup 3 (setup 2 (setup 1 (setup 0 { s with
        running := true, cycles := s.cycles + s.cfg.kHsetup, trace := s.trace ++ [.charge s.cfg.kHsetup] }))))))) ∧
    exec .hdmasetup s = .next { u with status := true, running := false, replies := u.replies ++ [.done] }

/-- 70_reset_and_hazards.md R260, R262: outside an orchestration RESET clears the four control flags of every channel and
changes nothing else; inside one it is refused. -/
def Obligations.ResetClearsTheFourFlagsOfEveryChannel : Prop :=
  (∀ v, decode ⟨0x7000, v⟩ = .ok .reset) ∧ RefusedWhileRunning .reset ∧
  ∀ s : State, s.running = false → ∃ t : State, exec .reset s = .next t ∧
    (∀ c, t.ch c = { s.ch c with
      enable := false, hdmaEnable := false, hdmaCompleted := false, hdmaDoTransfer := false }) ∧
    t = { s with channels := t.channels, replies := s.replies ++ [.done] }

/-- 70_reset_and_hazards.md R260's example: after RESET, HFIN answers 1, and a DMARUN issues no bus access, leaves every
channel as it is and charges K_dma only. -/
def Obligations.AfterResetNothingRuns : Prop :=
  ∀ s t : State, s.running = false → exec .reset s = .next t →
    exec .hfin t = .next { t with replies := t.replies ++ [.data 0x01] } ∧
    ∃ u, exec .dmarun t = .next u ∧ u.channels = t.channels ∧ u.trace = t.trace ++ [.charge t.cfg.kDma] ∧
      u.cycles = t.cycles + t.cfg.kDma

/-- 42_controller.md R219, 41_hdma.md R150, R152: HFIN answers 0x01 when no channel is HDMA-active and 0x00 when some
channel is, and changes nothing; re-entrantly alike. -/
def Obligations.HfinAnswersWhetherNoChannelIsActive : Prop :=
  (∀ v, decode ⟨0x8000, v⟩ = .ok .hfin) ∧
  ∀ s : State,
    ((∀ c, ¬((s.ch c).hdmaEnable = true ∧ (s.ch c).hdmaCompleted = false)) →
      exec .hfin s = .next { s with replies := s.replies ++ [.data 0x01] } ∧
      reenterInstr .hfin s = { s with replies := s.replies ++ [.data 0x01] }) ∧
    ((∃ c, (s.ch c).hdmaEnable = true ∧ (s.ch c).hdmaCompleted = false) →
      exec .hfin s = .next { s with replies := s.replies ++ [.data 0x00] } ∧
      reenterInstr .hfin s = { s with replies := s.replies ++ [.data 0x00] })

/-- 41_hdma.md R151, 10_state.md R40: the chain test is true exactly when no channel of a higher index is HDMA-active; so
for channel 7 it is true, and from another channel it follows the chain's link to the next. -/
def Obligations.ChainTestFollowsTheLinks : Prop :=
  ∀ (c : Chan) (s : State),
    (finishedAfter c s = true ↔ ∀ j, c < j → ¬((s.ch j).hdmaEnable = true ∧ (s.ch j).hdmaCompleted = false)) ∧
    (nextChannel c = none → c = 7 ∧ finishedAfter c s = true) ∧
    (∀ j, nextChannel c = some j → j.val = c.val + 1 ∧
      finishedAfter c s = (!((s.ch j).hdmaEnable && !(s.ch j).hdmaCompleted) && finishedAfter j s))

/-- 20_memory.md R75: a transaction issued re-entrantly acts as its own rule says of a transaction issued while `running`. -/
def Obligations.ReentrantTransactionsActAsTheirRules : Prop :=
  ∀ (i : Instr) (s : State), s.running = true → exec i s = .next (reenterInstr i s)

/-- 20_memory.md R75, 60_exceptions.md R249: re-entrant transactions issue no bus access and charge nothing, whatever they
are, and leave the orchestration they interrupt running. R249 is the spec's own inference. -/
def Obligations.ReentrantTransactionsIssueNoAccess : Prop :=
  ∀ (ts : List Txn) (s : State),
    (reenterAll ts s).trace = s.trace ∧ (reenterAll ts s).cycles = s.cycles ∧ (reenterAll ts s).turns = s.turns ∧
    (reenterAll ts s).running = s.running ∧ (reenterAll ts s).status = s.status ∧
    (s.refused = true → (reenterAll ts s).refused = true)

/-- 42_controller.md R221, R223: whatever the host does meanwhile, each orchestration ends, with `status` true and `running`
false; so does the one an EN.DMA with a rising edge starts. Rests on every access being answered (assumption 3) and on
finitely many re-entrant transactions (assumption 4). -/
def Obligations.OrchestrationsEndWithStatusSet : Prop :=
  ∀ (i : Instr) (s : State), s.running = false →
    (i = .dmarun ∨ i = .hdmarun ∨ i = .hdmasetup ∨ ∃ m, i = .enDma m ∧ risingEdge (dmaEn s) m = true) →
    ∃ t, exec i s = .next t ∧ t.status = true ∧ t.running = false

/-! ### The byte transfer -/

/-- 40_general_dma.md R129, R138: the mode decoder's pattern over every byte index, the sum wrapping mod 256. -/
def Obligations.ModeDecoderFollowsThePatternTable : Prop :=
  ∀ (mask : Mode4Mask) (t : Byte) (i : Nat),
    (∀ m : BitVec 3, m = 0 ∨ m = 2 ∨ m = 6 → bOffset mask m t i = t) ∧
    (∀ m : BitVec 3, m = 1 ∨ m = 5 → bOffset mask m t (2 * i) = t ∧ bOffset mask m t (2 * i + 1) = t + 1) ∧
    (∀ m : BitVec 3, m = 3 ∨ m = 7 →
      bOffset mask m t (4 * i) = t ∧ bOffset mask m t (4 * i + 1) = t ∧
      bOffset mask m t (4 * i + 2) = t + 1 ∧ bOffset mask m t (4 * i + 3) = t + 1) ∧
    (bOffset .full 4 t i).toNat = (t.toNat + i) % 256 ∧
    (bOffset .low2 4 t i).toNat = (t.toNat + i % 4) % 256

/-- 40_general_dma.md R128, R131 to R134, 20_memory.md R68 to R70: the events of one transfer byte, from every state: the
charge of 8 first, then the read step and the write step of the direction, each dropped as the gate or the WRAM conflict
says; a dropped read yields 0x00. Without re-entrant transactions the byte writes no channel field. -/
def Obligations.TransferIssuesItsAccessesInOrder : Prop :=
  ∀ (c : Chan) (a : Addr) (idx : Nat) (s : State),
    let off : Byte := bOffset s.cfg.mode4Mask (s.ch c).transferMode (s.ch c).targetAddress idx
    let b : Addr := s.cfg.bbusBase ||| off.setWidth 24
    let conflict : Prop := off = 0x80 ∧ inWram s.cfg a = true
    let t : State := transfer c a idx s
    let emits (es : List PortEvent) : Prop := t.trace = s.trace ++ .charge 8 :: es
    ((s.ch c).direction = false → gated s.cfg a = false → ¬conflict → emits [.read a (nextByte s), .write b (nextByte s)]) ∧
    ((s.ch c).direction = false → gated s.cfg a = false → conflict → emits [.read a (nextByte s)]) ∧
    ((s.ch c).direction = false → gated s.cfg a = true → ¬conflict → emits [.write b 0x00]) ∧
    ((s.ch c).direction = false → gated s.cfg a = true → conflict → emits []) ∧
    ((s.ch c).direction = true → gated s.cfg a = false → ¬conflict → emits [.read b (nextByte s), .write a (nextByte s)]) ∧
    ((s.ch c).direction = true → gated s.cfg a = false → conflict → emits [.write a 0x00]) ∧
    ((s.ch c).direction = true → gated s.cfg a = true → ¬conflict → emits [.read b (nextByte s)]) ∧
    ((s.ch c).direction = true → gated s.cfg a = true → conflict → emits []) ∧
    t.cycles = s.cycles + 8 ∧
    (s.quiet → t.channels = s.channels)

/-- 20_memory.md R66: the default gate rejects the four pages of banks 00-3F and 80-BF and nothing else, and so meets the
four cases every choice must meet. Rests on the default masks, which the spec marks as general knowledge (assumption 5). -/
def Obligations.DefaultGateRejectsFourPages : Prop :=
  admissible defaultConfig = true ∧
  ∀ a : Addr, gated defaultConfig a = true ↔
    a.toNat / 0x400000 % 2 = 0 ∧
    (0x2100 ≤ a.toNat % 0x10000 ∧ a.toNat % 0x10000 ≤ 0x21FF ∨ 0x4000 ≤ a.toNat % 0x10000 ∧ a.toNat % 0x10000 ≤ 0x421F ∨
     0x4300 ≤ a.toNat % 0x10000 ∧ a.toNat % 0x10000 ≤ 0x437F)

/-- 20_memory.md R67: the default WRAM ranges are banks 7E-7F, and 0000-1FFF of banks 00-3F and 80-BF. Rests on the default
masks, which the spec marks as general knowledge (assumption 5). -/
def Obligations.DefaultWramRanges : Prop :=
  ∀ a : Addr, inWram defaultConfig a = true ↔
    (a.toNat / 0x10000 = 0x7E ∨ a.toNat / 0x10000 = 0x7F) ∨
    a.toNat / 0x400000 % 2 = 0 ∧ a.toNat % 0x10000 < 0x2000

/-! ### General DMA -/

/-- 40_general_dma.md R121, R126: a disabled channel is left as it is, with nothing charged; on a zero count nothing moves,
8 is charged and `enable` is cleared. -/
def Obligations.DisabledChannelAndZeroCount : Prop :=
  ∀ (c : Chan) (s : State),
    ((s.ch c).enable = false → runGeneralDma c s = s) ∧
    ((s.ch c).enable = true → (s.ch c).transferSize = 0 →
      runGeneralDma c s = { s with
        channels := s.channels.set c { s.channels[c] with enable := false },
        cycles := s.cycles + 8, trace := s.trace ++ [.charge 8] })

/-- 40_general_dma.md R120, R123 to R125, R127: the loop, with no bound on its length. It starts at byte index 0 after the
charge; each iteration moves one byte at the live source address, advances and counts; it ends exactly when the new count is
0 or `enable` is false; then `enable` is cleared. That `fixed_transfer` is read live after the byte, so that a re-entrant
CTRL write during the byte reaches that byte's own advance, is the model's reading (assumption 10, DEDUCED from the
pseudocode of R120 and 92_eei_decisions.md D26; R266 and R181 speak of the channel's next byte). -/
def Obligations.GeneralDmaLoopsUntilCountOrDisable : Prop :=
  ∀ c : Chan, ∃ loop : Nat → State → State,
    (∀ s, (s.ch c).enable = true → (s.ch c).transferSize ≠ 0 →
      runGeneralDma c s =
        (loop 0 { s with cycles := s.cycles + 8, trace := s.trace ++ [.charge 8] }).modCh c
          fun k => { k with enable := false }) ∧
    ∀ idx s, (s.ch c).transferSize ≠ 0 →
      let u := transfer c ((s.ch c).sourceBank ++ (s.ch c).sourceAddress) idx s
      let t := u.setCh c { u.ch c with
        sourceAddress := if (u.ch c).fixedTransfer then (u.ch c).sourceAddress else (u.ch c).sourceAddress + 1
        transferSize := (u.ch c).transferSize - 1 }
      loop idx s = if (t.ch c).transferSize = 0 ∨ (t.ch c).enable = false then t else loop (idx + 1) t

/-- 70_reset_and_hazards.md R278, 40_general_dma.md R122 to R127: without re-entrant transactions, general DMA of n > 0
bytes on an enabled channel costs 8 + 8n, brings the count to 0, moves the source by n unless it is fixed, clears `enable`,
and changes no other field of any channel. -/
def Obligations.CompleteGeneralDmaCostsEightPerByte : Prop :=
  ∀ (c : Chan) (s : State), s.quiet → (s.ch c).enable = true → (s.ch c).transferSize ≠ 0 →
    (runGeneralDma c s).cycles = s.cycles + (8 + 8 * (s.ch c).transferSize.toNat) ∧
    (runGeneralDma c s).ch c = { s.ch c with
      enable := false, transferSize := 0,
      sourceAddress := if (s.ch c).fixedTransfer then (s.ch c).sourceAddress
        else (s.ch c).sourceAddress + (s.ch c).transferSize } ∧
    ∀ d, d ≠ c → (runGeneralDma c s).ch d = s.ch d

/-- 42_controller.md R216, 70_reset_and_hazards.md R278: without re-entrant transactions, the whole effect of DMARUN on the
channels and on `cycles`, and that it refuses nothing: every enabled channel's transfer is complete, every other channel is
as it was. -/
def Obligations.QuietDmaRunCompletesEveryEnabledChannel : Prop :=
  ∀ s : State, s.running = false → s.quiet → ∃ t, exec .dmarun s = .next t ∧
    (∀ c, t.ch c = if (s.ch c).enable then
        { s.ch c with
          enable := false, transferSize := 0,
          sourceAddress := if (s.ch c).fixedTransfer then (s.ch c).sourceAddress
            else (s.ch c).sourceAddress + (s.ch c).transferSize }
      else s.ch c) ∧
    t.cycles = s.cycles + s.cfg.kDma +
      (channelOrder.map fun c => if (s.ch c).enable then 8 + 8 * (s.ch c).transferSize.toNat else 0).sum ∧
    t.status = true ∧ t.running = false ∧ t.refused = s.refused ∧ t.cfg = s.cfg ∧ t.requests = s.requests ∧
    t.replies = s.replies ++ [.done]

/-! ### HDMA -/

/-- 41_hdma.md R163: the bytes of an HDMA line for modes 0 to 7. -/
def Obligations.LineLengths : Prop :=
  [lineLength 0, lineLength 1, lineLength 2, lineLength 3, lineLength 4, lineLength 5, lineLength 6, lineLength 7] =
    [1, 2, 2, 4, 4, 4, 2, 4]

/-- 41_hdma.md R156, 20_memory.md R68: a table byte is a charge of 8 and then a gated read at
`(source_bank << 16) | hdma_address`; `hdma_address` moves on by 1 mod 2^16, and, without re-entrant transactions, nothing
else of any channel changes. -/
def Obligations.TableReadsAreChargedAndGated : Prop :=
  ∀ (c : Chan) (s : State),
    let a := (s.ch c).sourceBank ++ (s.ch c).hdmaAddress
    (gated s.cfg a = true → (tableByte c s).1 = 0x00 ∧ (tableByte c s).2.trace = s.trace ++ [.charge 8] ∧
      (tableByte c s).2.turns = s.turns) ∧
    (gated s.cfg a = false → (tableByte c s).1 = nextByte s ∧
      (tableByte c s).2.trace = s.trace ++ [.charge 8, .read a (nextByte s)] ∧
      (tableByte c s).2.turns = s.turns.tail) ∧
    (tableByte c s).2.cycles = s.cycles + 8 ∧
    (s.quiet → ∀ d, (tableByte c s).2.ch d =
      if d = c then { s.ch c with hdmaAddress := (s.ch c).hdmaAddress + 1 } else s.ch d)

/-- 41_hdma.md R155, R157 to R159: Reload in full. An entry not exhausted is left as it is; else the count byte is read, and
the two pointer bytes when `indirect` is set and the channel is not both completed and last in the chain, the first the low
byte. -/
def Obligations.ReloadReadsCountAndPointer : Prop :=
  ∀ (c : Chan) (s : State),
    ((s.ch c).lineCounter.extractLsb' 0 7 ≠ 0 → reload c s = s) ∧
    ((s.ch c).lineCounter.extractLsb' 0 7 = 0 →
      let v := tableByte c s
      let t := v.2.setCh c { v.2.ch c with
        lineCounter := v.1, hdmaCompleted := decide (v.1 = 0), hdmaDoTransfer := decide (v.1 ≠ 0) }
      let lo := tableByte c t
      let hi := tableByte c lo.2
      ((t.ch c).indirect = true ∧ ¬(v.1 = 0 ∧ finishedAfter c t = true) →
        reload c s = hi.2.setCh c { hi.2.ch c with indirectAddress := hi.1 ++ lo.1 }) ∧
      (¬((t.ch c).indirect = true ∧ ¬(v.1 = 0 ∧ finishedAfter c t = true)) → reload c s = t))

/-- 41_hdma.md R155 to R159, the source's vectors S4 and S9 in general: with answers b0, b1, b2 to come, nothing re-entrant
and the three table addresses not gated, what Reload leaves in the channel, on the bus and in `cycles`. -/
def Obligations.ReloadOfAnExhaustedEntry : Prop :=
  ∀ (c : Chan) (s : State) (b0 b1 b2 : Byte) (rest : List BusTurn),
    s.turns = ⟨[], b0⟩ :: ⟨[], b1⟩ :: ⟨[], b2⟩ :: rest →
    (∀ i : Half, i = 0 ∨ i = 1 ∨ i = 2 → gated s.cfg ((s.ch c).sourceBank ++ ((s.ch c).hdmaAddress + i)) = false) →
    (s.ch c).lineCounter &&& 0x7F = 0 →
    let bank := (s.ch c).sourceBank
    let h := (s.ch c).hdmaAddress
    let skip := (s.ch c).indirect = false ∨
      b0 = 0 ∧ ∀ j, c < j → ¬((s.ch j).hdmaEnable = true ∧ (s.ch j).hdmaCompleted = false)
    (skip → reload c s = { s with
      channels := s.channels.set c { s.ch c with
        hdmaAddress := h + 1, lineCounter := b0, hdmaCompleted := b0 == 0, hdmaDoTransfer := !(b0 == 0) }
      cycles := s.cycles + 8
      trace := s.trace ++ [.charge 8, .read (bank ++ h) b0]
      turns := ⟨[], b1⟩ :: ⟨[], b2⟩ :: rest }) ∧
    (¬skip → reload c s = { s with
      channels := s.channels.set c { s.ch c with
        hdmaAddress := h + 3, lineCounter := b0, hdmaCompleted := b0 == 0, hdmaDoTransfer := !(b0 == 0),
        indirectAddress := b2 ++ b1 }
      cycles := s.cycles + 24
      trace := s.trace ++ [.charge 8, .read (bank ++ h) b0, .charge 8, .read (bank ++ (h + 1)) b1,
        .charge 8, .read (bank ++ (h + 2)) b2]
      turns := rest })

/-- 41_hdma.md R153, R154: Setup marks the channel for transfer; a channel the guard skips changes in nothing else; another
has `enable` cleared, the table pointer copied from the source pointer, the line counter cleared, and is reloaded. -/
def Obligations.SetupFollowsTheGuard : Prop :=
  ∀ (c : Chan) (s : State),
    (((s.cfg.setupGuard = .skipIfEnabled ∧ (s.ch c).hdmaEnable = true) ∨
      (s.cfg.setupGuard = .skipIfDisabled ∧ (s.ch c).hdmaEnable = false)) →
      setup c s = s.setCh c { s.ch c with hdmaDoTransfer := true }) ∧
    (((s.cfg.setupGuard = .skipIfEnabled ∧ (s.ch c).hdmaEnable = false) ∨
      (s.cfg.setupGuard = .skipIfDisabled ∧ (s.ch c).hdmaEnable = true)) →
      setup c s = reload c (s.setCh c { s.ch c with
        hdmaDoTransfer := true, enable := false, hdmaAddress := (s.ch c).sourceAddress, lineCounter := 0 }))

/-- 41_hdma.md R160: Advance leaves an inactive channel as it is; on an active one it decrements the line counter mod 256,
takes `hdma_do_transfer` from bit 7 of the decremented value, and calls Reload. -/
def Obligations.AdvanceCountsDownOneLine : Prop :=
  ∀ (c : Chan) (s : State),
    (¬((s.ch c).hdmaEnable = true ∧ (s.ch c).hdmaCompleted = false) → advance c s = s) ∧
    ((s.ch c).hdmaEnable = true → (s.ch c).hdmaCompleted = false → ∃ n : Byte,
      n.toNat = ((s.ch c).lineCounter.toNat + 255) % 256 ∧
      advance c s = reload c (s.setCh c { s.ch c with lineCounter := n, hdmaDoTransfer := decide (128 ≤ n.toNat) }))

/-- 41_hdma.md R161, R162, R164, R165, R167: the transfer pass leaves an inactive channel as it is, `enable` included; on
an active one it clears `enable`, and, where the channel transfers on this line, moves the bytes 0 to Length - 1 of the mode
the line starts with, none of them skipped. Each byte goes by the data pointer that `indirect`, as it then stands, and
`hdma_direct_ptr` select, and that pointer advances by 1 mod 2^16 after it, whatever `fixed_transfer` holds. -/
def Obligations.HdmaTransferMovesOneLine : Prop :=
  ∀ c : Chan, ∃ byte : Nat → State → State,
    (∀ idx s, byte idx s =
      if (s.ch c).indirect = true then
        let u := transfer c ((s.ch c).indirectBank ++ (s.ch c).indirectAddress) idx s
        u.setCh c { u.ch c with indirectAddress := (u.ch c).indirectAddress + 1 }
      else if s.cfg.hdmaDirectPtr = .sourceAddress then
        let u := transfer c ((s.ch c).sourceBank ++ (s.ch c).sourceAddress) idx s
        u.setCh c { u.ch c with sourceAddress := (u.ch c).sourceAddress + 1 }
      else
        let u := transfer c ((s.ch c).sourceBank ++ (s.ch c).hdmaAddress) idx s
        u.setCh c { u.ch c with hdmaAddress := (u.ch c).hdmaAddress + 1 }) ∧
    ∀ s : State,
      (¬((s.ch c).hdmaEnable = true ∧ (s.ch c).hdmaCompleted = false) → hdmaTransfer c s = s) ∧
      ((s.ch c).hdmaEnable = true → (s.ch c).hdmaCompleted = false → (s.ch c).hdmaDoTransfer = false →
        hdmaTransfer c s = s.setCh c { s.ch c with enable := false }) ∧
      ((s.ch c).hdmaEnable = true → (s.ch c).hdmaCompleted = false → (s.ch c).hdmaDoTransfer = true →
        hdmaTransfer c s = (List.range (lineLength (s.ch c).transferMode)).foldl (fun u idx => byte idx u)
          (s.setCh c { s.ch c with enable := false }))

/-- 41_hdma.md R161, R163 to R165: without re-entrant transactions a line that transfers costs 8 per byte of its mode's
length, moves the one data pointer that `indirect` and `hdma_direct_ptr` select by that length, whatever `fixed_transfer`
holds, clears `enable`, and changes no other field of any channel. -/
def Obligations.HdmaLineMovesItsLength : Prop :=
  ∀ (c : Chan) (s : State), s.quiet → (s.ch c).hdmaEnable = true → (s.ch c).hdmaCompleted = false →
    (s.ch c).hdmaDoTransfer = true →
    let n := lineLength (s.ch c).transferMode
    (hdmaTransfer c s).cycles = s.cycles + 8 * n ∧
    (hdmaTransfer c s).ch c =
      (if (s.ch c).indirect then
        { s.ch c with enable := false, indirectAddress := (s.ch c).indirectAddress + BitVec.ofNat 16 n }
      else match s.cfg.hdmaDirectPtr with
        | .sourceAddress => { s.ch c with enable := false, sourceAddress := (s.ch c).sourceAddress + BitVec.ofNat 16 n }
        | .hdmaAddress => { s.ch c with enable := false, hdmaAddress := (s.ch c).hdmaAddress + BitVec.ofNat 16 n }) ∧
    ∀ d, d ≠ c → (hdmaTransfer c s).ch d = s.ch d

/-- 42_controller.md R217, 41_hdma.md R160 to R165: without re-entrant transactions and without an entry that runs out on
this line, the whole effect of HDMARUN on the channels and on `cycles`. -/
def Obligations.QuietHdmaRunWithinEntries : Prop :=
  ∀ s : State, s.running = false → s.quiet →
    (∀ c, (s.ch c).active = true → ((s.ch c).lineCounter - 1) &&& 0x7F ≠ 0) →
    ∃ t, exec .hdmarun s = .next t ∧
      (∀ c, (s.ch c).active = false → t.ch c = s.ch c) ∧
      (∀ c, (s.ch c).active = true →
        let n := BitVec.ofNat 16 (if (s.ch c).hdmaDoTransfer then lineLength (s.ch c).transferMode else 0)
        let direct := (s.ch c).indirect = false
        t.ch c = { s.ch c with
          enable := false
          lineCounter := (s.ch c).lineCounter - 1
          hdmaDoTransfer := ((s.ch c).lineCounter - 1).getLsbD 7
          indirectAddress := (s.ch c).indirectAddress + if direct then 0 else n
          sourceAddress := (s.ch c).sourceAddress + if direct ∧ s.cfg.hdmaDirectPtr = .sourceAddress then n else 0
          hdmaAddress := (s.ch c).hdmaAddress + if direct ∧ s.cfg.hdmaDirectPtr = .hdmaAddress then n else 0 }) ∧
      t.cycles = s.cycles + s.cfg.kHrun + (channelOrder.map fun c =>
        if (s.ch c).active ∧ (s.ch c).hdmaDoTransfer then 8 * lineLength (s.ch c).transferMode else 0).sum ∧
      t.status = true ∧ t.running = false ∧ t.refused = s.refused ∧ t.cfg = s.cfg ∧ t.requests = s.requests ∧
      t.replies = s.replies ++ [.done]

/-- 42_controller.md R218, 41_hdma.md R153, R155: without re-entrant transactions, HDMASETUP writes nothing to the bus, and
changes in a channel the guard skips only
`hdma_do_transfer`, which becomes true, and in every other channel only `hdma_do_transfer` and the fields Setup and Reload
write, `enable` becoming false. -/
def Obligations.QuietHdmaSetupFrame : Prop :=
  ∀ s : State, s.running = false → s.quiet → ∃ t, exec .hdmasetup s = .next t ∧
    (∀ c, setupSkips s.cfg.setupGuard (s.ch c) = true → t.ch c = { s.ch c with hdmaDoTransfer := true }) ∧
    (∀ c, setupSkips s.cfg.setupGuard (s.ch c) = false →
      t.ch c = { s.ch c with
        enable := false, hdmaAddress := (t.ch c).hdmaAddress, lineCounter := (t.ch c).lineCounter,
        hdmaCompleted := (t.ch c).lineCounter == 0, hdmaDoTransfer := !((t.ch c).lineCounter == 0),
        indirectAddress := (t.ch c).indirectAddress } ∧
      ((t.ch c).hdmaAddress = (s.ch c).sourceAddress + 1 ∧ (t.ch c).indirectAddress = (s.ch c).indirectAddress ∨
       (t.ch c).hdmaAddress = (s.ch c).sourceAddress + 3 ∧ (s.ch c).indirect = true)) ∧
    (∃ es, t.trace = s.trace ++ es ∧ ∀ a v, PortEvent.write a v ∉ es) ∧
    t.status = true ∧ t.running = false ∧ t.refused = s.refused ∧ t.cfg = s.cfg ∧ t.requests = s.requests ∧
    t.replies = s.replies ++ [.done]

/-- 70_reset_and_hazards.md R278, R279: whatever the host does meanwhile, an HDMARUN moves at most 4 bytes and reads at most
3 table bytes for each channel, and an HDMASETUP reads at most 3, so their cost is bounded. R279 is the spec's own
inference. -/
def Obligations.HdmaCostIsBounded : Prop :=
  ∀ s t : State, s.running = false →
    (exec .hdmarun s = .next t → s.cycles + s.cfg.kHrun ≤ t.cycles ∧ t.cycles ≤ s.cycles + s.cfg.kHrun + 8 * (8 * 4 + 8 * 3)) ∧
    (exec .hdmasetup s = .next t → s.cycles + s.cfg.kHsetup ≤ t.cycles ∧ t.cycles ≤ s.cycles + s.cfg.kHsetup + 8 * (8 * 3))

/-! ### The whole machine -/

/-- 70_reset_and_hazards.md R261: at power-on, for every draw of the unspecified fields and every value of `cycles`,
`status` and the parameters: no flag that lets a channel act is set, nothing is running or refused, and every other field of
every channel is as drawn. -/
def Obligations.PowerOnArmsNothing : Prop :=
  ∀ (draw : Vector Channel 8) (n : Nat) (b : Bool) (cfg : Config),
    let s := State.powerOn draw n b cfg
    (∀ c, s.ch c = { draw[c] with
      enable := false, hdmaEnable := false, hdmaCompleted := false, hdmaDoTransfer := false }) ∧
    s.running = false ∧ s.refused = false ∧ s.cycles = n ∧ s.status = b ∧ s.cfg = cfg

/-- The invariant holds at `State.reset`, and at every power-on under an admissible configuration; `State.reset` is a
power-on state. Which one is the model's choice (assumption 7), and that the default gate is admissible rests on the default
masks (assumption 5). -/
def Obligations.ResetMeetsTheInvariant : Prop :=
  State.reset.Inv ∧ (∃ draw n b, State.reset = State.powerOn draw n b defaultConfig) ∧
  ∀ draw n b cfg, admissible cfg = true → (State.powerOn draw n b cfg).Inv

/-- 10_state.md R43, 42_controller.md R223, 20_memory.md R66: every step of an idle block under an admissible configuration
ends in an idle block under an admissible configuration. -/
def Obligations.StepKeepsTheInvariant : Prop := ∀ s t : State, s.Inv → step s = .next t → t.Inv

/-- 60_exceptions.md R251, 00_scope.md R15, 10_state.md R41: over every step, what `cycles` gains is exactly the sum of the
charges the block emits; `cycles` never falls and the parameters never change. -/
def Obligations.StepAccountsForEveryCycleUnit : Prop :=
  ∀ s t : State, step s = .next t →
    t.cfg = s.cfg ∧ ∃ es : List PortEvent, t.trace = s.trace ++ es ∧
      t.cycles = s.cycles + (es.map fun e => match e with
        | .charge n => n
        | .read _ _ => 0
        | .write _ _ => 0).sum

/-- 20_memory.md R81: under the default gate and B-bus base, no bus access of any step falls in the block's own register
page, in any bank where the page can lie. Rests on the default masks, which the spec marks as general knowledge
(assumption 5), and R81 is the spec's own inference. -/
def Obligations.StepNeverReachesTheRegisterPage : Prop :=
  ∀ s t : State, s.cfg.aGate = defaultGate → s.cfg.bbusBase = 0x002100 → step s = .next t →
    ∃ es, t.trace = s.trace ++ es ∧ ∀ e ∈ es, ∀ a, e.busAddr = some a → inRegisterPage a = false

/-- 70_reset_and_hazards.md R263, 10_state.md R42, R44: no step clears or decrements `cycles`, and none clears `status` or
the refusal mark, RESET included. -/
def Obligations.StatusAndMarkAreNeverCleared : Prop :=
  ∀ s t : State, step s = .next t →
    s.cycles ≤ t.cycles ∧ (s.status = true → t.status = true) ∧ (s.refused = true → t.refused = true)

/-- 10_state.md R22 to R29, R31, R33, R36: without re-entrant transactions, no transaction but the register writes, EN.HDMA
and RESET changes `hdma_enable`, a CTRL field, the target, a bank or the scratch byte of any channel. -/
def Obligations.TheEngineNeverWritesTheHostsFields : Prop :=
  ∀ (i : Instr) (s t : State), s.quiet → (∀ r c v, i ≠ wrInstr r c v) → (∀ m, i ≠ .enHdma m) → i ≠ .reset →
    exec i s = .next t → ∀ c, (t.ch c).hostOwned = (s.ch c).hostOwned

/-- 40_general_dma.md R136, R137, 10_state.md R36, 60_exceptions.md R251: the `unused` and `reverse_transfer` bits, the
scratch byte and the value of `cycles` influence nothing but the answers the host reads back, which `SameEffect` leaves
out: RD.CTRL, RD.SCRB and RD.SCRF do answer with them. Two states that differ in these
alone differ in these alone after any transaction, whatever the host does at the bus accesses. -/
def Obligations.FieldsWithoutEffectHaveNoEffect : Prop :=
  ∀ (i : Instr) (s t s' t' : State), s.SameEffect t → exec i s = .next s' → exec i t = .next t' → s'.SameEffect t'
end

