-- ==== Sys2Proof/Laws/State.lean ====
section
/-! SUPPORT. One lemma per field per update of the state, each true by definition, so that no later proof unfolds a record
update. -/

namespace Sys2Proof.Machine

@[simp] theorem ch_setCh_self (s : State) (c : Chan) (k : Channel) : (s.setCh c k).ch c = k := by
  simp [State.ch, State.setCh]

theorem ch_setCh_ne (s : State) (c d : Chan) (k : Channel) (h : d ≠ c) : (s.setCh c k).ch d = s.ch d := by
  have h' : c.val ≠ d.val := fun e => h (Fin.ext e.symm)
  simp [State.ch, State.setCh, h']

@[simp] theorem ch_modCh_self (s : State) (c : Chan) (f : Channel → Channel) : (s.modCh c f).ch c = f (s.ch c) := by
  simp [State.modCh]

theorem ch_modCh_ne (s : State) (c d : Chan) (f : Channel → Channel) (h : d ≠ c) : (s.modCh c f).ch d = s.ch d := by
  simp [State.modCh, ch_setCh_ne, h]

/-- Reading any channel after changing channel c. -/
theorem ch_modCh (s : State) (c d : Chan) (f : Channel → Channel) :
    (s.modCh c f).ch d = if d = c then f (s.ch c) else s.ch d := by
  by_cases h : d = c
  · subst h; simp
  · simp [h, ch_modCh_ne]

@[simp] theorem channels_setCh (s : State) (c : Chan) (k : Channel) : (s.setCh c k).channels = s.channels.set c k := rfl
@[simp] theorem cycles_setCh (s : State) (c : Chan) (k : Channel) : (s.setCh c k).cycles = s.cycles := rfl
@[simp] theorem status_setCh (s : State) (c : Chan) (k : Channel) : (s.setCh c k).status = s.status := rfl
@[simp] theorem running_setCh (s : State) (c : Chan) (k : Channel) : (s.setCh c k).running = s.running := rfl
@[simp] theorem refused_setCh (s : State) (c : Chan) (k : Channel) : (s.setCh c k).refused = s.refused := rfl
@[simp] theorem cfg_setCh (s : State) (c : Chan) (k : Channel) : (s.setCh c k).cfg = s.cfg := rfl
@[simp] theorem requests_setCh (s : State) (c : Chan) (k : Channel) : (s.setCh c k).requests = s.requests := rfl
@[simp] theorem replies_setCh (s : State) (c : Chan) (k : Channel) : (s.setCh c k).replies = s.replies := rfl
@[simp] theorem turns_setCh (s : State) (c : Chan) (k : Channel) : (s.setCh c k).turns = s.turns := rfl
@[simp] theorem trace_setCh (s : State) (c : Chan) (k : Channel) : (s.setCh c k).trace = s.trace := rfl
@[simp] theorem draws_setCh (s : State) (c : Chan) (k : Channel) : (s.setCh c k).draws = s.draws := rfl

@[simp] theorem channels_modCh (s : State) (c : Chan) (f : Channel → Channel) : (s.modCh c f).channels = s.channels.set c (f (s.ch c)) := rfl
@[simp] theorem cycles_modCh (s : State) (c : Chan) (f : Channel → Channel) : (s.modCh c f).cycles = s.cycles := rfl
@[simp] theorem status_modCh (s : State) (c : Chan) (f : Channel → Channel) : (s.modCh c f).status = s.status := rfl
@[simp] theorem running_modCh (s : State) (c : Chan) (f : Channel → Channel) : (s.modCh c f).running = s.running := rfl
@[simp] theorem refused_modCh (s : State) (c : Chan) (f : Channel → Channel) : (s.modCh c f).refused = s.refused := rfl
@[simp] theorem cfg_modCh (s : State) (c : Chan) (f : Channel → Channel) : (s.modCh c f).cfg = s.cfg := rfl
@[simp] theorem requests_modCh (s : State) (c : Chan) (f : Channel → Channel) : (s.modCh c f).requests = s.requests := rfl
@[simp] theorem replies_modCh (s : State) (c : Chan) (f : Channel → Channel) : (s.modCh c f).replies = s.replies := rfl
@[simp] theorem turns_modCh (s : State) (c : Chan) (f : Channel → Channel) : (s.modCh c f).turns = s.turns := rfl
@[simp] theorem trace_modCh (s : State) (c : Chan) (f : Channel → Channel) : (s.modCh c f).trace = s.trace := rfl
@[simp] theorem draws_modCh (s : State) (c : Chan) (f : Channel → Channel) : (s.modCh c f).draws = s.draws := rfl

@[simp] theorem channels_charge (n : Nat) (s : State) : (charge n s).channels = s.channels := rfl
@[simp] theorem cycles_charge (n : Nat) (s : State) : (charge n s).cycles = s.cycles + n := rfl
@[simp] theorem status_charge (n : Nat) (s : State) : (charge n s).status = s.status := rfl
@[simp] theorem running_charge (n : Nat) (s : State) : (charge n s).running = s.running := rfl
@[simp] theorem refused_charge (n : Nat) (s : State) : (charge n s).refused = s.refused := rfl
@[simp] theorem cfg_charge (n : Nat) (s : State) : (charge n s).cfg = s.cfg := rfl
@[simp] theorem requests_charge (n : Nat) (s : State) : (charge n s).requests = s.requests := rfl
@[simp] theorem replies_charge (n : Nat) (s : State) : (charge n s).replies = s.replies := rfl
@[simp] theorem turns_charge (n : Nat) (s : State) : (charge n s).turns = s.turns := rfl
@[simp] theorem trace_charge (n : Nat) (s : State) : (charge n s).trace = s.trace ++ [.charge n] := rfl
@[simp] theorem draws_charge (n : Nat) (s : State) : (charge n s).draws = s.draws := rfl
@[simp] theorem ch_charge (n : Nat) (s : State) (d : Chan) : (charge n s).ch d = s.ch d := rfl

@[simp] theorem channels_emit (e : PortEvent) (s : State) : (emit e s).channels = s.channels := rfl
@[simp] theorem cycles_emit (e : PortEvent) (s : State) : (emit e s).cycles = s.cycles := rfl
@[simp] theorem status_emit (e : PortEvent) (s : State) : (emit e s).status = s.status := rfl
@[simp] theorem running_emit (e : PortEvent) (s : State) : (emit e s).running = s.running := rfl
@[simp] theorem refused_emit (e : PortEvent) (s : State) : (emit e s).refused = s.refused := rfl
@[simp] theorem cfg_emit (e : PortEvent) (s : State) : (emit e s).cfg = s.cfg := rfl
@[simp] theorem requests_emit (e : PortEvent) (s : State) : (emit e s).requests = s.requests := rfl
@[simp] theorem replies_emit (e : PortEvent) (s : State) : (emit e s).replies = s.replies := rfl
@[simp] theorem turns_emit (e : PortEvent) (s : State) : (emit e s).turns = s.turns := rfl
@[simp] theorem trace_emit (e : PortEvent) (s : State) : (emit e s).trace = s.trace ++ [e] := rfl
@[simp] theorem draws_emit (e : PortEvent) (s : State) : (emit e s).draws = s.draws := rfl
@[simp] theorem ch_emit (e : PortEvent) (s : State) (d : Chan) : (emit e s).ch d = s.ch d := rfl

@[simp] theorem channels_reply (r : Reply) (s : State) : (reply r s).channels = s.channels := rfl
@[simp] theorem cycles_reply (r : Reply) (s : State) : (reply r s).cycles = s.cycles := rfl
@[simp] theorem status_reply (r : Reply) (s : State) : (reply r s).status = s.status := rfl
@[simp] theorem running_reply (r : Reply) (s : State) : (reply r s).running = s.running := rfl
@[simp] theorem refused_reply (r : Reply) (s : State) : (reply r s).refused = s.refused := rfl
@[simp] theorem cfg_reply (r : Reply) (s : State) : (reply r s).cfg = s.cfg := rfl
@[simp] theorem requests_reply (r : Reply) (s : State) : (reply r s).requests = s.requests := rfl
@[simp] theorem replies_reply (r : Reply) (s : State) : (reply r s).replies = s.replies ++ [r] := rfl
@[simp] theorem turns_reply (r : Reply) (s : State) : (reply r s).turns = s.turns := rfl
@[simp] theorem trace_reply (r : Reply) (s : State) : (reply r s).trace = s.trace := rfl
@[simp] theorem draws_reply (r : Reply) (s : State) : (reply r s).draws = s.draws := rfl
@[simp] theorem ch_reply (r : Reply) (s : State) (d : Chan) : (reply r s).ch d = s.ch d := rfl

@[simp] theorem channels_refuse (w : RefuseReason) (s : State) : (refuse w s).channels = s.channels := rfl
@[simp] theorem cycles_refuse (w : RefuseReason) (s : State) : (refuse w s).cycles = s.cycles := rfl
@[simp] theorem status_refuse (w : RefuseReason) (s : State) : (refuse w s).status = s.status := rfl
@[simp] theorem running_refuse (w : RefuseReason) (s : State) : (refuse w s).running = s.running := rfl
@[simp] theorem refused_refuse (w : RefuseReason) (s : State) : (refuse w s).refused = true := rfl
@[simp] theorem cfg_refuse (w : RefuseReason) (s : State) : (refuse w s).cfg = s.cfg := rfl
@[simp] theorem requests_refuse (w : RefuseReason) (s : State) : (refuse w s).requests = s.requests := rfl
@[simp] theorem replies_refuse (w : RefuseReason) (s : State) : (refuse w s).replies = s.replies ++ [.refused w] := rfl
@[simp] theorem turns_refuse (w : RefuseReason) (s : State) : (refuse w s).turns = s.turns := rfl
@[simp] theorem trace_refuse (w : RefuseReason) (s : State) : (refuse w s).trace = s.trace := rfl
@[simp] theorem draws_refuse (w : RefuseReason) (s : State) : (refuse w s).draws = s.draws := rfl
@[simp] theorem ch_refuse (w : RefuseReason) (s : State) (d : Chan) : (refuse w s).ch d = s.ch d := rfl

@[simp] theorem channels_takeRequest (s : State) (rest : List Txn) : (s.takeRequest rest).channels = s.channels := rfl
@[simp] theorem cycles_takeRequest (s : State) (rest : List Txn) : (s.takeRequest rest).cycles = s.cycles := rfl
@[simp] theorem status_takeRequest (s : State) (rest : List Txn) : (s.takeRequest rest).status = s.status := rfl
@[simp] theorem running_takeRequest (s : State) (rest : List Txn) : (s.takeRequest rest).running = s.running := rfl
@[simp] theorem refused_takeRequest (s : State) (rest : List Txn) : (s.takeRequest rest).refused = s.refused := rfl
@[simp] theorem cfg_takeRequest (s : State) (rest : List Txn) : (s.takeRequest rest).cfg = s.cfg := rfl
@[simp] theorem requests_takeRequest (s : State) (rest : List Txn) : (s.takeRequest rest).requests = rest := rfl
@[simp] theorem replies_takeRequest (s : State) (rest : List Txn) : (s.takeRequest rest).replies = s.replies := rfl
@[simp] theorem turns_takeRequest (s : State) (rest : List Txn) : (s.takeRequest rest).turns = s.turns := rfl
@[simp] theorem trace_takeRequest (s : State) (rest : List Txn) : (s.takeRequest rest).trace = s.trace := rfl
@[simp] theorem draws_takeRequest (s : State) (rest : List Txn) : (s.takeRequest rest).draws = s.draws := rfl
@[simp] theorem ch_takeRequest (s : State) (rest : List Txn) (d : Chan) : (s.takeRequest rest).ch d = s.ch d := rfl

/-- Where the register files are the same, every channel is. -/
theorem ch_of_channels {s t : State} (h : t.channels = s.channels) (d : Chan) : t.ch d = s.ch d := by
  unfold State.ch
  rw [h]

/-- The fields of channel c after a change that keeps all of them is no change of the state. -/
theorem setCh_ch (s : State) (c : Chan) : s.setCh c (s.ch c) = s := by
  simp [State.setCh, State.ch]

/-- Two states with the same channels and the same other fields are the same state. -/
theorem State.ext_ch {s t : State} (hch : ∀ c, s.ch c = t.ch c) (h1 : s.cycles = t.cycles) (h2 : s.status = t.status)
    (h3 : s.running = t.running) (h4 : s.refused = t.refused) (h5 : s.cfg = t.cfg) (h6 : s.requests = t.requests)
    (h7 : s.replies = t.replies) (h8 : s.turns = t.turns) (h9 : s.trace = t.trace) (h10 : s.draws = t.draws) : s = t := by
  have hc : s.channels = t.channels := by
    apply Vector.ext
    intro i hi
    exact hch ⟨i, hi⟩
  cases s; cases t
  simp_all

end Sys2Proof.Machine
end

