-- ==== Sys2Proof/Laws/Instr.lean ====
section
/-! SUPPORT. The 39 transactions in nine groups: the 16 writes and the 16 reads by register, and the other seven. A property
of every transaction is proved by `Instr.byGroup` from nine cases. -/

namespace Sys2Proof

/-- Every transaction is a write, a read, or one of the other seven. -/
theorem Instr.byGroup {P : Instr → Prop} (wr : ∀ r c v, P (wrInstr r c v)) (rd : ∀ r c, P (rdInstr r c))
    (enDma : ∀ m, P (.enDma m)) (enHdma : ∀ m, P (.enHdma m)) (dmarun : P .dmarun) (hdmarun : P .hdmarun)
    (hdmasetup : P .hdmasetup) (reset : P .reset) (hfin : P .hfin) : ∀ i, P i
  | .wrCtrl c v => wr .ctrl c v
  | .wrTgt c v => wr .tgt c v
  | .wrSrcl c v => wr .srcl c v
  | .wrSrch c v => wr .srch c v
  | .wrSrcb c v => wr .srcb c v
  | .wrSizel c v => wr .sizel c v
  | .wrSizeh c v => wr .sizeh c v
  | .wrIbank c v => wr .ibank c v
  | .wrHadrl c v => wr .hadrl c v
  | .wrHadrh c v => wr .hadrh c v
  | .wrLine c v => wr .line c v
  | .wrScrb c v => wr .scrb c v
  | .wrRsvc c v => wr .rsvc c v
  | .wrRsvd c v => wr .rsvd c v
  | .wrRsve c v => wr .rsve c v
  | .wrScrf c v => wr .scrf c v
  | .rdCtrl c => rd .ctrl c
  | .rdTgt c => rd .tgt c
  | .rdSrcl c => rd .srcl c
  | .rdSrch c => rd .srch c
  | .rdSrcb c => rd .srcb c
  | .rdSizel c => rd .sizel c
  | .rdSizeh c => rd .sizeh c
  | .rdIbank c => rd .ibank c
  | .rdHadrl c => rd .hadrl c
  | .rdHadrh c => rd .hadrh c
  | .rdLine c => rd .line c
  | .rdScrb c => rd .scrb c
  | .rdRsvc c => rd .rsvc c
  | .rdRsvd c => rd .rsvd c
  | .rdRsve c => rd .rsve c
  | .rdScrf c => rd .scrf c
  | .enDma m => enDma m
  | .enHdma m => enHdma m
  | .dmarun => dmarun
  | .hdmarun => hdmarun
  | .hdmasetup => hdmasetup
  | .reset => reset
  | .hfin => hfin

namespace Machine

@[simp] theorem reenterInstr_wrInstr (r : Reg) (c : Chan) (v : Byte) (s : State) :
    reenterInstr (wrInstr r c v) s = writePage c r v s := by
  cases r <;> rfl

@[simp] theorem reenterInstr_rdInstr (r : Reg) (c : Chan) (s : State) : reenterInstr (rdInstr r c) s = readPage c r s := by
  cases r <;> rfl

@[simp] theorem exec_wrInstr (r : Reg) (c : Chan) (v : Byte) (s : State) :
    exec (wrInstr r c v) s = .next (writePage c r v s) := by
  cases r <;> rfl

@[simp] theorem exec_rdInstr (r : Reg) (c : Chan) (s : State) : exec (rdInstr r c) s = .next (readPage c r s) := by
  cases r <;> rfl

@[simp] theorem exec_enDma (m : Byte) (s : State) : exec (.enDma m) s = .next (reply .done (enableDma m s)) := rfl

@[simp] theorem exec_enHdma (m : Byte) (s : State) : exec (.enHdma m) s = .next (reply .done (assignHdmaEnable m s)) := rfl

@[simp] theorem exec_dmarun (s : State) : exec .dmarun s = .next (command doDmaRun s) := rfl

@[simp] theorem exec_hdmarun (s : State) : exec .hdmarun s = .next (command doHdmaRun s) := rfl

@[simp] theorem exec_hdmasetup (s : State) : exec .hdmasetup s = .next (command doHdmaSetup s) := rfl

@[simp] theorem exec_reset (s : State) : exec .reset s = .next (command resetChannels s) := rfl

@[simp] theorem exec_hfin (s : State) : exec .hfin s = .next (answerFinished s) := rfl

@[simp] theorem regAt_offset (r : Reg) : regAt r.offset = r := by
  cases r <;> rfl

end Machine

end Sys2Proof
end

