-- ==== Sys2Proof/Laws/Reentry.lean ====
section
/-! SUPPORT. What a pass of field updates over the channels does, and all that the host's re-entrant transactions can do to
the block-level state. -/

namespace Sys2Proof.Machine

/-- A pass keeps a relation that is kept by each visit. -/
theorem forChannels_rel {R : State → State → Prop} (hrefl : ∀ s, R s s) (htrans : ∀ s t u, R s t → R t u → R s u)
    {f : Chan → State → State} (hf : ∀ c s, R s (f c s)) (s : State) : R s (forChannels f s) := by
  have go : ∀ (cs : List Chan) s, R s (cs.foldl (fun s c => f c s) s) := by
    intro cs
    induction cs with
    | nil => intro s; exact hrefl s
    | cons c cs ih => intro s; exact htrans _ _ _ (hf c s) (ih _)
  exact go _ s

/-- The visits of a pass, in order (R220). -/
theorem forChannels_eq (f : Chan → State → State) (s : State) :
    forChannels f s = f 7 (f 6 (f 5 (f 4 (f 3 (f 2 (f 1 (f 0 s))))))) := rfl

/-- A pass that changes each channel's own fields changes channel d as its visit to d does. -/
theorem ch_forChannels_modCh (g : Chan → Channel → Channel) (s : State) (d : Chan) :
    (forChannels (fun c s => s.modCh c (g c)) s).ch d = g d (s.ch d) := by
  rw [forChannels_eq]
  fin_cases d <;> simp [ch_modCh]

theorem frame_forChannels_modCh (g : Chan → Channel → Channel) (s : State) :
    let t := forChannels (fun c s => s.modCh c (g c)) s
    t.cycles = s.cycles ∧ t.status = s.status ∧ t.running = s.running ∧ t.refused = s.refused ∧ t.cfg = s.cfg ∧
    t.requests = s.requests ∧ t.replies = s.replies ∧ t.turns = s.turns ∧ t.trace = s.trace ∧ t.draws = s.draws := by
  simp [forChannels_eq]

@[simp] theorem ch_assignEnable (m : Byte) (s : State) (d : Chan) :
    (assignEnable m s).ch d = { s.ch d with enable := m.getLsbD d.val } :=
  ch_forChannels_modCh (fun c k => { k with enable := m.getLsbD c.val }) s d

@[simp] theorem ch_assignHdmaEnable (m : Byte) (s : State) (d : Chan) :
    (assignHdmaEnable m s).ch d = { s.ch d with hdmaEnable := m.getLsbD d.val } :=
  ch_forChannels_modCh (fun c k => { k with hdmaEnable := m.getLsbD c.val }) s d

@[simp] theorem ch_resetChannels (s : State) (d : Chan) : (resetChannels s).ch d = (s.ch d).disarm :=
  ch_forChannels_modCh (fun _ => Channel.disarm) s d

theorem frame_assignEnable (m : Byte) (s : State) :
    let t := assignEnable m s
    t.cycles = s.cycles ∧ t.status = s.status ∧ t.running = s.running ∧ t.refused = s.refused ∧ t.cfg = s.cfg ∧
    t.requests = s.requests ∧ t.replies = s.replies ∧ t.turns = s.turns ∧ t.trace = s.trace ∧ t.draws = s.draws :=
  frame_forChannels_modCh _ s

theorem frame_assignHdmaEnable (m : Byte) (s : State) :
    let t := assignHdmaEnable m s
    t.cycles = s.cycles ∧ t.status = s.status ∧ t.running = s.running ∧ t.refused = s.refused ∧ t.cfg = s.cfg ∧
    t.requests = s.requests ∧ t.replies = s.replies ∧ t.turns = s.turns ∧ t.trace = s.trace ∧ t.draws = s.draws :=
  frame_forChannels_modCh _ s

theorem frame_resetChannels (s : State) :
    let t := resetChannels s
    t.cycles = s.cycles ∧ t.status = s.status ∧ t.running = s.running ∧ t.refused = s.refused ∧ t.cfg = s.cfg ∧
    t.requests = s.requests ∧ t.replies = s.replies ∧ t.turns = s.turns ∧ t.trace = s.trace ∧ t.draws = s.draws :=
  frame_forChannels_modCh _ s

/-- All that re-entrant transactions can do outside the channels: the mark may be set, and answers are added. -/
structure HostOnly (s t : State) : Prop where
  cfg : t.cfg = s.cfg
  requests : t.requests = s.requests
  turns : t.turns = s.turns
  trace : t.trace = s.trace
  cycles : t.cycles = s.cycles
  running : t.running = s.running
  status : t.status = s.status
  draws : t.draws = s.draws
  refused : s.refused = true → t.refused = true
  replies : s.replies <+: t.replies

theorem HostOnly.refl (s : State) : HostOnly s s := ⟨rfl, rfl, rfl, rfl, rfl, rfl, rfl, rfl, id, List.prefix_rfl⟩

theorem HostOnly.trans {s t u : State} (h : HostOnly s t) (k : HostOnly t u) : HostOnly s u where
  cfg := k.cfg.trans h.cfg
  requests := k.requests.trans h.requests
  turns := k.turns.trans h.turns
  trace := k.trace.trans h.trace
  cycles := k.cycles.trans h.cycles
  running := k.running.trans h.running
  status := k.status.trans h.status
  draws := k.draws.trans h.draws
  refused := k.refused ∘ h.refused
  replies := h.replies.trans k.replies

theorem hostOnly_modCh (c : Chan) (f : Channel → Channel) (s : State) : HostOnly s (s.modCh c f) :=
  ⟨rfl, rfl, rfl, rfl, rfl, rfl, rfl, rfl, id, List.prefix_rfl⟩

theorem hostOnly_reply (r : Reply) (s : State) : HostOnly s (reply r s) :=
  ⟨rfl, rfl, rfl, rfl, rfl, rfl, rfl, rfl, id, List.prefix_append _ _⟩

theorem hostOnly_refuse (w : RefuseReason) (s : State) : HostOnly s (refuse w s) :=
  ⟨rfl, rfl, rfl, rfl, rfl, rfl, rfl, rfl, fun _ => rfl, List.prefix_append _ _⟩

theorem hostOnly_assignEnable (m : Byte) (s : State) : HostOnly s (assignEnable m s) :=
  forChannels_rel HostOnly.refl (fun _ _ _ => HostOnly.trans) (fun c s => hostOnly_modCh c _ s) s

theorem hostOnly_assignHdmaEnable (m : Byte) (s : State) : HostOnly s (assignHdmaEnable m s) :=
  forChannels_rel HostOnly.refl (fun _ _ _ => HostOnly.trans) (fun c s => hostOnly_modCh c _ s) s

theorem hostOnly_resetChannels (s : State) : HostOnly s (resetChannels s) :=
  forChannels_rel HostOnly.refl (fun _ _ _ => HostOnly.trans) (fun c s => hostOnly_modCh c _ s) s

theorem hostOnly_writePage (c : Chan) (r : Reg) (v : Byte) (s : State) : HostOnly s (writePage c r v s) :=
  (hostOnly_modCh c _ s).trans (hostOnly_reply _ _)

theorem hostOnly_readPage (c : Chan) (r : Reg) (s : State) : HostOnly s (readPage c r s) := hostOnly_reply _ s

theorem hostOnly_answerFinished (s : State) : HostOnly s (answerFinished s) := hostOnly_reply _ s

theorem hostOnly_reenterInstr (i : Instr) (s : State) : HostOnly s (reenterInstr i s) := by
  induction i using Instr.byGroup with
  | wr r c v => simpa using hostOnly_writePage c r v s
  | rd r c => simpa using hostOnly_readPage c r s
  | enDma m => exact (hostOnly_assignEnable m s).trans (hostOnly_reply _ _)
  | enHdma m => exact (hostOnly_assignHdmaEnable m s).trans (hostOnly_reply _ _)
  | dmarun => exact hostOnly_refuse _ s
  | hdmarun => exact hostOnly_refuse _ s
  | hdmasetup => exact hostOnly_refuse _ s
  | reset => exact hostOnly_refuse _ s
  | hfin => exact hostOnly_answerFinished s

theorem hostOnly_reenterTxn (t : Txn) (s : State) : HostOnly s (reenterTxn t s) := by
  unfold reenterTxn
  split
  · exact hostOnly_reenterInstr _ s
  · exact hostOnly_refuse _ s

theorem hostOnly_reenterAll (ts : List Txn) (s : State) : HostOnly s (reenterAll ts s) := by
  induction ts generalizing s with
  | nil => exact HostOnly.refl s
  | cons t ts ih => exact (hostOnly_reenterTxn t s).trans (ih _)

@[simp] theorem reenterAll_nil (s : State) : reenterAll [] s = s := rfl

end Sys2Proof.Machine
end

