-- ==== Sys2Proof/Laws/Engine.lean ====
section
/-! SUPPORT. What one operation of the engine can do outside the channels, said once for each operation: events are added to
the trace and their charges to `cycles`, turns are used up, answers are added, the mark may be set, and nothing else
changes. -/

namespace Sys2Proof.Machine

/-- All that an operation of the engine can do outside the channels. -/
structure EngineStep (s t : State) : Prop where
  cfg : t.cfg = s.cfg
  requests : t.requests = s.requests
  running : t.running = s.running
  status : t.status = s.status
  refused : s.refused = true → t.refused = true
  replies : s.replies <+: t.replies
  turns : t.turns <:+ s.turns
  emits : ∃ es, t.trace = s.trace ++ es ∧ t.cycles = s.cycles + unitsOf es ∧ ∀ e ∈ es, e.permitted s.cfg

@[simp] theorem unitsOf_nil : unitsOf [] = 0 := rfl

@[simp] theorem unitsOf_append (es fs : List PortEvent) : unitsOf (es ++ fs) = unitsOf es + unitsOf fs := by
  simp [unitsOf]

theorem EngineStep.refl (s : State) : EngineStep s s :=
  ⟨rfl, rfl, rfl, rfl, id, List.prefix_rfl, List.suffix_rfl, [], by simp⟩

theorem EngineStep.trans {s t u : State} (h : EngineStep s t) (k : EngineStep t u) : EngineStep s u where
  cfg := k.cfg.trans h.cfg
  requests := k.requests.trans h.requests
  running := k.running.trans h.running
  status := k.status.trans h.status
  refused := k.refused ∘ h.refused
  replies := h.replies.trans k.replies
  turns := k.turns.trans h.turns
  emits := by
    obtain ⟨es, h1, h2, h3⟩ := h.emits
    obtain ⟨fs, k1, k2, k3⟩ := k.emits
    refine ⟨es ++ fs, by simp [k1, h1], by simp [k2, h2, Nat.add_assoc], fun e he => ?_⟩
    rcases List.mem_append.mp he with he | he
    · exact h3 e he
    · exact h.cfg ▸ k3 e he

theorem HostOnly.engineStep {s t : State} (h : HostOnly s t) : EngineStep s t :=
  ⟨h.cfg, h.requests, h.running, h.status, h.refused, h.replies, h.turns ▸ List.suffix_rfl, [], by simp [h.trace, h.cycles]⟩

theorem engine_modCh (c : Chan) (f : Channel → Channel) (s : State) : EngineStep s (s.modCh c f) :=
  (hostOnly_modCh c f s).engineStep

theorem permitted_charge (cfg : Config) (n : Nat) : (PortEvent.charge n).permitted cfg := by
  simp [PortEvent.permitted, PortEvent.busAddr]

theorem engine_charge (n : Nat) (s : State) : EngineStep s (charge n s) :=
  ⟨rfl, rfl, rfl, rfl, id, List.prefix_rfl, List.suffix_rfl, [.charge n], rfl, by simp [unitsOf, PortEvent.units], by
    simp [permitted_charge]⟩

theorem engine_emit (e : PortEvent) (s : State) (hu : e.units = 0) (hp : e.permitted s.cfg) : EngineStep s (emit e s) :=
  ⟨rfl, rfl, rfl, rfl, id, List.prefix_rfl, List.suffix_rfl, [e], rfl, by simp [unitsOf, hu], by simp [hp]⟩

theorem engine_countDraw (s : State) : EngineStep s (countDraw s) := by
  unfold countDraw
  split <;> exact ⟨rfl, rfl, rfl, rfl, id, List.prefix_rfl, List.suffix_rfl, [], by simp⟩

theorem engine_hostTurn (s : State) : EngineStep s (hostTurn s) := by
  unfold hostTurn
  split
  · exact EngineStep.refl s
  · rename_i t rest h
    have hd : EngineStep s { s with turns := rest } :=
      ⟨rfl, rfl, rfl, rfl, id, List.prefix_rfl, h ▸ List.suffix_cons t rest, [], by simp⟩
    exact hd.trans (hostOnly_reenterAll _ _).engineStep

/-- An address both the gate's rule and R62's page allow. -/
def AddrPermitted (cfg : Config) (a : Addr) : Prop := gated cfg a = false ∨ ∃ off, a = bBusAddr cfg off

theorem engine_memRead (a : Addr) (s : State) (h : AddrPermitted s.cfg a) : EngineStep s (memRead a s).2 := by
  refine ((engine_emit (.read a (nextByte s)) s rfl ?_).trans (engine_countDraw _)).trans (engine_hostTurn _)
  intro b hb
  cases hb
  exact h

theorem engine_memWrite (a : Addr) (v : Byte) (s : State) (h : AddrPermitted s.cfg a) : EngineStep s (memWrite a v s) := by
  refine (engine_emit (.write a v) s rfl ?_).trans (engine_hostTurn _)
  intro b hb
  cases hb
  exact h

theorem engine_abusRead (a : Addr) (s : State) : EngineStep s (abusRead a s).2 := by
  unfold abusRead
  split
  · exact EngineStep.refl s
  · rename_i h
    exact engine_memRead a s (.inl (by simpa using h))

theorem engine_abusWrite (a : Addr) (v : Byte) (s : State) : EngineStep s (abusWrite a v s) := by
  unfold abusWrite
  split
  · exact EngineStep.refl s
  · rename_i h
    exact engine_memWrite a v s (.inl (by simpa using h))

theorem engine_bbusRead (vb : Bool) (off : Byte) (s : State) : EngineStep s (bbusRead vb (bBusAddr s.cfg off) s).2 := by
  unfold bbusRead
  split
  · exact engine_memRead _ s (.inr ⟨off, rfl⟩)
  · exact EngineStep.refl s

theorem engine_bbusWrite (vb : Bool) (off : Byte) (v : Byte) (s : State) :
    EngineStep s (bbusWrite vb (bBusAddr s.cfg off) v s) := by
  unfold bbusWrite
  split
  · exact engine_memWrite _ v s (.inr ⟨off, rfl⟩)
  · exact EngineStep.refl s

theorem engine_transfer (c : Chan) (a : Addr) (idx : Nat) (s : State) : EngineStep s (transfer c a idx s) := by
  have hc := engine_charge 8 s
  unfold transfer
  simp only
  split
  · exact (hc.trans (engine_bbusRead _ _ (charge 8 s))).trans (engine_abusWrite _ _ _)
  · have hr := engine_abusRead a (charge 8 s)
    refine (hc.trans hr).trans ?_
    have hcfg : s.cfg = (abusRead a (charge 8 s)).2.cfg := hr.cfg.symm
    rw [hcfg]
    exact engine_bbusWrite _ _ _ _

theorem engine_advanceSource (c : Chan) (s : State) : EngineStep s (advanceSource c s) := engine_modCh c _ s

theorem engine_countByte (c : Chan) (s : State) : EngineStep s (countByte c s) := engine_modCh c _ s

theorem engine_dmaByte (c : Chan) (idx : Nat) (s : State) : EngineStep s (dmaByte c idx s) :=
  ((engine_transfer c _ idx s).trans (engine_advanceSource c _)).trans (engine_countByte c _)

theorem engine_dmaLoop (fuel : Nat) (c : Chan) (idx : Nat) (s : State) : EngineStep s (dmaLoop fuel c idx s) := by
  induction fuel generalizing idx s with
  | zero => exact EngineStep.refl s
  | succ n ih =>
    unfold dmaLoop
    simp only
    split
    · exact engine_dmaByte c idx s
    · exact (engine_dmaByte c idx s).trans (ih _ _)

theorem engine_runGeneralDma (c : Chan) (s : State) : EngineStep s (runGeneralDma c s) := by
  unfold runGeneralDma
  simp only
  split
  · split
    · exact (engine_charge 8 s).trans (engine_modCh c _ _)
    · exact ((engine_charge 8 s).trans (engine_dmaLoop _ c 0 _)).trans (engine_modCh c _ _)
  · exact EngineStep.refl s

theorem engine_tableByte (c : Chan) (s : State) : EngineStep s (tableByte c s).2 := by
  unfold tableByte
  simp only
  exact ((engine_charge 8 s).trans (engine_abusRead _ _)).trans (engine_modCh c _ _)

theorem engine_loadPointer (c : Chan) (s : State) : EngineStep s (loadPointer c s) := by
  unfold loadPointer
  simp only
  exact ((engine_tableByte c s).trans (engine_tableByte c _)).trans (engine_modCh c _ _)

theorem engine_reload (c : Chan) (s : State) : EngineStep s (reload c s) := by
  unfold reload
  simp only
  split
  · split
    · exact ((engine_tableByte c s).trans (engine_modCh c _ _)).trans (engine_loadPointer c _)
    · exact (engine_tableByte c s).trans (engine_modCh c _ _)
  · exact EngineStep.refl s

theorem engine_setup (c : Chan) (s : State) : EngineStep s (setup c s) := by
  unfold setup
  simp only
  split
  · exact engine_modCh c _ s
  · exact ((engine_modCh c _ s).trans (engine_modCh c _ _)).trans (engine_reload c _)

theorem engine_advance (c : Chan) (s : State) : EngineStep s (advance c s) := by
  unfold advance
  split
  · exact (engine_modCh c _ s).trans (engine_reload c _)
  · exact EngineStep.refl s

theorem engine_hdmaByte (c : Chan) (idx : Nat) (s : State) : EngineStep s (hdmaByte c idx s) := by
  unfold hdmaByte
  split
  · exact (engine_transfer c _ idx s).trans (engine_modCh c _ _)
  · split <;> exact (engine_transfer c _ idx s).trans (engine_modCh c _ _)

theorem engine_hdmaBytes (n : Nat) (c : Chan) (idx : Nat) (s : State) : EngineStep s (hdmaBytes n c idx s) := by
  induction n generalizing idx s with
  | zero => exact EngineStep.refl s
  | succ n ih => exact (engine_hdmaByte c idx s).trans (ih _ _)

theorem engine_hdmaTransfer (c : Chan) (s : State) : EngineStep s (hdmaTransfer c s) := by
  unfold hdmaTransfer
  simp only
  split
  · split
    · exact (engine_modCh c _ s).trans (engine_hdmaBytes _ c 0 _)
    · exact engine_modCh c _ s
  · exact EngineStep.refl s

/-- A pass of engine operations over the channels is an engine operation. -/
theorem engine_forChannels {f : Chan → State → State} (hf : ∀ c s, EngineStep s (f c s)) (s : State) :
    EngineStep s (forChannels f s) :=
  forChannels_rel EngineStep.refl (fun _ _ _ => EngineStep.trans) hf s

/-- What an orchestration is, when its body is an engine operation: the same, but that `status` is set and `running` is
false at its end. -/
structure Orchestrated (s t : State) : Prop where
  cfg : t.cfg = s.cfg
  requests : t.requests = s.requests
  running : t.running = false
  status : t.status = true
  refused : s.refused = true → t.refused = true
  replies : s.replies <+: t.replies
  turns : t.turns <:+ s.turns
  emits : ∃ es, t.trace = s.trace ++ es ∧ t.cycles = s.cycles + unitsOf es ∧ ∀ e ∈ es, e.permitted s.cfg

theorem orchestrated {body : State → State} (hb : ∀ s, EngineStep s (body s)) (n : Nat) (s : State) :
    Orchestrated s (orchestrate n body s) := by
  have h := (engine_charge n { s with running := true }).trans (hb _)
  exact ⟨h.cfg, h.requests, rfl, rfl, h.refused, h.replies, h.turns, h.emits⟩

theorem orchestrated_doDmaRun (s : State) : Orchestrated s (doDmaRun s) :=
  orchestrated (engine_forChannels engine_runGeneralDma) _ s

theorem orchestrated_doHdmaRun (s : State) : Orchestrated s (doHdmaRun s) :=
  orchestrated (fun s => (engine_forChannels engine_hdmaTransfer s).trans (engine_forChannels engine_advance _)) _ s

theorem orchestrated_doHdmaSetup (s : State) : Orchestrated s (doHdmaSetup s) :=
  orchestrated (engine_forChannels engine_setup) _ s

end Sys2Proof.Machine
end

