-- ==== Sys2Proof/Laws/Bus.lean ====
section
/-! SUPPORT. What each bus operation issues and what it uses up, whatever the host does meanwhile: the events it adds to the
trace, the turns it takes, the byte it yields, and that it charges nothing. -/

namespace Sys2Proof.Machine

theorem hostTurn_frame (s : State) :
    (hostTurn s).trace = s.trace ∧ (hostTurn s).cycles = s.cycles ∧ (hostTurn s).cfg = s.cfg ∧
    (hostTurn s).turns = s.turns.tail := by
  unfold hostTurn
  split
  · rename_i h
    simp [h]
  · rename_i t rest h
    have k := hostOnly_reenterAll t.reentrant { s with turns := rest }
    exact ⟨k.trace, k.cycles, k.cfg, by simp [h, k.turns]⟩

theorem countDraw_frame (s : State) :
    (countDraw s).trace = s.trace ∧ (countDraw s).cycles = s.cycles ∧ (countDraw s).cfg = s.cfg ∧
    (countDraw s).turns = s.turns := by
  unfold countDraw
  split <;> exact ⟨rfl, rfl, rfl, rfl⟩

/-- A read that reaches the bus: the host's next byte, one event, one turn (R60, R71). -/
theorem memRead_frame (a : Addr) (s : State) :
    (memRead a s).1 = nextByte s ∧ (memRead a s).2.trace = s.trace ++ [.read a (nextByte s)] ∧
    (memRead a s).2.cycles = s.cycles ∧ (memRead a s).2.cfg = s.cfg ∧ (memRead a s).2.turns = s.turns.tail := by
  refine ⟨rfl, ?_, ?_, ?_, ?_⟩ <;> simp [memRead, hostTurn_frame, countDraw_frame]

/-- A write that reaches the bus: one event, one turn (R60, R71). -/
theorem memWrite_frame (a : Addr) (v : Byte) (s : State) :
    (memWrite a v s).trace = s.trace ++ [.write a v] ∧ (memWrite a v s).cycles = s.cycles ∧
    (memWrite a v s).cfg = s.cfg ∧ (memWrite a v s).turns = s.turns.tail := by
  refine ⟨?_, ?_, ?_, ?_⟩ <;> simp [memWrite, hostTurn_frame]

theorem abusRead_gated (a : Addr) (s : State) (h : gated s.cfg a = true) : abusRead a s = (0x00, s) := by
  simp [abusRead, h]

theorem abusRead_open (a : Addr) (s : State) (h : gated s.cfg a = false) : abusRead a s = memRead a s := by
  simp [abusRead, h]

theorem abusWrite_gated (a : Addr) (v : Byte) (s : State) (h : gated s.cfg a = true) : abusWrite a v s = s := by
  simp [abusWrite, h]

theorem abusWrite_open (a : Addr) (v : Byte) (s : State) (h : gated s.cfg a = false) : abusWrite a v s = memWrite a v s := by
  simp [abusWrite, h]

/-- The charge of a byte comes before its access and does not change what the host answers. -/
@[simp] theorem nextByte_charge (n : Nat) (s : State) : nextByte (charge n s) = nextByte s := rfl

theorem cycles_abusRead (a : Addr) (s : State) : (abusRead a s).2.cycles = s.cycles := by
  unfold abusRead
  split <;> simp [memRead_frame]

theorem cycles_abusWrite (a : Addr) (v : Byte) (s : State) : (abusWrite a v s).cycles = s.cycles := by
  unfold abusWrite
  split <;> simp [memWrite_frame]

theorem cycles_bbusRead (vb : Bool) (b : Addr) (s : State) : (bbusRead vb b s).2.cycles = s.cycles := by
  unfold bbusRead
  split <;> simp [memRead_frame]

theorem cycles_bbusWrite (vb : Bool) (b : Addr) (v : Byte) (s : State) : (bbusWrite vb b v s).cycles = s.cycles := by
  unfold bbusWrite
  split <;> simp [memWrite_frame]

/-- A transfer byte charges 8 (R134). -/
theorem cycles_transfer (c : Chan) (a : Addr) (idx : Nat) (s : State) : (transfer c a idx s).cycles = s.cycles + 8 := by
  unfold transfer
  simp only
  split <;> simp [cycles_abusRead, cycles_abusWrite, cycles_bbusRead, cycles_bbusWrite]

/-- A table byte charges 8 (R156). -/
theorem cycles_tableByte (c : Chan) (s : State) : (tableByte c s).2.cycles = s.cycles + 8 := by
  simp [tableByte, cycles_abusRead]

end Sys2Proof.Machine
end

