-- ==== Sys2Proof/Laws/Decode.lean ====
section
/-! SUPPORT. The fields of a header: the row mask 0xFF8F keeps the kind, the reserved field and the offset, and a header is
made of its four fields (30_encoding.md R91, R97). -/

namespace Sys2Proof

theorem hdrKind_rowMask (h : BitVec 16) : hdrKind (h &&& 0xFF8F) = hdrKind h := by
  have e : BitVec.extractLsb' 12 4 (0xFF8F : BitVec 16) = BitVec.allOnes 4 := by decide
  rw [hdrKind, BitVec.extractLsb'_and, e, BitVec.and_allOnes]
  rfl

theorem hdrRsv_rowMask (h : BitVec 16) : hdrRsv (h &&& 0xFF8F) = hdrRsv h := by
  have e : BitVec.extractLsb' 7 5 (0xFF8F : BitVec 16) = BitVec.allOnes 5 := by decide
  rw [hdrRsv, BitVec.extractLsb'_and, e, BitVec.and_allOnes]
  rfl

theorem hdrOff_rowMask (h : BitVec 16) : hdrOff (h &&& 0xFF8F) = hdrOff h := by
  have e : BitVec.extractLsb' 0 4 (0xFF8F : BitVec 16) = BitVec.allOnes 4 := by decide
  rw [hdrOff, BitVec.extractLsb'_and, e, BitVec.and_allOnes]
  rfl

/-- A header whose masked part is that of a WR row decodes to the row's write, of the channel in bits 6:4. -/
theorem decode_wrRow (r : Reg) (h : BitVec 16) (v : Byte) (hm : h &&& 0xFF8F = r.offset.setWidth 16) :
    decode ⟨h, v⟩ = .ok (wrInstr r (hdrCh h) v) := by
  have hk : hdrKind h = 0 := by rw [← hdrKind_rowMask, hm]; cases r <;> decide
  have hr : hdrRsv h = 0 := by rw [← hdrRsv_rowMask, hm]; cases r <;> decide
  have ho : hdrOff h = r.offset := by rw [← hdrOff_rowMask, hm]; cases r <;> decide
  simp [decode, hk, hr, ho]

/-- A header whose masked part is that of an RD row decodes to the row's read, of the channel in bits 6:4. -/
theorem decode_rdRow (r : Reg) (h : BitVec 16) (v : Byte) (hm : h &&& 0xFF8F = 0x1000 ||| r.offset.setWidth 16) :
    decode ⟨h, v⟩ = .ok (rdInstr r (hdrCh h)) := by
  have hk : hdrKind h = 1 := by rw [← hdrKind_rowMask, hm]; cases r <;> decide
  have hr : hdrRsv h = 0 := by rw [← hdrRsv_rowMask, hm]; cases r <;> decide
  have ho : hdrOff h = r.offset := by rw [← hdrOff_rowMask, hm]; cases r <;> decide
  simp [decode, hk, hr, ho]

end Sys2Proof
end

