-- ==== Sys2Proof/Laws/Quiet.lean ====
section
/-! SUPPORT. What the engine does to the channels when the host issues nothing re-entrantly: an operation on channel c
leaves the other channels alone, and of channel c the fields that only transactions write. -/

namespace Sys2Proof.Machine

@[simp] theorem hostOwned_hostOwned (k : Channel) : k.hostOwned.hostOwned = k.hostOwned := rfl

/-- A quiet operation that touches the channels not at all. -/
structure QuietBus (s t : State) : Prop where
  quiet : t.quiet
  channels : t.channels = s.channels
  refused : t.refused = s.refused
  replies : t.replies = s.replies

/-- A quiet operation on channel c. -/
structure QuietOn (c : Chan) (s t : State) : Prop where
  quiet : t.quiet
  others : ∀ d, d ≠ c → t.ch d = s.ch d
  owned : (t.ch c).hostOwned = (s.ch c).hostOwned
  refused : t.refused = s.refused
  replies : t.replies = s.replies

theorem QuietBus.ch {s t : State} (h : QuietBus s t) (d : Chan) : t.ch d = s.ch d :=
  ch_of_channels h.channels d

theorem QuietBus.on {s t : State} (h : QuietBus s t) (c : Chan) : QuietOn c s t :=
  ⟨h.quiet, fun d _ => h.ch d, by rw [h.ch], h.refused, h.replies⟩

theorem QuietBus.refl {s : State} (h : s.quiet) : QuietBus s s := ⟨h, rfl, rfl, rfl⟩

theorem QuietBus.trans {s t u : State} (h : QuietBus s t) (k : QuietBus t u) : QuietBus s u :=
  ⟨k.quiet, k.channels.trans h.channels, k.refused.trans h.refused, k.replies.trans h.replies⟩

theorem QuietOn.refl {s : State} (c : Chan) (h : s.quiet) : QuietOn c s s := (QuietBus.refl h).on c

theorem QuietOn.trans {c : Chan} {s t u : State} (h : QuietOn c s t) (k : QuietOn c t u) : QuietOn c s u :=
  ⟨k.quiet, fun d hd => (k.others d hd).trans (h.others d hd), k.owned.trans h.owned, k.refused.trans h.refused,
   k.replies.trans h.replies⟩

theorem quiet_of_turns {s t : State} (h : s.quiet) (e : t.turns = s.turns) : t.quiet := by
  intro x hx
  exact h x (e ▸ hx)

theorem quietOn_modCh {s : State} (c : Chan) (f : Channel → Channel) (h : s.quiet)
    (hf : ∀ k, (f k).hostOwned = k.hostOwned) : QuietOn c s (s.modCh c f) :=
  ⟨quiet_of_turns h rfl, fun d hd => ch_modCh_ne s c d f hd, by simp [hf], rfl, rfl⟩

theorem quietBus_charge {s : State} (n : Nat) (h : s.quiet) : QuietBus s (charge n s) := ⟨h, rfl, rfl, rfl⟩

theorem quietBus_emit {s : State} (e : PortEvent) (h : s.quiet) : QuietBus s (emit e s) := ⟨h, rfl, rfl, rfl⟩

theorem quietBus_countDraw {s : State} (h : s.quiet) : QuietBus s (countDraw s) := by
  unfold countDraw
  split
  · exact ⟨quiet_of_turns h rfl, rfl, rfl, rfl⟩
  · exact QuietBus.refl h

theorem quietBus_hostTurn {s : State} (h : s.quiet) : QuietBus s (hostTurn s) := by
  unfold hostTurn
  split
  · exact QuietBus.refl h
  · rename_i t rest e
    have ht : t.reentrant = [] := h t (by simp [e])
    rw [ht]
    exact ⟨fun x hx => h x (by simp only [reenterAll_nil] at hx; simp [e, hx]), rfl, rfl, rfl⟩

theorem quietBus_memRead {s : State} (a : Addr) (h : s.quiet) : QuietBus s (memRead a s).2 :=
  have h1 := quietBus_emit (.read a (nextByte s)) h
  have h2 := quietBus_countDraw h1.quiet
  (h1.trans h2).trans (quietBus_hostTurn h2.quiet)

theorem quietBus_memWrite {s : State} (a : Addr) (v : Byte) (h : s.quiet) : QuietBus s (memWrite a v s) :=
  have h1 := quietBus_emit (.write a v) h
  h1.trans (quietBus_hostTurn h1.quiet)

theorem quietBus_abusRead {s : State} (a : Addr) (h : s.quiet) : QuietBus s (abusRead a s).2 := by
  unfold abusRead
  split
  · exact QuietBus.refl h
  · exact quietBus_memRead a h

theorem quietBus_abusWrite {s : State} (a : Addr) (v : Byte) (h : s.quiet) : QuietBus s (abusWrite a v s) := by
  unfold abusWrite
  split
  · exact QuietBus.refl h
  · exact quietBus_memWrite a v h

theorem quietBus_bbusRead {s : State} (vb : Bool) (b : Addr) (h : s.quiet) : QuietBus s (bbusRead vb b s).2 := by
  unfold bbusRead
  split
  · exact quietBus_memRead b h
  · exact QuietBus.refl h

theorem quietBus_bbusWrite {s : State} (vb : Bool) (b : Addr) (v : Byte) (h : s.quiet) :
    QuietBus s (bbusWrite vb b v s) := by
  unfold bbusWrite
  split
  · exact quietBus_memWrite b v h
  · exact QuietBus.refl h

/-- A transfer writes no channel field (R128). -/
theorem quietBus_transfer {s : State} (c : Chan) (a : Addr) (idx : Nat) (h : s.quiet) :
    QuietBus s (transfer c a idx s) := by
  have hc := quietBus_charge 8 h
  unfold transfer
  simp only
  split
  · have hr := hc.trans (quietBus_bbusRead (validB s.cfg (bOffset s.cfg.mode4Mask (s.ch c).transferMode
      (s.ch c).targetAddress idx) a) (bBusAddr s.cfg (bOffset s.cfg.mode4Mask (s.ch c).transferMode
      (s.ch c).targetAddress idx)) hc.quiet)
    exact hr.trans (quietBus_abusWrite _ _ hr.quiet)
  · have hr := hc.trans (quietBus_abusRead a hc.quiet)
    exact hr.trans (quietBus_bbusWrite _ _ _ hr.quiet)

/-- A byte of general DMA, without re-entrant transactions, changes channel c by the advance and the count only. -/
theorem ch_dmaByte {s : State} (c : Chan) (idx : Nat) (h : s.quiet) (d : Chan) :
    (dmaByte c idx s).ch d =
      if d = c then
        { s.ch c with
          sourceAddress := if (s.ch c).fixedTransfer then (s.ch c).sourceAddress else (s.ch c).sourceAddress + 1
          transferSize := (s.ch c).transferSize - 1 }
      else s.ch d := by
  have hq := (quietBus_transfer c (s.ch c).sourceAddr idx h).ch
  unfold dmaByte countByte advanceSource
  by_cases hd : d = c
  · subst hd
    simp only [ch_modCh_self, hq, if_true]
    split <;> rfl
  · simp [ch_modCh_ne, hd, hq]

theorem quietOn_dmaByte {s : State} (c : Chan) (idx : Nat) (h : s.quiet) : QuietOn c s (dmaByte c idx s) := by
  have h1 := (quietBus_transfer c (s.ch c).sourceAddr idx h).on c
  have h2 := h1.trans (quietOn_modCh c (fun k => if k.fixedTransfer then k else
    { k with sourceAddress := k.sourceAddress + 1 }) h1.quiet (fun k => by split <;> rfl))
  unfold dmaByte countByte advanceSource
  exact h2.trans (quietOn_modCh c _ h2.quiet (fun _ => rfl))

theorem quietOn_dmaLoop {s : State} (fuel : Nat) (c : Chan) (idx : Nat) (h : s.quiet) :
    QuietOn c s (dmaLoop fuel c idx s) := by
  induction fuel generalizing idx s with
  | zero => exact QuietOn.refl c h
  | succ n ih =>
    have hb := quietOn_dmaByte c idx h
    unfold dmaLoop
    simp only
    split
    · exact hb
    · exact hb.trans (ih _ hb.quiet)

theorem quietOn_runGeneralDma {s : State} (c : Chan) (h : s.quiet) : QuietOn c s (runGeneralDma c s) := by
  have hc := (quietBus_charge 8 h).on c
  unfold runGeneralDma
  simp only
  split
  · split
    · exact hc.trans (quietOn_modCh c _ hc.quiet fun _ => rfl)
    · have hl := hc.trans (quietOn_dmaLoop (dmaFuel c (charge 8 s)) c 0 hc.quiet)
      exact hl.trans (quietOn_modCh c _ hl.quiet fun _ => rfl)
  · exact QuietOn.refl c h

theorem quietOn_tableByte {s : State} (c : Chan) (h : s.quiet) : QuietOn c s (tableByte c s).2 := by
  have hc := quietBus_charge 8 h
  have hr := (hc.trans (quietBus_abusRead (s.ch c).tableAddr hc.quiet)).on c
  unfold tableByte
  simp only
  exact hr.trans (quietOn_modCh c _ hr.quiet fun _ => rfl)

/-- A table byte, without re-entrant transactions, moves `hdma_address` on and changes no other channel field (R156). -/
theorem ch_tableByte {s : State} (c : Chan) (h : s.quiet) (d : Chan) :
    (tableByte c s).2.ch d =
      if d = c then { s.ch c with hdmaAddress := (s.ch c).hdmaAddress + 1 } else s.ch d := by
  have hc := quietBus_charge 8 h
  have hq := (hc.trans (quietBus_abusRead (s.ch c).tableAddr hc.quiet)).ch
  unfold tableByte
  by_cases hd : d = c
  · subst hd; simp [hq]
  · simp [ch_modCh_ne, hd, hq]

theorem quietOn_loadPointer {s : State} (c : Chan) (h : s.quiet) : QuietOn c s (loadPointer c s) := by
  have h1 := quietOn_tableByte c h
  have h2 := h1.trans (quietOn_tableByte c h1.quiet)
  unfold loadPointer
  exact h2.trans (quietOn_modCh c _ h2.quiet fun _ => rfl)

theorem quietOn_reload {s : State} (c : Chan) (h : s.quiet) : QuietOn c s (reload c s) := by
  unfold reload
  simp only
  split
  · have h1 := quietOn_tableByte c h
    have h2 := h1.trans (quietOn_modCh c (fun k => { k with
      lineCounter := (tableByte c s).1, hdmaCompleted := (tableByte c s).1 == 0,
      hdmaDoTransfer := !((tableByte c s).1 == 0) }) h1.quiet fun _ => rfl)
    split
    · exact h2.trans (quietOn_loadPointer c h2.quiet)
    · exact h2
  · exact QuietOn.refl c h

theorem quietOn_setup {s : State} (c : Chan) (h : s.quiet) : QuietOn c s (setup c s) := by
  have h1 := quietOn_modCh c (fun k => { k with hdmaDoTransfer := true }) h fun _ => rfl
  unfold setup
  simp only
  split
  · exact h1
  · have h2 := h1.trans (quietOn_modCh c
      (fun k => { k with enable := false, hdmaAddress := k.sourceAddress, lineCounter := 0 }) h1.quiet fun _ => rfl)
    exact h2.trans (quietOn_reload c h2.quiet)

theorem quietOn_advance {s : State} (c : Chan) (h : s.quiet) : QuietOn c s (advance c s) := by
  unfold advance
  split
  · have h1 := quietOn_modCh c (fun k => { k with
      lineCounter := k.lineCounter - 1, hdmaDoTransfer := (k.lineCounter - 1).getLsbD 7 }) h fun _ => rfl
    exact h1.trans (quietOn_reload c h1.quiet)
  · exact QuietOn.refl c h

theorem quietOn_hdmaByte {s : State} (c : Chan) (idx : Nat) (h : s.quiet) : QuietOn c s (hdmaByte c idx s) := by
  unfold hdmaByte
  split
  · have h1 := (quietBus_transfer c (s.ch c).indirectAddr idx h).on c
    exact h1.trans (quietOn_modCh c _ h1.quiet fun _ => rfl)
  · split
    · have h1 := (quietBus_transfer c (s.ch c).sourceAddr idx h).on c
      exact h1.trans (quietOn_modCh c _ h1.quiet fun _ => rfl)
    · have h1 := (quietBus_transfer c (s.ch c).tableAddr idx h).on c
      exact h1.trans (quietOn_modCh c _ h1.quiet fun _ => rfl)

theorem quietOn_hdmaBytes {s : State} (n : Nat) (c : Chan) (idx : Nat) (h : s.quiet) :
    QuietOn c s (hdmaBytes n c idx s) := by
  induction n generalizing idx s with
  | zero => exact QuietOn.refl c h
  | succ n ih =>
    have hb := quietOn_hdmaByte c idx h
    exact hb.trans (ih _ hb.quiet)

theorem quietOn_hdmaTransfer {s : State} (c : Chan) (h : s.quiet) : QuietOn c s (hdmaTransfer c s) := by
  unfold hdmaTransfer
  simp only
  split
  · have h1 := quietOn_modCh c (fun k => { k with enable := false }) h fun _ => rfl
    split
    · exact h1.trans (quietOn_hdmaBytes _ c 0 h1.quiet)
    · exact h1
  · exact QuietOn.refl c h

end Sys2Proof.Machine
end

