-- ==== Sys2Proof/Laws/Dma.lean ====
section
/-! SUPPORT. The loop of general DMA never runs out of fuel, so that `runGeneralDma` ends its loop only by the test of R125
(assumption 11). -/

namespace Sys2Proof.Machine

/-- A bus operation either takes no turn of the host and leaves the channels alone, or takes a turn. -/
def TakesTurn (s t : State) : Prop :=
  (t.turns = s.turns ∧ t.channels = s.channels) ∨ t.turns.length < s.turns.length

theorem TakesTurn.refl (s : State) : TakesTurn s s := .inl ⟨rfl, rfl⟩

theorem TakesTurn.trans {s t u : State} (h : TakesTurn s t) (k : TakesTurn t u) : TakesTurn s u := by
  rcases h with ⟨h1, h2⟩ | h
  · rcases k with ⟨k1, k2⟩ | k
    · exact .inl ⟨k1.trans h1, k2.trans h2⟩
    · exact .inr (h1 ▸ k)
  · rcases k with ⟨k1, _⟩ | k
    · exact .inr (k1 ▸ h)
    · exact .inr (Nat.lt_trans k h)

theorem takesTurn_countDraw (s : State) : TakesTurn s (countDraw s) := by
  unfold countDraw
  split <;> exact .inl ⟨rfl, rfl⟩

theorem takesTurn_hostTurn (s : State) : TakesTurn s (hostTurn s) := by
  unfold hostTurn
  split
  · exact TakesTurn.refl s
  · rename_i t rest h
    refine .inr ?_
    rw [(hostOnly_reenterAll t.reentrant { s with turns := rest }).turns, h]
    simp

theorem takesTurn_memRead (a : Addr) (s : State) : TakesTurn s (memRead a s).2 :=
  (TakesTurn.trans (.inl ⟨rfl, rfl⟩) (takesTurn_countDraw (emit (.read a (nextByte s)) s))).trans (takesTurn_hostTurn _)

theorem takesTurn_memWrite (a : Addr) (v : Byte) (s : State) : TakesTurn s (memWrite a v s) :=
  TakesTurn.trans (.inl ⟨rfl, rfl⟩) (takesTurn_hostTurn (emit (.write a v) s))

theorem takesTurn_abusRead (a : Addr) (s : State) : TakesTurn s (abusRead a s).2 := by
  unfold abusRead
  split
  · exact TakesTurn.refl s
  · exact takesTurn_memRead a s

theorem takesTurn_abusWrite (a : Addr) (v : Byte) (s : State) : TakesTurn s (abusWrite a v s) := by
  unfold abusWrite
  split
  · exact TakesTurn.refl s
  · exact takesTurn_memWrite a v s

theorem takesTurn_bbusRead (vb : Bool) (b : Addr) (s : State) : TakesTurn s (bbusRead vb b s).2 := by
  unfold bbusRead
  split
  · exact takesTurn_memRead b s
  · exact TakesTurn.refl s

theorem takesTurn_bbusWrite (vb : Bool) (b : Addr) (v : Byte) (s : State) : TakesTurn s (bbusWrite vb b v s) := by
  unfold bbusWrite
  split
  · exact takesTurn_memWrite b v s
  · exact TakesTurn.refl s

theorem takesTurn_transfer (c : Chan) (a : Addr) (idx : Nat) (s : State) : TakesTurn s (transfer c a idx s) := by
  have hc : TakesTurn s (charge 8 s) := .inl ⟨rfl, rfl⟩
  unfold transfer
  simp only
  split
  · exact (hc.trans (takesTurn_bbusRead _ _ _)).trans (takesTurn_abusWrite _ _ _)
  · exact (hc.trans (takesTurn_abusRead _ _)).trans (takesTurn_bbusWrite _ _ _ _)

/-- A byte lowers the bound on the bytes to come, when the count was not 0. -/
theorem dmaFuel_dmaByte (c : Chan) (idx : Nat) (s : State) (h : (s.ch c).transferSize ≠ 0) :
    dmaFuel c (dmaByte c idx s) < dmaFuel c s := by
  have hsize : ∀ t : State, ((countByte c (advanceSource c t)).ch c).transferSize = (t.ch c).transferSize - 1 := by
    intro t
    simp only [countByte, advanceSource, ch_modCh_self]
    split <;> rfl
  have hpos : 0 < (s.ch c).transferSize.toNat := by
    rcases Nat.eq_zero_or_pos (s.ch c).transferSize.toNat with h0 | h0
    · exact absurd (BitVec.eq_of_toNat_eq (by simpa using h0)) h
    · exact h0
  have hsub : ((s.ch c).transferSize - 1).toNat = (s.ch c).transferSize.toNat - 1 := by
    have := (s.ch c).transferSize.isLt
    have h1 : (1 : Half).toNat = 1 := rfl
    rw [BitVec.toNat_sub, h1]
    omega
  unfold dmaFuel dmaByte
  rw [hsize]
  simp only [countByte, advanceSource, turns_modCh]
  rcases takesTurn_transfer c (s.ch c).sourceAddr idx s with ⟨ht, hch⟩ | ht
  · rw [ht, ch_of_channels hch, hsub]
    omega
  · have := (((transfer c (s.ch c).sourceAddr idx s).ch c).transferSize - 1).isLt
    omega

/-- More fuel than `dmaFuel` makes no difference to the loop. -/
theorem dmaLoop_fuel (c : Chan) (n m idx : Nat) (s : State) (h : (s.ch c).transferSize ≠ 0) (hn : dmaFuel c s ≤ n)
    (hm : dmaFuel c s ≤ m) : dmaLoop n c idx s = dmaLoop m c idx s := by
  induction n generalizing m idx s with
  | zero =>
    have := dmaFuel_dmaByte c idx s h
    omega
  | succ n ih =>
    have hlt := dmaFuel_dmaByte c idx s h
    cases m with
    | zero => omega
    | succ m =>
      unfold dmaLoop
      simp only
      split
      · rfl
      · rename_i hs
        refine ih m (idx + 1) _ ?_ (by omega) (by omega)
        intro h0
        simp [dmaStops, h0] at hs

/-- A byte of the loop as one change of channel c after its transfer (R123 to R125). -/
theorem dmaByte_eq (c : Chan) (idx : Nat) (s : State) :
    let u := transfer c (s.ch c).sourceAddr idx s
    dmaByte c idx s = u.setCh c { u.ch c with
      sourceAddress := if (u.ch c).fixedTransfer then (u.ch c).sourceAddress else (u.ch c).sourceAddress + 1
      transferSize := (u.ch c).transferSize - 1 } := by
  unfold dmaByte countByte advanceSource
  generalize transfer c (s.ch c).sourceAddr idx s = u
  simp only [State.modCh, ch_setCh_self]
  unfold State.setCh
  simp only [Vector.set_set]
  split <;> rfl

/-- The loop without its fuel: a byte, then the test, then the rest. -/
theorem dmaLoop_unfold (c : Chan) (idx : Nat) (s : State) (h : (s.ch c).transferSize ≠ 0) :
    dmaLoop (dmaFuel c s) c idx s =
      if dmaStops c (dmaByte c idx s) then dmaByte c idx s
      else dmaLoop (dmaFuel c (dmaByte c idx s)) c (idx + 1) (dmaByte c idx s) := by
  have hlt := dmaFuel_dmaByte c idx s h
  obtain ⟨n, hn⟩ : ∃ n, dmaFuel c s = n + 1 := ⟨dmaFuel c s - 1, by omega⟩
  rw [hn]
  conv_lhs => unfold dmaLoop
  simp only
  split
  · rfl
  · rename_i hs
    refine dmaLoop_fuel c n _ _ _ ?_ (by omega) (by omega)
    intro h0
    simp [dmaStops, h0] at hs

end Sys2Proof.Machine
end

