-- ==== Sys2Proof/Laws/Flags.lean ====
section
/-! SUPPORT. The flags and predicates in the words of their rules: what it means that a channel is active, that the chain
is finished, that a bit of an enable mask is set or rises, that Setup skips a channel. -/

namespace Sys2Proof.Machine

/-- R150. -/
theorem active_iff (k : Channel) : k.active = true ↔ k.hdmaEnable = true ∧ k.hdmaCompleted = false := by
  simp [Channel.active]

theorem mem_channelOrder (c : Chan) : c ∈ channelOrder := by
  revert c
  decide

/-- R151. -/
theorem finishedAfter_iff (c : Chan) (s : State) : finishedAfter c s = true ↔ ∀ j, c < j → (s.ch j).active = false := by
  simp only [finishedAfter, List.all_eq_true, mem_channelOrder, true_imp_iff, Bool.or_eq_true, decide_eq_true_eq,
    Bool.not_eq_true']
  refine forall_congr' fun j => ⟨fun h hj => ?_, fun h => ?_⟩
  · rcases h with h | h
    · exact absurd hj (not_lt.2 h)
    · exact h
  · by_cases hj : j ≤ c
    · exact .inl hj
    · exact .inr (h (not_le.1 hj))

/-- R152. -/
theorem hdmaFinished_iff (s : State) : hdmaFinished s = true ↔ ∀ j, (s.ch j).active = false := by
  simp only [hdmaFinished, List.all_eq_true, mem_channelOrder, true_imp_iff, Bool.not_eq_true']

/-- Bit c of an enable mask is the flag of channel c (10_state.md R49). -/
theorem getLsbD_maskOf (f : Channel → Bool) (s : State) (c : Chan) : (maskOf f s).getLsbD c.val = f (s.ch c) := by
  have key : ∀ b0 b1 b2 b3 b4 b5 b6 b7 : Bool,
      (fun w : Byte => [w.getLsbD 0, w.getLsbD 1, w.getLsbD 2, w.getLsbD 3, w.getLsbD 4, w.getLsbD 5, w.getLsbD 6,
        w.getLsbD 7])
        (BitVec.ofBool b7 ++ BitVec.ofBool b6 ++ BitVec.ofBool b5 ++ BitVec.ofBool b4 ++ BitVec.ofBool b3 ++
          BitVec.ofBool b2 ++ BitVec.ofBool b1 ++ BitVec.ofBool b0) = [b0, b1, b2, b3, b4, b5, b6, b7] := by
    decide
  have h := key (f (s.ch 0)) (f (s.ch 1)) (f (s.ch 2)) (f (s.ch 3)) (f (s.ch 4)) (f (s.ch 5)) (f (s.ch 6)) (f (s.ch 7))
  simp only [List.cons.injEq, and_true] at h
  obtain ⟨h0, h1, h2, h3, h4, h5, h6, h7⟩ := h
  unfold maskOf
  fin_cases c
  exacts [h0, h1, h2, h3, h4, h5, h6, h7]

/-- Some bit is 0 in the old mask and 1 in the new (R214). -/
theorem risingEdge_iff (old new : Byte) :
    risingEdge old new = true ↔ ∃ c : Chan, new.getLsbD c.val = true ∧ old.getLsbD c.val = false := by
  unfold risingEdge
  rw [bne_iff_ne]
  constructor
  · intro h
    by_contra hn
    push Not at hn
    apply h
    apply BitVec.eq_of_getLsbD_eq
    intro i hi
    have := hn ⟨i, hi⟩
    simp only [BitVec.getLsbD_and, BitVec.getLsbD_not, hi, decide_true, Bool.true_and, BitVec.ofNat_eq_ofNat,
      BitVec.getLsbD_zero]
    cases h1 : new.getLsbD i
    · simp
    · simp [this h1] at *
  · rintro ⟨c, h1, h2⟩ h
    have := congrArg (fun w : Byte => w.getLsbD c.val) h
    simp [h1] at this
    simp [this] at h2

/-- R154. -/
theorem setupSkips_iff (g : SetupGuard) (k : Channel) :
    setupSkips g k = true ↔
      g = .skipIfEnabled ∧ k.hdmaEnable = true ∨ g = .skipIfDisabled ∧ k.hdmaEnable = false := by
  cases g <;> simp [setupSkips]

end Sys2Proof.Machine
end

