-- ==== Sys2Proof/Laws/PerInstr.lean ====
section
/-! SUPPORT. The families that are proved constructor by constructor (LAWS.json). -/

/-- The encoding of a transaction is no reserved encoding (30_encoding.md R95, R98). -/
def Sys2Proof.Laws.EncodingWellFormed.Statement (i : Sys2Proof.Instr) : Prop := (Sys2Proof.encode i).wf = true

namespace Sys2Proof.Laws.EncodingWellFormed

/-- The 32 register headers, for every channel. -/
theorem reg_wf : ∀ (r : Reg) (c : Chan),
    (Txn.mk (r.offset.setWidth 16 ||| chBits c) 0).wf = true ∧
    (Txn.mk ((0x1000 ||| r.offset.setWidth 16) ||| chBits c) 0).wf = true := by
  intro r
  cases r <;> decide

theorem wrCtrl (c : Chan) (v : Byte) : Statement (.wrCtrl c v) := (reg_wf .ctrl c).1

theorem wrTgt (c : Chan) (v : Byte) : Statement (.wrTgt c v) := (reg_wf .tgt c).1

theorem wrSrcl (c : Chan) (v : Byte) : Statement (.wrSrcl c v) := (reg_wf .srcl c).1

theorem wrSrch (c : Chan) (v : Byte) : Statement (.wrSrch c v) := (reg_wf .srch c).1

theorem wrSrcb (c : Chan) (v : Byte) : Statement (.wrSrcb c v) := (reg_wf .srcb c).1

theorem wrSizel (c : Chan) (v : Byte) : Statement (.wrSizel c v) := (reg_wf .sizel c).1

theorem wrSizeh (c : Chan) (v : Byte) : Statement (.wrSizeh c v) := (reg_wf .sizeh c).1

theorem wrIbank (c : Chan) (v : Byte) : Statement (.wrIbank c v) := (reg_wf .ibank c).1

theorem wrHadrl (c : Chan) (v : Byte) : Statement (.wrHadrl c v) := (reg_wf .hadrl c).1

theorem wrHadrh (c : Chan) (v : Byte) : Statement (.wrHadrh c v) := (reg_wf .hadrh c).1

theorem wrLine (c : Chan) (v : Byte) : Statement (.wrLine c v) := (reg_wf .line c).1

theorem wrScrb (c : Chan) (v : Byte) : Statement (.wrScrb c v) := (reg_wf .scrb c).1

theorem wrRsvc (c : Chan) (v : Byte) : Statement (.wrRsvc c v) := (reg_wf .rsvc c).1

theorem wrRsvd (c : Chan) (v : Byte) : Statement (.wrRsvd c v) := (reg_wf .rsvd c).1

theorem wrRsve (c : Chan) (v : Byte) : Statement (.wrRsve c v) := (reg_wf .rsve c).1

theorem wrScrf (c : Chan) (v : Byte) : Statement (.wrScrf c v) := (reg_wf .scrf c).1

theorem rdCtrl (c : Chan) : Statement (.rdCtrl c) := (reg_wf .ctrl c).2

theorem rdTgt (c : Chan) : Statement (.rdTgt c) := (reg_wf .tgt c).2

theorem rdSrcl (c : Chan) : Statement (.rdSrcl c) := (reg_wf .srcl c).2

theorem rdSrch (c : Chan) : Statement (.rdSrch c) := (reg_wf .srch c).2

theorem rdSrcb (c : Chan) : Statement (.rdSrcb c) := (reg_wf .srcb c).2

theorem rdSizel (c : Chan) : Statement (.rdSizel c) := (reg_wf .sizel c).2

theorem rdSizeh (c : Chan) : Statement (.rdSizeh c) := (reg_wf .sizeh c).2

theorem rdIbank (c : Chan) : Statement (.rdIbank c) := (reg_wf .ibank c).2

theorem rdHadrl (c : Chan) : Statement (.rdHadrl c) := (reg_wf .hadrl c).2

theorem rdHadrh (c : Chan) : Statement (.rdHadrh c) := (reg_wf .hadrh c).2

theorem rdLine (c : Chan) : Statement (.rdLine c) := (reg_wf .line c).2

theorem rdScrb (c : Chan) : Statement (.rdScrb c) := (reg_wf .scrb c).2

theorem rdRsvc (c : Chan) : Statement (.rdRsvc c) := (reg_wf .rsvc c).2

theorem rdRsvd (c : Chan) : Statement (.rdRsvd c) := (reg_wf .rsvd c).2

theorem rdRsve (c : Chan) : Statement (.rdRsve c) := (reg_wf .rsve c).2

theorem rdScrf (c : Chan) : Statement (.rdScrf c) := (reg_wf .scrf c).2

theorem enDma (m : Byte) : Statement (.enDma m) :=
  (by decide : (Txn.mk 0x2000 0).wf = true)

theorem enHdma (m : Byte) : Statement (.enHdma m) :=
  (by decide : (Txn.mk 0x3000 0).wf = true)

theorem dmarun : Statement .dmarun := rfl

theorem hdmarun : Statement .hdmarun := rfl

theorem hdmasetup : Statement .hdmasetup := rfl

theorem reset : Statement .reset := rfl

theorem hfin : Statement .hfin := rfl

end Sys2Proof.Laws.EncodingWellFormed
end

