-- ==== Sys2Proof/Laws/Reads.lean ====
section
/-! SUPPORT. The operations that write nothing to the bus: Reload and all that is made of it, whatever the host does
meanwhile (41_hdma.md R155: "the bus (reads only)"). -/

namespace Sys2Proof.Machine

/-- The events added to the trace hold no bus write. -/
def ReadsOnly (s t : State) : Prop := ∃ es, t.trace = s.trace ++ es ∧ ∀ a v, PortEvent.write a v ∉ es

theorem ReadsOnly.of_trace {s t : State} (h : t.trace = s.trace) : ReadsOnly s t := ⟨[], by simp [h], by simp⟩

theorem ReadsOnly.refl (s : State) : ReadsOnly s s := .of_trace rfl

theorem ReadsOnly.trans {s t u : State} (h : ReadsOnly s t) (k : ReadsOnly t u) : ReadsOnly s u := by
  obtain ⟨es, h1, h2⟩ := h
  obtain ⟨fs, k1, k2⟩ := k
  exact ⟨es ++ fs, by rw [k1, h1, List.append_assoc], fun a v hm => (List.mem_append.1 hm).elim (h2 a v) (k2 a v)⟩

theorem readsOnly_charge (n : Nat) (s : State) : ReadsOnly s (charge n s) := ⟨[.charge n], rfl, by simp⟩

theorem readsOnly_abusRead (a : Addr) (s : State) : ReadsOnly s (abusRead a s).2 := by
  unfold abusRead
  split
  · exact .refl s
  · obtain ⟨-, h, -⟩ := memRead_frame a s
    exact ⟨[.read a (nextByte s)], h, by simp⟩

theorem readsOnly_tableByte (c : Chan) (s : State) : ReadsOnly s (tableByte c s).2 :=
  ((readsOnly_charge 8 s).trans (readsOnly_abusRead _ _)).trans (.of_trace rfl)

theorem readsOnly_loadPointer (c : Chan) (s : State) : ReadsOnly s (loadPointer c s) :=
  ((readsOnly_tableByte c s).trans (readsOnly_tableByte c _)).trans (.of_trace rfl)

theorem readsOnly_reload (c : Chan) (s : State) : ReadsOnly s (reload c s) := by
  have h : ReadsOnly s (loadCount c (tableByte c s).1 (tableByte c s).2) :=
    (readsOnly_tableByte c s).trans (.of_trace rfl)
  unfold reload
  simp only
  split
  · split
    · exact h.trans (readsOnly_loadPointer c _)
    · exact h
  · exact .refl s

theorem readsOnly_setup (c : Chan) (s : State) : ReadsOnly s (setup c s) := by
  have h : ReadsOnly s (s.modCh c fun k => { k with hdmaDoTransfer := true }) := .of_trace rfl
  unfold setup
  simp only
  split
  · exact h
  · exact (h.trans (.of_trace rfl)).trans (readsOnly_reload c _)

theorem readsOnly_advance (c : Chan) (s : State) : ReadsOnly s (advance c s) := by
  unfold advance
  split
  · exact ReadsOnly.trans (.of_trace rfl) (readsOnly_reload c _)
  · exact .refl s

/-- An HDMASETUP's orchestration writes nothing to the bus (42_controller.md R218). -/
theorem readsOnly_doHdmaSetup (s : State) : ReadsOnly s (doHdmaSetup s) :=
  (readsOnly_charge s.cfg.kHsetup s).trans
    ((forChannels_rel ReadsOnly.refl (fun _ _ _ => ReadsOnly.trans) readsOnly_setup
      (charge s.cfg.kHsetup { s with running := true })).trans (.of_trace rfl))

end Sys2Proof.Machine
end

