-- ==== Sys2Proof/Laws/Step.lean ====
section
/-! SUPPORT. All that a transaction and a step can do outside the channels, packaged once: a relation that holds of the host's
transactions and of the orchestrations, and composes, holds of every transaction and of every step. Beside it, what a pass
over the channels does when each visit changes its own channel only. -/

namespace Sys2Proof.Machine

theorem command_rel {R : State → State → Prop} (htrans : ∀ s t u, R s t → R t u → R s u)
    (hhost : ∀ s t, HostOnly s t → R s t) {f : State → State} (hf : ∀ s, R s (f s)) (s : State) : R s (command f s) := by
  unfold command
  split
  · exact hhost _ _ (hostOnly_refuse _ _)
  · exact htrans _ _ _ (hf s) (hhost _ _ (hostOnly_reply _ _))

/-- Every transaction is made of host transactions and orchestrations. -/
theorem exec_rel {R : State → State → Prop} (htrans : ∀ s t u, R s t → R t u → R s u)
    (hhost : ∀ s t, HostOnly s t → R s t) (horch : ∀ s t, Orchestrated s t → R s t) {i : Instr} {s t : State}
    (h : exec i s = .next t) : R s t := by
  induction i using Instr.byGroup with
  | wr r c v =>
    rw [exec_wrInstr] at h
    cases h
    exact hhost _ _ (hostOnly_writePage _ _ _ _)
  | rd r c =>
    rw [exec_rdInstr] at h
    cases h
    exact hhost _ _ (hostOnly_readPage _ _ _)
  | enDma m =>
    rw [exec_enDma] at h
    cases h
    refine htrans _ _ _ ?_ (hhost _ _ (hostOnly_reply _ _))
    unfold enableDma
    split
    · exact htrans _ _ _ (hhost _ _ (hostOnly_assignEnable m s)) (horch _ _ (orchestrated_doDmaRun _))
    · exact hhost _ _ (hostOnly_assignEnable m s)
  | enHdma m =>
    rw [exec_enHdma] at h
    cases h
    exact hhost _ _ ((hostOnly_assignHdmaEnable m s).trans (hostOnly_reply _ _))
  | dmarun =>
    rw [exec_dmarun] at h
    cases h
    exact command_rel htrans hhost (fun s => horch _ _ (orchestrated_doDmaRun s)) s
  | hdmarun =>
    rw [exec_hdmarun] at h
    cases h
    exact command_rel htrans hhost (fun s => horch _ _ (orchestrated_doHdmaRun s)) s
  | hdmasetup =>
    rw [exec_hdmasetup] at h
    cases h
    exact command_rel htrans hhost (fun s => horch _ _ (orchestrated_doHdmaSetup s)) s
  | reset =>
    rw [exec_reset] at h
    cases h
    exact command_rel htrans hhost (fun s => hhost _ _ (hostOnly_resetChannels s)) s
  | hfin =>
    rw [exec_hfin] at h
    cases h
    exact hhost _ _ (hostOnly_answerFinished _)

/-- Every step is idle, a refusal, or a transaction, after its request is taken. -/
theorem step_rel {R : State → State → Prop} (hrefl : ∀ s, R s s) (htrans : ∀ s t u, R s t → R t u → R s u)
    (hhost : ∀ s t, HostOnly s t → R s t) (horch : ∀ s t, Orchestrated s t → R s t)
    (htake : ∀ s rest, R s (s.takeRequest rest)) {s t : State} (h : step s = .next t) : R s t := by
  unfold step at h
  split at h
  · cases h
    exact hrefl s
  · split at h
    · exact htrans _ _ _ (htake _ _) (exec_rel htrans hhost horch h)
    · cases h
      exact htrans _ _ _ (htake _ _) (hhost _ _ (hostOnly_refuse _ _))

/-- A pass over the channels: where each visit keeps `P`, changes no other channel, and takes its own channel from a `G` to
an `R`-related one, the pass does so with every channel. -/
theorem pass_rel {f : Chan → State → State} (P : State → Prop) (G : Channel → Prop) (R : Channel → Channel → Prop)
    (hf : ∀ c s, P s → G (s.ch c) → P (f c s) ∧ R (s.ch c) ((f c s).ch c) ∧ ∀ d, d ≠ c → (f c s).ch d = s.ch d)
    (s : State) (hp : P s) (hg : ∀ d, G (s.ch d)) :
    P (forChannels f s) ∧ ∀ d, R (s.ch d) ((forChannels f s).ch d) := by
  have go : ∀ (cs : List Chan) (s : State), P s → (∀ d ∈ cs, G (s.ch d)) → cs.Nodup →
      P (cs.foldl (fun s c => f c s) s) ∧ (∀ d ∈ cs, R (s.ch d) ((cs.foldl (fun s c => f c s) s).ch d)) ∧
      ∀ d, d ∉ cs → (cs.foldl (fun s c => f c s) s).ch d = s.ch d := by
    intro cs
    induction cs with
    | nil =>
      intro s hp _ _
      simp [hp]
    | cons c cs ih =>
      intro s hp hg hn
      obtain ⟨f1, f2, f3⟩ := hf c s hp (hg c (by simp))
      rw [List.nodup_cons] at hn
      have hne : ∀ d ∈ cs, d ≠ c := by
        rintro d hd rfl
        exact hn.1 hd
      obtain ⟨g1, g2, g3⟩ := ih (f c s) f1 (fun d hd => by rw [f3 d (hne d hd)]; exact hg d (by simp [hd])) hn.2
      simp only [List.foldl_cons]
      refine ⟨g1, fun d hd => ?_, fun d hd => ?_⟩
      · rcases List.mem_cons.mp hd with rfl | hd
        · rw [g3 d hn.1]
          exact f2
        · have := g2 d hd
          rwa [f3 d (hne d hd)] at this
      · rw [List.mem_cons, not_or] at hd
        rw [g3 d hd.2, f3 d hd.1]
  have hm : ∀ j : Chan, j ∈ channelOrder := by decide
  obtain ⟨a, b, _⟩ := go channelOrder s hp (fun d _ => hg d) (by decide)
  exact ⟨a, fun d => b d (hm d)⟩

end Sys2Proof.Machine
end

