-- ==== Sys2Proof/Tests/Slice0.lean ====
section
/-! SUPPORT. Tests: ill-formed terms the checks refuse, words written out from the encoding, the source's and the spec's
vectors (95_test_vectors.md, and the examples of the rules), one step or one procedure each; then, for every obligation with
hypotheses, concrete values that meet them. -/

namespace Sys2Proof.Tests
open Sys2Proof Sys2Proof.Machine

/-! ### Helpers -/

/-- The default parameters, with numbers for the three OPEN overheads so that a test can be evaluated. -/
def testCfg : Config := { defaultConfig with kDma := 100, kHrun := 200, kHsetup := 300 }

/-- The power-on state with channel 0 as given, and a bus that answers the bytes given. -/
def start (k : Channel) (bytes : List Byte) : State :=
  { State.reset with
    cfg := testCfg, channels := State.reset.channels.set 0 k, turns := bytes.map fun b => ⟨[], b⟩ }

theorem quiet_start (k : Channel) (bytes : List Byte) : (start k bytes).quiet := by
  intro t h
  obtain ⟨b, -, rfl⟩ := List.mem_map.1 h
  rfl

/-- The state after the step that runs the table word w (bits 15:0 the header, bits 23:16 the data byte). -/
def ran (w : Nat) (s : State) : State :=
  match step (s.withFetchWord 24 w) with
  | .next t => t
  | .fault _ => s
  | .refused _ => s

/-- A general DMA channel with source 7E:1000. -/
def dmaChan (size : Half) (target : Byte) : Channel :=
  { zeroChannel with enable := true, transferSize := size, targetAddress := target, sourceBank := 0x7E,
                     sourceAddress := 0x1000 }

/-- An HDMA-active channel: source 7E:3000, table at 7E:4000. -/
def hdmaChan (mode : BitVec 3) (line : Byte) : Channel :=
  { zeroChannel with hdmaEnable := true, hdmaDoTransfer := true, transferMode := mode, targetAddress := 0x10,
                     sourceBank := 0x7E, sourceAddress := 0x3000, hdmaAddress := 0x4000, lineCounter := line }

/-- A channel with a value of its own in every register. -/
def regChan : Channel :=
  { zeroChannel with
    direction := true, indirect := true, transferMode := 7, targetAddress := 0x18, sourceAddress := 0x1234,
    sourceBank := 0x7E, transferSize := 0xAB04, indirectBank := 0x7F, hdmaAddress := 0x5003, lineCounter := 0xA9,
    scratch := 0x5A }

/-- What a decoder's answer is, as data that can be compared. -/
def decoded (h : BitVec 16) (v : Byte) : Option Instr := decodeTableWord 24 (h.toNat + v.toNat * 0x10000)

/-! ### Well-formedness: one ill-formed term for each check -/

theorem test_wf_reserved_bits : (Txn.mk 0x0080 0).wf = false ∧ (Txn.mk 0x0080 0).reservedClear = false := by decide
theorem test_wf_reserved_kind : (Txn.mk 0x9000 0).wf = false ∧ (Txn.mk 0x9000 0).kindDefined = false := by decide
theorem test_wf_operand_bits : (Txn.mk 0x2001 0).wf = false ∧ (Txn.mk 0x2001 0).operandsClear = false := by decide
theorem test_wf_accepts : (Txn.mk 0x107F 0xFF).wf = true ∧ (Txn.mk 0x8000 0xFF).wf = true := by decide

theorem test_pseudo_channel_range :
    (Pseudo.wr16Src 8 0).wf = false ∧ (Pseudo.wr24Src 8 0).wf = false ∧ (Pseudo.wr16Size 8 0).wf = false ∧
    (Pseudo.wr16Hadr 8 0).wf = false ∧ (Pseudo.wrCtrlF 8 0 0 0 0).wf = false ∧ (Pseudo.rd16Size 8).wf = false ∧
    (Pseudo.rd16Src 8).wf = false ∧ (Pseudo.rd16Hadr 8).wf = false := by decide
theorem test_pseudo_immediate_range :
    (Pseudo.wr16Src 0 0x10000).wf = false ∧ (Pseudo.wr24Src 0 0x1000000).wf = false ∧
    (Pseudo.wr16Size 0 0x10000).wf = false ∧ (Pseudo.wr16Hadr 0 0x10000).wf = false := by decide
theorem test_pseudo_field_range :
    (Pseudo.wrCtrlF 0 2 0 0 0).wf = false ∧ (Pseudo.wrCtrlF 0 0 2 0 0).wf = false ∧
    (Pseudo.wrCtrlF 0 0 0 2 0).wf = false ∧ (Pseudo.wrCtrlF 0 0 0 0 8).wf = false := by decide

/-! ### Decoding: each constructor's word, written out from 30_encoding.md R91 to R93 -/

theorem test_decode_writes :
    decoded 0b0000_00000_000_0000 0x11 = some (.wrCtrl 0 0x11) ∧
    decoded 0b0000_00000_001_0001 0x12 = some (.wrTgt 1 0x12) ∧
    decoded 0b0000_00000_010_0010 0x13 = some (.wrSrcl 2 0x13) ∧
    decoded 0b0000_00000_011_0011 0x14 = some (.wrSrch 3 0x14) ∧
    decoded 0b0000_00000_100_0100 0x15 = some (.wrSrcb 4 0x15) ∧
    decoded 0b0000_00000_101_0101 0x16 = some (.wrSizel 5 0x16) ∧
    decoded 0b0000_00000_110_0110 0x17 = some (.wrSizeh 6 0x17) ∧
    decoded 0b0000_00000_111_0111 0x18 = some (.wrIbank 7 0x18) ∧
    decoded 0b0000_00000_000_1000 0x19 = some (.wrHadrl 0 0x19) ∧
    decoded 0b0000_00000_001_1001 0x1A = some (.wrHadrh 1 0x1A) ∧
    decoded 0b0000_00000_010_1010 0x1B = some (.wrLine 2 0x1B) ∧
    decoded 0b0000_00000_011_1011 0x1C = some (.wrScrb 3 0x1C) ∧
    decoded 0b0000_00000_100_1100 0x1D = some (.wrRsvc 4 0x1D) ∧
    decoded 0b0000_00000_101_1101 0x1E = some (.wrRsvd 5 0x1E) ∧
    decoded 0b0000_00000_110_1110 0x1F = some (.wrRsve 6 0x1F) ∧
    decoded 0b0000_00000_111_1111 0x20 = some (.wrScrf 7 0x20) := by decide

theorem test_decode_reads :
    decoded 0b0001_00000_000_0000 0x00 = some (.rdCtrl 0) ∧
    decoded 0b0001_00000_001_0001 0x00 = some (.rdTgt 1) ∧
    decoded 0b0001_00000_010_0010 0x00 = some (.rdSrcl 2) ∧
    decoded 0b0001_00000_011_0011 0x00 = some (.rdSrch 3) ∧
    decoded 0b0001_00000_100_0100 0x00 = some (.rdSrcb 4) ∧
    decoded 0b0001_00000_101_0101 0x00 = some (.rdSizel 5) ∧
    decoded 0b0001_00000_110_0110 0x00 = some (.rdSizeh 6) ∧
    decoded 0b0001_00000_111_0111 0x00 = some (.rdIbank 7) ∧
    decoded 0b0001_00000_000_1000 0xFF = some (.rdHadrl 0) ∧
    decoded 0b0001_00000_001_1001 0xFF = some (.rdHadrh 1) ∧
    decoded 0b0001_00000_010_1010 0xFF = some (.rdLine 2) ∧
    decoded 0b0001_00000_011_1011 0xFF = some (.rdScrb 3) ∧
    decoded 0b0001_00000_100_1100 0xFF = some (.rdRsvc 4) ∧
    decoded 0b0001_00000_101_1101 0xFF = some (.rdRsvd 5) ∧
    decoded 0b0001_00000_110_1110 0xFF = some (.rdRsve 6) ∧
    decoded 0b0001_00000_111_1111 0xFF = some (.rdScrf 7) := by decide

theorem test_decode_commands :
    decoded 0b0010_00000_000_0000 0x81 = some (.enDma 0x81) ∧
    decoded 0b0011_00000_000_0000 0xFE = some (.enHdma 0xFE) ∧
    decoded 0b0100_00000_000_0000 0x00 = some .dmarun ∧
    decoded 0b0101_00000_000_0000 0x01 = some .hdmarun ∧
    decoded 0b0110_00000_000_0000 0x02 = some .hdmasetup ∧
    decoded 0b0111_00000_000_0000 0x03 = some .reset ∧
    decoded 0b1000_00000_000_0000 0x04 = some .hfin := by decide

/-- The Invalid rows of 95_test_vectors.md 2.1. -/
theorem test_decode_invalid :
    [0x0080, 0x0800, 0x1080, 0x2001, 0x2010, 0x4080, 0x8001, 0x9000, 0xF000, 0xFFFF].all
      (fun h => decoded h 0 == none) = true := by decide

/-- Encoding: the headers the examples of 42_controller.md give. -/
theorem test_encode_examples :
    encode (.wrIbank 3 0x7F) = ⟨0x0037, 0x7F⟩ ∧ encode (.rdScrf 6) = ⟨0x106F, 0⟩ ∧
    encode (.wrScrb 6 0x5A) = ⟨0x006B, 0x5A⟩ ∧ encode .hdmasetup = ⟨0x6000, 0⟩ := by decide

/-- The mapping of 30_encoding.md R99, at the ends of the page. -/
theorem test_host_mapping :
    hostWrite testCfg 0x004300 0x5A = some ⟨0x0000, 0x5A⟩ ∧ hostRead testCfg 0x00437F = some ⟨0x107F, 0⟩ ∧
    hostWrite testCfg 0x0042FF 0x5A = none ∧ hostRead testCfg 0x004380 = none ∧
    hostWriteDmaEn 0x01 = ⟨0x2000, 0x01⟩ ∧ hostWriteHdmaEn 0xFD = ⟨0x3000, 0xFD⟩ := by decide

/-- Lines of the programs of 95_test_vectors.md 3 and lines R101 does not allow. -/
theorem test_assembler_lines :
    asmRead "WR.CTRL  2, #0x80     ; mode 0" = some (.wrCtrl 2 0x80) ∧ asmRead "RD.HADRL 1" = some (.rdHadrl 1) ∧
    asmRead "EN.HDMA  #253" = some (.enHdma 0xFD) ∧ asmRead "HDMASETUP" = some .hdmasetup ∧
    asmRead "RD.TGT 8" = none ∧ asmRead "EN.DMA #256" = none ∧ asmRead "WR.RD 0, #0x00" = none ∧
    asmLine (.wrSizel 1 0x04) = "WR.SIZEL 1, #0x04" ∧ asmEncoding (encode (.wrSizel 1 0x04)) = "hdr=0x0015 din=0x04" := by
  decide

/-- The expansions of 30_encoding.md R102, low byte first. -/
theorem test_pseudo_expansion :
    expand (.wr24Src 1 0x7E3000) = some [.wrSrcl 1 0x00, .wrSrch 1 0x30, .wrSrcb 1 0x7E] ∧
    expand (.wrCtrlF 0 1 1 0 7) = some [.wrCtrl 0 0xC7] ∧ expand (.rd16Src 2) = some [.rdSrcl 2, .rdSrch 2] ∧
    expand (.wr16Size 8 0) = none := by decide

/-! ### Register transactions: the examples of 42_controller.md, from the words they give -/

theorem test_wrCtrl : (ran 0xC70000 State.reset).ch 0 =
    { zeroChannel with transferMode := 7, indirect := true, direction := true } := by decide
theorem test_wrTgt : (ran 0x180001 State.reset).ch 0 = { zeroChannel with targetAddress := 0x18 } := by decide
theorem test_wrSrcl : (ran 0x340002 (start { zeroChannel with sourceAddress := 0x12FF } [])).ch 0 =
    { zeroChannel with sourceAddress := 0x1234 } := by decide
theorem test_wrSrch : (ran 0x120003 (start { zeroChannel with sourceAddress := 0x0034 } [])).ch 0 =
    { zeroChannel with sourceAddress := 0x1234 } := by decide
theorem test_wrSrcb : (ran 0x7E0004 State.reset).ch 0 = { zeroChannel with sourceBank := 0x7E } := by decide
theorem test_wrSizel : (ran 0x040005 (start { zeroChannel with transferSize := 0xAB00 } [])).ch 0 =
    { zeroChannel with transferSize := 0xAB04 } := by decide
theorem test_wrSizeh : (ran 0x000006 (start { zeroChannel with transferSize := 0xAB04 } [])).ch 0 =
    { zeroChannel with transferSize := 0x0004 } := by decide
theorem test_wrIbank : (ran 0x7F0037 State.reset).ch 3 = { zeroChannel with indirectBank := 0x7F } := by decide
theorem test_wrHadrl : (ran 0x100008 (start { zeroChannel with hdmaAddress := 0x4000 } [])).ch 0 =
    { zeroChannel with hdmaAddress := 0x4010 } := by decide
theorem test_wrHadrh : (ran 0x500009 (start { zeroChannel with hdmaAddress := 0x4010 } [])).ch 0 =
    { zeroChannel with hdmaAddress := 0x5010 } := by decide
theorem test_wrLine : (ran 0x83005A State.reset).ch 5 = { zeroChannel with lineCounter := 0x83 } := by decide
theorem test_wrScrb : (ran 0x5A006B State.reset).ch 6 = { zeroChannel with scratch := 0x5A } := by decide
theorem test_wrRsvc : ran 0xFF000C (start regChan []) = reply .done (start regChan []) := by decide
theorem test_wrRsvd : ran 0xFF000D (start regChan []) = reply .done (start regChan []) := by decide
theorem test_wrRsve : ran 0xFF000E (start regChan []) = reply .done (start regChan []) := by decide
theorem test_wrScrf : (ran 0x11001F State.reset).ch 1 = { zeroChannel with scratch := 0x11 } := by decide

theorem test_rdCtrl_bitwise : (ran 0x1000 (start regChan [])).replies = [.data 0xC7] := by decide
theorem test_rdCtrl_collapse :
    (ran 0x1000 { start regChan [] with cfg := { testCfg with ctrlReadback := .collapse } }).replies = [.data 0x47] := by
  decide
theorem test_rdTgt : (ran 0x1001 (start regChan [])).replies = [.data 0x18] := by decide
theorem test_rdSrcl : (ran 0x1002 (start regChan [])).replies = [.data 0x34] := by decide
theorem test_rdSrch : (ran 0x1003 (start regChan [])).replies = [.data 0x12] := by decide
theorem test_rdSrcb : (ran 0x1004 (start regChan [])).replies = [.data 0x7E] := by decide
theorem test_rdSizel : (ran 0x1005 (start regChan [])).replies = [.data 0x04] := by decide
theorem test_rdSizeh : (ran 0x1006 (start regChan [])).replies = [.data 0xAB] := by decide
theorem test_rdIbank : (ran 0x1007 (start regChan [])).replies = [.data 0x7F] := by decide
theorem test_rdHadrl : (ran 0x1008 (start regChan [])).replies = [.data 0x03] := by decide
theorem test_rdHadrh : (ran 0x1009 (start regChan [])).replies = [.data 0x50] := by decide
theorem test_rdLine : (ran 0x100A (start regChan [])).replies = [.data 0xA9] := by decide
theorem test_rdScrb : (ran 0x100B (start regChan [])).replies = [.data 0x5A] := by decide
theorem test_rdRsvc : (ran 0x100C (start regChan [])).replies = [.data 0x00] := by decide
theorem test_rdRsvd : (ran 0x100D (start regChan [])).replies = [.data 0x00] := by decide
theorem test_rdRsve : (ran 0x100E (start regChan [])).replies = [.data 0x00] := by decide
theorem test_rdScrf : (ran 0x100F (start regChan [])).replies = [.data 0x5A] := by decide

/-- The table of 95_test_vectors.md 2.6: the byte written, and CTRL read back under the two policies. -/
theorem test_ctrl_readback :
    [((0x00 : Byte), (0x00 : Byte), (0x00 : Byte)), (0x80, 0x80, 0x80), (0x40, 0x40, 0x40), (0xC0, 0xC0, 0x40),
     (0xC7, 0xC7, 0x47), (0xFF, 0xFF, 0x7F), (0x3F, 0x3F, 0x3F), (0xBF, 0xBF, 0xBF), (0x87, 0x87, 0x87)].all
      (fun p => (zeroChannel.setCtrl p.1).ctrlByte .bitwise == p.2.1 && (zeroChannel.setCtrl p.1).ctrlByte .collapse == p.2.2)
    = true := by decide

/-! ### Address predicates and the mode decoder: S1, S5, 2.2, 2.3 of 95_test_vectors.md -/

theorem test_gate :
    [(0x002140 : Addr), 0x004200, 0x004305, 0x002100, 0x0021FF, 0x802140, 0xBF2100, 0x004016, 0x0041FF, 0x00421F, 0x004300,
     0x00437F, 0x3F4300].all (gated defaultConfig) = true ∧
    [(0x001234 : Addr), 0x002200, 0x7E2100, 0xC02100, 0x004220, 0x004380, 0x404300, 0x7E4300].all
      (validA defaultConfig) = true := by decide

theorem test_wram :
    [(0x7E0000 : Addr), 0x7FFFFF, 0x7E2000, 0x000000, 0x001FFF, 0x800100, 0xBF1FFF].all (inWram defaultConfig) = true ∧
    [(0x002000 : Addr), 0x400000, 0x7D0000, 0xC00000, 0x018000].all (fun a => !inWram defaultConfig a) = true := by decide

/-- B-offsets of a mode at byte indices 0 to n - 1. -/
def offsets (mask : Mode4Mask) (mode : BitVec 3) (target : Byte) (n : Nat) : List Byte :=
  (List.range n).map (bOffset mask mode target)

theorem test_mode_patterns :
    offsets .full 0 0x10 8 = [0x10, 0x10, 0x10, 0x10, 0x10, 0x10, 0x10, 0x10] ∧
    offsets .full 1 0x10 8 = [0x10, 0x11, 0x10, 0x11, 0x10, 0x11, 0x10, 0x11] ∧
    offsets .full 2 0x10 8 = [0x10, 0x10, 0x10, 0x10, 0x10, 0x10, 0x10, 0x10] ∧
    offsets .full 3 0x10 8 = [0x10, 0x10, 0x11, 0x11, 0x10, 0x10, 0x11, 0x11] ∧
    offsets .full 4 0x10 8 = [0x10, 0x11, 0x12, 0x13, 0x14, 0x15, 0x16, 0x17] ∧
    offsets .low2 4 0x10 8 = [0x10, 0x11, 0x12, 0x13, 0x10, 0x11, 0x12, 0x13] ∧
    offsets .full 5 0x10 8 = [0x10, 0x11, 0x10, 0x11, 0x10, 0x11, 0x10, 0x11] ∧
    offsets .full 6 0x10 8 = [0x10, 0x10, 0x10, 0x10, 0x10, 0x10, 0x10, 0x10] ∧
    offsets .full 7 0x10 8 = [0x10, 0x10, 0x11, 0x11, 0x10, 0x10, 0x11, 0x11] := by decide

theorem test_mode_wraps :
    offsets .full 1 0xFF 4 = [0xFF, 0x00, 0xFF, 0x00] ∧ offsets .full 4 0xFE 4 = [0xFE, 0xFF, 0x00, 0x01] ∧
    offsets .full 3 0xFF 4 = [0xFF, 0xFF, 0x00, 0x00] := by decide

/-! ### General DMA: S2, S3 and 2.4 of 95_test_vectors.md -/

/-- S2. -/
theorem test_dma_four_bytes :
    accessesOf (runGeneralDma 0 (start (dmaChan 4 0x18) [0x11, 0, 0x22, 0, 0x33, 0, 0x44, 0])).trace =
      [.read 0x7E1000 0x11, .write 0x002118 0x11, .read 0x7E1001 0x22, .write 0x002118 0x22,
       .read 0x7E1002 0x33, .write 0x002118 0x33, .read 0x7E1003 0x44, .write 0x002118 0x44] ∧
    (runGeneralDma 0 (start (dmaChan 4 0x18) [0x11, 0, 0x22, 0, 0x33, 0, 0x44, 0])).ch 0 =
      { dmaChan 0 0x18 with enable := false, sourceAddress := 0x1004 } ∧
    (runGeneralDma 0 (start (dmaChan 4 0x18) [0x11, 0, 0x22, 0, 0x33, 0, 0x44, 0])).cycles = 40 := by decide

/-- S3 and T2. -/
theorem test_dma_zero_size :
    (runGeneralDma 0 (start (dmaChan 0 0x18) [])).trace = [.charge 8] ∧
    (runGeneralDma 0 (start (dmaChan 0 0x18) [])).ch 0 = { dmaChan 0 0x18 with enable := false } := by decide

/-- T1. -/
theorem test_dma_disabled :
    runGeneralDma 0 (start { dmaChan 4 0x18 with enable := false } []) = start { dmaChan 4 0x18 with enable := false } [] := by
  decide

/-- T3. -/
theorem test_dma_fixed :
    accessesOf (runGeneralDma 0 (start { dmaChan 3 0x04 with fixedTransfer := true } [0x9C, 0, 0x9C, 0, 0x9C, 0])).trace =
      [.read 0x7E1000 0x9C, .write 0x002104 0x9C, .read 0x7E1000 0x9C, .write 0x002104 0x9C,
       .read 0x7E1000 0x9C, .write 0x002104 0x9C] ∧
    ((runGeneralDma 0 (start { dmaChan 3 0x04 with fixedTransfer := true } [0x9C, 0, 0x9C, 0, 0x9C, 0])).ch 0).sourceAddress =
      0x1000 := by decide

/-- T4. -/
theorem test_dma_source_wraps :
    accessesOf (runGeneralDma 0 (start { dmaChan 2 0x18 with sourceAddress := 0xFFFF } [0x01, 0, 0x02, 0])).trace =
      [.read 0x7EFFFF 0x01, .write 0x002118 0x01, .read 0x7E0000 0x02, .write 0x002118 0x02] ∧
    (runGeneralDma 0 (start { dmaChan 2 0x18 with sourceAddress := 0xFFFF } [0x01, 0, 0x02, 0])).ch 0 =
      { dmaChan 0 0x18 with enable := false, sourceAddress := 0x0001 } := by decide

/-- T5. -/
theorem test_dma_gated_read :
    (runGeneralDma 0 (start { dmaChan 1 0x19 with sourceBank := 0x00, sourceAddress := 0x2118 } [])).trace =
      [.charge 8, .charge 8, .write 0x002119 0x00] := by decide

/-- T6. -/
theorem test_dma_gated_write :
    (runGeneralDma 0 (start { dmaChan 1 0x39 with direction := true, sourceBank := 0x00, sourceAddress := 0x4300 }
      [0x55])).trace = [.charge 8, .charge 8, .read 0x002139 0x55] := by decide

/-- T7. -/
theorem test_dma_to_cartridge_through_80 :
    accessesOf (runGeneralDma 0 (start { dmaChan 2 0x80 with direction := true, sourceBank := 0x01, sourceAddress := 0x8000 }
      [0x66, 0, 0x66, 0])).trace =
      [.read 0x002180 0x66, .write 0x018000 0x66, .read 0x002180 0x66, .write 0x018001 0x66] := by decide

/-- T8. -/
theorem test_dma_conflict_drops_write :
    (runGeneralDma 0 (start { dmaChan 1 0x80 with sourceAddress := 0x0100 } [0x12])).trace =
      [.charge 8, .charge 8, .read 0x7E0100 0x12] := by decide

/-- T9. -/
theorem test_dma_offset_80_outside_wram :
    accessesOf (runGeneralDma 0 (start { dmaChan 1 0x80 with sourceBank := 0x01, sourceAddress := 0x8000 } [0x12, 0])).trace =
      [.read 0x018000 0x12, .write 0x002180 0x12] := by decide

/-- T10 and T11: the B-bus addresses under the two values of `mode4_mask`. -/
theorem test_dma_mode4 :
    ((runGeneralDma 0 (start { dmaChan 6 0x00 with transferMode := 4 } [1, 0, 2, 0, 3, 0, 4, 0, 5, 0, 6, 0])).trace.filterMap
      fun e => match e with | .write a _ => some a | .read _ _ => none | .charge _ => none) =
      [0x002100, 0x002101, 0x002102, 0x002103, 0x002104, 0x002105] ∧
    ((runGeneralDma 0 { start { dmaChan 6 0x00 with transferMode := 4 } [1, 0, 2, 0, 3, 0, 4, 0, 5, 0, 6, 0] with
      cfg := { testCfg with mode4Mask := .low2 } }).trace.filterMap
      fun e => match e with | .write a _ => some a | .read _ _ => none | .charge _ => none) =
      [0x002100, 0x002101, 0x002102, 0x002103, 0x002100, 0x002101] := by decide

/-- T13: `EN.DMA #0x00` during byte 1's A read. -/
theorem test_dma_stopped_by_disable :
    (runGeneralDma 0 { start (dmaChan 4 0x18) [] with turns := [⟨[], 0x11⟩, ⟨[], 0⟩, ⟨[⟨0x2000, 0x00⟩], 0x22⟩, ⟨[], 0⟩] }).ch 0
      = { dmaChan 2 0x18 with enable := false, sourceAddress := 0x1002 } ∧
    (runGeneralDma 0 { start (dmaChan 4 0x18) [] with
      turns := [⟨[], 0x11⟩, ⟨[], 0⟩, ⟨[⟨0x2000, 0x00⟩], 0x22⟩, ⟨[], 0⟩] }).cycles = 24 := by decide

/-- T14: the count written to 0 during byte 0 wraps, and the loop goes on. -/
theorem test_dma_size_wraps :
    ((dmaByte 0 0 { start (dmaChan 2 0x18) [] with
      turns := [⟨[⟨0x0005, 0x00⟩, ⟨0x0006, 0x00⟩], 0x11⟩, ⟨[], 0⟩] }).ch 0).transferSize = 0xFFFF ∧
    dmaStops 0 (dmaByte 0 0 { start (dmaChan 2 0x18) [] with
      turns := [⟨[⟨0x0005, 0x00⟩, ⟨0x0006, 0x00⟩], 0x11⟩, ⟨[], 0⟩] }) = false := by decide

/-- The example of 40_general_dma.md R128. -/
theorem test_transfer_example :
    (transfer 0 0x7E1001 1 (start { dmaChan 4 0x18 with transferMode := 1 } [0x22, 0])).trace =
      [.charge 8, .read 0x7E1001 0x22, .write 0x002119 0x22] := by decide

/-! ### HDMA: S4, S5, S9 and 2.5 of 95_test_vectors.md -/

/-- The channel of S4. -/
def s4Chan : Channel :=
  { zeroChannel with hdmaEnable := true, indirect := true, sourceBank := 0x7E, hdmaAddress := 0x4000, lineCounter := 0x01,
                     indirectAddress := 0xBEEF }

/-- S4 case a: channel 1 active. -/
theorem test_reload_chain_not_finished :
    (advance 0 ((start s4Chan [0x00, 0x34, 0x12]).modCh 1 fun k => { k with hdmaEnable := true })).ch 0 =
      { s4Chan with lineCounter := 0x00, hdmaCompleted := true, hdmaDoTransfer := false, indirectAddress := 0x1234,
                    hdmaAddress := 0x4003 } ∧
    (advance 0 ((start s4Chan [0x00, 0x34, 0x12]).modCh 1 fun k => { k with hdmaEnable := true })).trace =
      [.charge 8, .read 0x7E4000 0x00, .charge 8, .read 0x7E4001 0x34, .charge 8, .read 0x7E4002 0x12] := by decide

/-- S4 case b: channels 1 to 7 inactive. -/
theorem test_reload_chain_finished :
    (advance 0 (start s4Chan [0x00])).ch 0 =
      { s4Chan with lineCounter := 0x00, hdmaCompleted := true, hdmaDoTransfer := false, hdmaAddress := 0x4001 } ∧
    (advance 0 (start s4Chan [0x00])).trace = [.charge 8, .read 0x7E4000 0x00] := by decide

/-- S9. -/
theorem test_reload_indirect :
    (reload 0 (start { s4Chan with lineCounter := 0x00 } [0x05, 0x00, 0x20])).ch 0 =
      { s4Chan with lineCounter := 0x05, hdmaDoTransfer := true, indirectAddress := 0x2000, hdmaAddress := 0x4003 } ∧
    (reload 0 (start { s4Chan with lineCounter := 0x00 } [0x05, 0x00, 0x20])).cycles = 24 := by decide

/-- S5: Length. -/
theorem test_line_lengths : ([0, 1, 2, 3, 4, 5, 6, 7] : List (BitVec 3)).map lineLength = [1, 2, 2, 4, 4, 4, 2, 4] := by
  decide

/-- The Advance table: line counter before, after, do_transfer, cycles, hdma_address. -/
theorem test_advance_table :
    [((0x83 : Byte), (0x82 : Byte), true, 0, (0x4000 : Half)), (0x02, 0x01, false, 0, 0x4000), (0x01, 0x05, true, 8, 0x4001),
     (0x81, 0x05, true, 8, 0x4001), (0x80, 0x7F, false, 0, 0x4000), (0x00, 0xFF, true, 0, 0x4000)].all
      (fun (n, n', d, c, h) =>
        let t := advance 0 (start (hdmaChan 0 n) [0x05])
        (t.ch 0).lineCounter == n' && (t.ch 0).hdmaDoTransfer == d && t.cycles == c && (t.ch 0).hdmaAddress == h) = true := by
  decide

/-- The HdmaTransfer table: mode, B-bus offsets written, source_address after; each line costs 8 per byte. -/
theorem test_hdma_lines :
    [((0 : BitVec 3), [(0x10 : Byte)], (0x3001 : Half)), (1, [0x10, 0x11], 0x3002), (2, [0x10, 0x10], 0x3002),
     (3, [0x10, 0x10, 0x11, 0x11], 0x3004), (4, [0x10, 0x11, 0x12, 0x13], 0x3004), (5, [0x10, 0x11, 0x10, 0x11], 0x3004),
     (6, [0x10, 0x10], 0x3002), (7, [0x10, 0x10, 0x11, 0x11], 0x3004)].all
      (fun (m, offs, src) =>
        let t := hdmaTransfer 0 (start (hdmaChan m 0x02) [1, 0, 2, 0, 3, 0, 4, 0])
        t.trace.filterMap (fun e => match e with | .write a _ => some a | .read _ _ => none | .charge _ => none) ==
          offs.map (bBusAddr testCfg) && t.cycles == 8 * offs.length && (t.ch 0).sourceAddress == src) = true := by decide

/-- HdmaTransfer and `enable`. -/
theorem test_hdma_clears_enable :
    ((hdmaTransfer 0 (start { hdmaChan 0 2 with enable := true, hdmaDoTransfer := false } [])).ch 0).enable = false ∧
    ((hdmaTransfer 0 (start { hdmaChan 0 2 with enable := true, hdmaEnable := false } [])).ch 0).enable = true ∧
    ((hdmaTransfer 0 (start { hdmaChan 0 2 with enable := true, hdmaCompleted := true } [])).ch 0).enable = true := by decide

/-- An indirect channel, with `fixed_transfer` set. -/
def indirectChan : Channel :=
  { hdmaChan 1 2 with
    indirect := true, indirectBank := 0x7F, indirectAddress := 0x8000, fixedTransfer := true, targetAddress := 0x18 }

/-- HdmaTransfer indirect: `fixed_transfer` is ignored. -/
theorem test_hdma_indirect :
    accessesOf (hdmaTransfer 0 (start indirectChan [0x01, 0, 0x02, 0])).trace =
      [.read 0x7F8000 0x01, .write 0x002118 0x01, .read 0x7F8001 0x02, .write 0x002119 0x02] ∧
    ((hdmaTransfer 0 (start indirectChan [0x01, 0, 0x02, 0])).ch 0).indirectAddress = 0x8002 := by decide

/-- The Setup table: guard, hdma_enable, then enable, hdma_address, line_counter, cycles. -/
theorem test_setup_table :
    [(SetupGuard.skipIfEnabled, false, false, (0x3001 : Half), (0x02 : Byte), 8),
     (.skipIfEnabled, true, true, 0x1111, 0x55, 0),
     (.skipIfDisabled, false, true, 0x1111, 0x55, 0),
     (.skipIfDisabled, true, false, 0x3001, 0x02, 8)].all
      (fun (g, he, e, h, l, c) =>
        let t := setup 0 { start { hdmaChan 0 0x55 with hdmaEnable := he, hdmaDoTransfer := false, hdmaAddress := 0x1111,
                                                        enable := true } [0x02] with
          cfg := { testCfg with setupGuard := g } }
        (t.ch 0).enable == e && (t.ch 0).hdmaAddress == h && (t.ch 0).lineCounter == l && (t.ch 0).hdmaDoTransfer &&
          t.cycles == c) = true := by decide

/-! ### Enable ports, commands, query: 2.7 of 95_test_vectors.md -/

/-- EN1. -/
theorem test_enDma_edge :
    (ran 0x012000 (start zeroChannel [])).cycles = 108 ∧ ((ran 0x012000 (start zeroChannel [])).ch 0).enable = false ∧
    (ran 0x012000 (start zeroChannel [])).status = true := by decide

/-- EN2, and EN3 from the same state. -/
theorem test_enDma_no_edge :
    ran 0x012000 (start { zeroChannel with enable := true } []) = reply .done (start { zeroChannel with enable := true } []) ∧
    ran 0x002000 (start { zeroChannel with enable := true } []) = reply .done (start zeroChannel []) := by decide

/-- EN4: an edge inside a DMARUN starts no run of its own; channel 3's turn comes after channel 0's. -/
theorem test_dmarun_reentrant_edge :
    accessesOf (ran 0x4000 ({ start (dmaChan 1 0x18) [] with
      turns := [⟨[⟨0x2000, 0x09⟩], 0x11⟩, ⟨[], 0⟩, ⟨[], 0x33⟩, ⟨[], 0⟩] }.modCh 3 fun k =>
        { k with transferSize := 1, sourceBank := 0x7F, targetAddress := 0x04 })).trace =
      [.read 0x7E1000 0x11, .write 0x002118 0x11, .read 0x7F0000 0x33, .write 0x002104 0x33] := by decide

/-- EN5. -/
theorem test_enHdma :
    ran 0x023000 (start { zeroChannel with hdmaEnable := true } []) =
      reply .done ((start zeroChannel []).modCh 1 fun k => { k with hdmaEnable := true }) := by decide

/-- CMD2. -/
theorem test_hdmarun_idle :
    (ran 0x5000 (start zeroChannel [])).trace = [.charge 200] ∧ (ran 0x5000 (start zeroChannel [])).status = true := by decide

set_option maxRecDepth 4000 in
/-- CMD8. -/
theorem test_hdmarun_one_line :
    (ran 0x5000 (start (hdmaChan 0 0x02) [0x7B, 0])).trace =
      [.charge 200, .charge 8, .read 0x7E3000 0x7B, .write 0x002110 0x7B] ∧
    (ran 0x5000 (start (hdmaChan 0 0x02) [0x7B, 0])).ch 0 =
      { hdmaChan 0 0x01 with sourceAddress := 0x3001, hdmaDoTransfer := false } := by decide

/-- CMD3. -/
theorem test_hdmasetup_zero_tables :
    (ran 0x6000 (start zeroChannel [0, 0, 0, 0, 0, 0, 0, 0])).cycles = 364 ∧
    channelOrder.all (fun c => (ran 0x6000 (start zeroChannel [0, 0, 0, 0, 0, 0, 0, 0])).ch c ==
      { zeroChannel with hdmaCompleted := true, hdmaAddress := 0x0001 }) = true := by decide

/-- CMD4. -/
theorem test_reset :
    (ran 0x7000 (start { hdmaChan 3 0x82 with enable := true, hdmaCompleted := true } [])).ch 0 =
      { hdmaChan 3 0x82 with hdmaEnable := false, hdmaDoTransfer := false } := by decide

/-- CMD5, and HFIN with no channel active. -/
theorem test_hfin :
    (ran 0x8000 ((start zeroChannel []).modCh 1 fun k => { k with hdmaEnable := true })).replies = [.data 0x00] ∧
    (ran 0x8000 (start zeroChannel [])).replies = [.data 0x01] := by decide

/-- One byte of general DMA, with an HDMARUN issued during its A read. -/
def reentrantStart : State := { start (dmaChan 1 0x18) [] with turns := [⟨[⟨0x5000, 0⟩], 0x11⟩, ⟨[], 0⟩] }

/-- CMD1, and CMD6: the re-entrant command is refused, and the DMARUN goes on. -/
theorem test_dmarun_idle_and_reentrant_command :
    (ran 0x4000 (start zeroChannel [])).trace = [.charge 100] ∧ (ran 0x4000 (start zeroChannel [])).status = true ∧
    (ran 0x4000 reentrantStart).replies = [.refused .reentrantCommand, .done] ∧
    (ran 0x4000 reentrantStart).refused = true ∧
    accessesOf (ran 0x4000 reentrantStart).trace = [.read 0x7E1000 0x11, .write 0x002118 0x11] := by decide

/-- CMD7. -/
theorem test_reserved_header_refused :
    ran 0x9000 (start regChan []) = { start regChan [] with refused := true, replies := [.refused .reservedEncoding] } := by
  decide

/-- A read for which no answer is listed yields the free value of that draw, whatever it is. -/
theorem test_free_byte : (memRead 0x123456 State.reset).1 = Config.freeByte 0 ∧ (memRead 0x123456 State.reset).2.draws = 1 :=
  ⟨rfl, rfl⟩

/-! ### Witnesses: values that meet the hypotheses of each obligation that has any, clause by clause

An obligation whose only hypothesis is that a transaction or a step answers a next state has its witness in a state and the
equation itself. -/

/-- A state in which an orchestration is running. -/
def busy : State := { start zeroChannel [] with running := true }

theorem witness_EncodeOfDecodeIsTheRawTransaction :
    decode ⟨0x0075, 0xAB⟩ = .ok (.wrSizel 7 0xAB) ∧ hdrKind 0x0075 = 0 ∧
    decode ⟨0x2000, 0xAB⟩ = .ok (.enDma 0xAB) ∧ hdrKind 0x2000 = 2 ∧
    decode ⟨0x3000, 0xAB⟩ = .ok (.enHdma 0xAB) ∧ hdrKind 0x3000 = 3 ∧
    decode ⟨0x8000, 0xAB⟩ = .ok .hfin := ⟨rfl, rfl, rfl, rfl, rfl, rfl, rfl⟩

theorem witness_ReservedHeadersAreRefusedAndNothingElse :
    (Txn.mk 0x9000 0).wf = false ∧ ({ start zeroChannel [] with requests := [⟨0x9000, 0⟩] } : State).requests = ⟨0x9000, 0⟩ :: [] := by
  decide

theorem witness_ReservedBitsAndIgnoredDataBytes :
    (0x0080 : BitVec 16).extractLsb' 7 5 ≠ 0 ∧
    ((0x2001 : BitVec 16).extractLsb' 12 4 ≠ 0 ∧ (0x2001 : BitVec 16).extractLsb' 12 4 ≠ 1 ∧
      (0x2001 : BitVec 16).extractLsb' 0 7 ≠ 0) ∧
    ((0x1000 : BitVec 16).extractLsb' 12 4 ≠ 0 ∧ (0x1000 : BitVec 16).extractLsb' 12 4 ≠ 2 ∧
      (0x1000 : BitVec 16).extractLsb' 12 4 ≠ 3) := by decide

theorem witness_OpcodeRowsAreDisjointAndAreWhatDecodes :
    decode ⟨0x0075, 0xAB⟩ = .ok (.wrSizel 7 0xAB) ∧
    ∃ row ∈ opcodeTable, row.covers (0x0075 : BitVec 16) = true :=
  ⟨rfl, ⟨"WR.SIZEL", 0x0005, 0xFF8F⟩, by decide, by decide⟩

theorem witness_StepRunsTheRequestedTransaction :
    (({ start zeroChannel [] with requests := [⟨0x8000, 0⟩] } : State).requests = ⟨0x8000, 0⟩ :: [] ∧
      decode ⟨0x8000, 0⟩ = .ok .hfin) ∧
    decodeTableWord 24 0xAB0075 = some (.wrSizel 7 0xAB) ∧ State.reset.requests = [] := ⟨⟨rfl, rfl⟩, rfl, rfl⟩

/-- The requests of each kind of answer, and none. -/
theorem witness_EveryStepEndsAndTakesOneRequest :
    State.reset.requests = [] ∧
    (∀ q, ({ start regChan [] with requests := [q] } : State).requests = q :: []) ∧
    answerTo ⟨0x9000, 0⟩ busy = .refused .reservedEncoding ∧ answerTo ⟨0x7000, 0⟩ busy = .refused .reentrantCommand ∧
    answerTo ⟨0x4000, 0⟩ State.reset = .done ∧ answerTo ⟨0x100A, 0⟩ (start regChan []) = .data 0xA9 ∧
    answerTo ⟨0x8000, 0⟩ State.reset = .data 0x01 ∧ answerTo ⟨0x0000, 0⟩ busy = .done :=
  ⟨rfl, fun _ => rfl, by decide, by decide, by decide, by decide, by decide, by decide⟩

/-- Headers of every row, on channel 7: the hypothesis of WritesRegister and ReadsRegister, and so of
WriteCtrlAssignsSixFields, WritesOfByteRegisters, WritesOfLowHalves, WritesOfHighHalves, WritesOfScratchAndReservedOffsets,
ReadCtrlComposesSixFields, ReadsOfByteRegisters, ReadsOfHalves and ReadsOfScratchAndReservedOffsets. -/
theorem witness_register_patterns :
    (List.range 16).all (fun off =>
      (BitVec.ofNat 16 (0x0070 + off) &&& 0xFF8F == BitVec.ofNat 16 off) &&
      (BitVec.ofNat 16 (0x1070 + off) &&& 0xFF8F == BitVec.ofNat 16 (0x1000 + off))) = true := by decide

theorem witness_RegistersReadBackWhatWasWritten :
    (∃ t, exec (wrInstr .rsve 7 0xFF) State.reset = .next t) ∧ (∃ t, exec (wrInstr .tgt 7 0xFF) State.reset = .next t) ∧
    (∃ t, exec (wrInstr .ctrl 0 0xC7) (start zeroChannel []) = .next t) ∧
    ∃ t, exec (wrInstr .ctrl 0 0xC7) { start zeroChannel [] with cfg := { testCfg with ctrlReadback := .collapse } } = .next t :=
  ⟨⟨_, rfl⟩, ⟨_, rfl⟩, ⟨_, rfl⟩, ⟨_, rfl⟩⟩

theorem witness_RegisterWritesLeaveTheOtherRegisters :
    (∃ t, exec (wrInstr .scrb 0 0xFF) State.reset = .next t) ∧ (7 : Chan) ≠ 0 ∧
    (Reg.rsvc ≠ Reg.scrb ∧ ¬(Reg.scrb = Reg.scrb ∧ Reg.rsvc = Reg.scrf) ∧ ¬(Reg.scrb = Reg.scrf ∧ Reg.rsvc = Reg.scrb)) :=
  ⟨⟨_, rfl⟩, by decide, by decide⟩

theorem witness_HostMappingReachesThePage :
    (testCfg.dmaPageBase.toNat ≤ (0x004300 : Addr).toNat ∧ (0x004300 : Addr).toNat ≤ testCfg.dmaPageBase.toNat + 0x7F) ∧
    (testCfg.dmaPageBase.toNat ≤ (0x00437F : Addr).toNat ∧ (0x00437F : Addr).toNat ≤ testCfg.dmaPageBase.toNat + 0x7F) ∧
    ¬(testCfg.dmaPageBase.toNat ≤ (0x0042FF : Addr).toNat ∧ (0x0042FF : Addr).toNat ≤ testCfg.dmaPageBase.toNat + 0x7F) ∧
    ¬(testCfg.dmaPageBase.toNat ≤ (0x004380 : Addr).toNat ∧ (0x004380 : Addr).toNat ≤ testCfg.dmaPageBase.toNat + 0x7F) := by
  decide

theorem witness_EnDmaAssignsAndRunsOnARisingEdge :
    (State.reset.running = false ∧ ∃ c : Chan, (0x80 : Byte).getLsbD c.val = true ∧ (State.reset.ch c).enable = false) ∧
    busy.running = true ∧
    ∀ c : Chan, (0x01 : Byte).getLsbD c.val = true → ((start (dmaChan 0 0) []).ch c).enable = true :=
  ⟨⟨rfl, 7, by decide⟩, rfl, by decide⟩

/-- For DmaRunRunsTheChannelsInOrder, HdmaRunTransfersThenAdvances, HdmaSetupSetsUpTheChannelsInOrder and
ResetClearsTheFourFlagsOfEveryChannel: a state outside an orchestration, and one inside. -/
theorem witness_idle_and_running : (start (hdmaChan 3 0x82) []).running = false ∧ busy.running = true := ⟨rfl, rfl⟩

theorem witness_AfterResetNothingRuns :
    State.reset.running = false ∧ ∃ t, exec .reset State.reset = .next t := ⟨rfl, _, rfl⟩

theorem witness_HfinAnswersWhetherNoChannelIsActive :
    (∀ c, ¬((State.reset.ch c).hdmaEnable = true ∧ (State.reset.ch c).hdmaCompleted = false)) ∧
    ∃ c, ((start (hdmaChan 0 0) []).ch c).hdmaEnable = true ∧ ((start (hdmaChan 0 0) []).ch c).hdmaCompleted = false :=
  ⟨by decide, 0, by decide⟩

theorem witness_ChainTestFollowsTheLinks : nextChannel 7 = none ∧ nextChannel 6 = some 7 := by decide

theorem witness_ReentrantTransactionsActAsTheirRules : busy.running = true := rfl

theorem witness_ReentrantTransactionsIssueNoAccess : ({ busy with refused := true } : State).refused = true := rfl

theorem witness_OrchestrationsEndWithStatusSet :
    State.reset.running = false ∧
    (Instr.hdmarun = .dmarun ∨ Instr.hdmarun = .hdmarun ∨ Instr.hdmarun = .hdmasetup ∨
      ∃ m, Instr.hdmarun = .enDma m ∧ risingEdge (dmaEn State.reset) m = true) ∧
    ∃ m, Instr.enDma 0x80 = .enDma m ∧ risingEdge (dmaEn State.reset) m = true :=
  ⟨rfl, .inr (.inl rfl), 0x80, rfl, by decide⟩

theorem witness_ModeDecoderFollowsThePatternTable :
    ((6 : BitVec 3) = 0 ∨ (6 : BitVec 3) = 2 ∨ (6 : BitVec 3) = 6) ∧ ((5 : BitVec 3) = 1 ∨ (5 : BitVec 3) = 5) ∧
    ((7 : BitVec 3) = 3 ∨ (7 : BitVec 3) = 7) := by decide

/-- A state whose channel 0 transfers in the given direction through B-offset `off`. -/
def xferStart (dir : Bool) (off : Byte) : State := start { dmaChan 1 off with direction := dir } []

/-- The eight combinations of direction, gate and conflict. A gated address that is in a WRAM range needs a gate of the
host's own, since the default ranges do not meet the default gate: the parameters are the host's. -/
theorem witness_TransferIssuesItsAccessesInOrder :
    (∀ dir, ((xferStart dir 0x80).ch 0).direction = dir) ∧
    (∀ dir, let s := xferStart dir 0x18
      gated s.cfg 0x7E1000 = false ∧
      ¬(bOffset s.cfg.mode4Mask (s.ch 0).transferMode (s.ch 0).targetAddress 0 = 0x80 ∧ inWram s.cfg 0x7E1000 = true)) ∧
    (∀ dir, let s := xferStart dir 0x80
      gated s.cfg 0x7E1000 = false ∧
      (bOffset s.cfg.mode4Mask (s.ch 0).transferMode (s.ch 0).targetAddress 0 = 0x80 ∧ inWram s.cfg 0x7E1000 = true)) ∧
    (∀ dir, let s := xferStart dir 0x80
      gated s.cfg 0x0021FF = true ∧
      ¬(bOffset s.cfg.mode4Mask (s.ch 0).transferMode (s.ch 0).targetAddress 0 = 0x80 ∧ inWram s.cfg 0x0021FF = true)) ∧
    (∀ dir, let s := { xferStart dir 0x80 with cfg := { testCfg with aGate := ⟨0xFFFFFF, 0x7E1000⟩ :: defaultGate } }
      gated s.cfg 0x7E1000 = true ∧
      (bOffset s.cfg.mode4Mask (s.ch 0).transferMode (s.ch 0).targetAddress 0 = 0x80 ∧ inWram s.cfg 0x7E1000 = true)) ∧
    ∀ dir, (xferStart dir 0x18).quiet := by
  refine ⟨by decide, by decide, by decide, by decide, by decide, fun dir => quiet_start _ _⟩

theorem witness_DisabledChannelAndZeroCount :
    (State.reset.ch 7).enable = false ∧ ((start (dmaChan 0 0x18) []).ch 0).enable = true ∧
    ((start (dmaChan 0 0x18) []).ch 0).transferSize = 0 := by decide

/-- For GeneralDmaLoopsUntilCountOrDisable, CompleteGeneralDmaCostsEightPerByte and
QuietDmaRunCompletesEveryEnabledChannel: the longest transfer, with the bus answering. -/
theorem witness_quiet_dma :
    (start (dmaChan 0xFFFF 0x18) [0x11]).quiet ∧ (start (dmaChan 0xFFFF 0x18) [0x11]).running = false ∧
    ((start (dmaChan 0xFFFF 0x18) [0x11]).ch 0).enable = true ∧
    ((start (dmaChan 0xFFFF 0x18) [0x11]).ch 0).transferSize ≠ 0 := ⟨quiet_start _ _, by decide, by decide, by decide⟩

theorem witness_TableReadsAreChargedAndGated :
    (let s := start { hdmaChan 0 0 with sourceBank := 0x00, hdmaAddress := 0x4300 } []
     gated s.cfg ((s.ch 0).sourceBank ++ (s.ch 0).hdmaAddress) = true) ∧
    (let s := start (hdmaChan 0 0) [0x05]
     gated s.cfg ((s.ch 0).sourceBank ++ (s.ch 0).hdmaAddress) = false) ∧ (start (hdmaChan 0 0) [0x05]).quiet :=
  ⟨by decide, by decide, quiet_start _ _⟩

/-- The state Reload is in once it has the count byte of channel c of s, as ReloadReadsCountAndPointer writes it. -/
def counted (c : Chan) (s : State) : State :=
  (tableByte c s).2.setCh c { (tableByte c s).2.ch c with
    lineCounter := (tableByte c s).1, hdmaCompleted := decide ((tableByte c s).1 = 0),
    hdmaDoTransfer := decide ((tableByte c s).1 ≠ 0) }

/-- An entry not exhausted; an exhausted one whose pointer is read, and one whose pointer is not. -/
theorem witness_ReloadReadsCountAndPointer :
    (hdmaChan 0 0x81).lineCounter.extractLsb' 0 7 ≠ 0 ∧ (hdmaChan 0 0x80).lineCounter.extractLsb' 0 7 = 0 ∧
    (((counted 0 (start s4Chan [0x05])).ch 0).indirect = true ∧
      ¬((tableByte 0 (start s4Chan [0x05])).1 = 0 ∧ finishedAfter 0 (counted 0 (start s4Chan [0x05])) = true)) ∧
    ¬(((counted 0 (start s4Chan [0x00])).ch 0).indirect = true ∧
      ¬((tableByte 0 (start s4Chan [0x00])).1 = 0 ∧ finishedAfter 0 (counted 0 (start s4Chan [0x00])) = true)) := by decide

/-- Channel 7, which has no later channel: an exhausted entry that ends its table, and one that does not. -/
theorem witness_ReloadOfAnExhaustedEntry :
    let s (b : Byte) : State := (start zeroChannel [b, 0x34, 0x12]).setCh 7 { s4Chan with lineCounter := 0x80 }
    (∀ b, (s b).turns = ⟨[], b⟩ :: ⟨[], 0x34⟩ :: ⟨[], 0x12⟩ :: []) ∧
    (∀ i : Half, i = 0 ∨ i = 1 ∨ i = 2 →
      gated (s 0).cfg (((s 0).ch 7).sourceBank ++ (((s 0).ch 7).hdmaAddress + i)) = false) ∧
    ((s 0).ch 7).lineCounter &&& 0x7F = 0 ∧
    (((s 0).ch 7).indirect = false ∨
      (0 : Byte) = 0 ∧ ∀ j, (7 : Chan) < j → ¬(((s 0).ch j).hdmaEnable = true ∧ ((s 0).ch j).hdmaCompleted = false)) ∧
    ¬(((s 1).ch 7).indirect = false ∨
      (1 : Byte) = 0 ∧ ∀ j, (7 : Chan) < j → ¬(((s 1).ch j).hdmaEnable = true ∧ ((s 1).ch j).hdmaCompleted = false)) := by
  refine ⟨fun b => rfl, ?_, by decide, by decide, by decide⟩
  rintro i (rfl | rfl | rfl) <;> decide

theorem witness_SetupFollowsTheGuard :
    (testCfg.setupGuard = .skipIfEnabled ∧ (hdmaChan 0 0).hdmaEnable = true) ∧
    (testCfg.setupGuard = .skipIfEnabled ∧ zeroChannel.hdmaEnable = false) ∧
    ({ testCfg with setupGuard := SetupGuard.skipIfDisabled } : Config).setupGuard = .skipIfDisabled := by decide

/-- For AdvanceCountsDownOneLine and HdmaTransferMovesOneLine: an active channel that transfers, one that does not, and the
two ways to be inactive. -/
theorem witness_active_and_inactive :
    ((hdmaChan 0 0x00).hdmaEnable = true ∧ (hdmaChan 0 0x00).hdmaCompleted = false) ∧
    (hdmaChan 0 0x00).hdmaDoTransfer = true ∧
    ({ hdmaChan 0 0x00 with hdmaDoTransfer := false } : Channel).hdmaDoTransfer = false ∧
    ¬(zeroChannel.hdmaEnable = true ∧ zeroChannel.hdmaCompleted = false) ∧
    ¬(({ hdmaChan 0 0 with hdmaCompleted := true } : Channel).hdmaEnable = true ∧
      ({ hdmaChan 0 0 with hdmaCompleted := true } : Channel).hdmaCompleted = false) := by decide

theorem witness_HdmaLineMovesItsLength :
    (start (hdmaChan 4 0x02) [1, 0]).quiet ∧ (hdmaChan 4 0x02).hdmaEnable = true ∧
    (hdmaChan 4 0x02).hdmaCompleted = false ∧ (hdmaChan 4 0x02).hdmaDoTransfer = true :=
  ⟨quiet_start _ _, by decide, by decide, by decide⟩

/-- Channel 0 active and within its entry (0x80 counts down to 0x7F), the others inactive. -/
theorem witness_QuietHdmaRunWithinEntries :
    (start (hdmaChan 4 0x80) [1, 0]).running = false ∧ (start (hdmaChan 4 0x80) [1, 0]).quiet ∧
    (∀ c, ((start (hdmaChan 4 0x80) [1, 0]).ch c).active = true →
      (((start (hdmaChan 4 0x80) [1, 0]).ch c).lineCounter - 1) &&& 0x7F ≠ 0) ∧
    ((start (hdmaChan 4 0x80) [1, 0]).ch 0).active = true ∧ ((start (hdmaChan 4 0x80) [1, 0]).ch 7).active = false :=
  ⟨rfl, quiet_start _ _, by decide, by decide, by decide⟩

theorem witness_QuietHdmaSetupFrame :
    (start (hdmaChan 0 0) [0x05]).running = false ∧ (start (hdmaChan 0 0) [0x05]).quiet ∧
    setupSkips testCfg.setupGuard ((start (hdmaChan 0 0) [0x05]).ch 0) = true ∧
    setupSkips testCfg.setupGuard ((start (hdmaChan 0 0) [0x05]).ch 7) = false :=
  ⟨rfl, quiet_start _ _, by decide, by decide⟩

theorem witness_HdmaCostIsBounded :
    (start (hdmaChan 0 0) [0x05]).running = false ∧
    (∃ t, exec .hdmarun (start (hdmaChan 0 0) [0x05]) = .next t) ∧
    ∃ t, exec .hdmasetup (start (hdmaChan 0 0) [0x05]) = .next t := ⟨rfl, ⟨_, rfl⟩, ⟨_, rfl⟩⟩

theorem witness_ResetMeetsTheInvariant : admissible defaultConfig = true := by decide

/-- For StepKeepsTheInvariant, StepAccountsForEveryCycleUnit, StepNeverReachesTheRegisterPage and
StatusAndMarkAreNeverCleared: a step that moves a byte, from a state that meets the premises of all four. -/
theorem witness_a_step :
    let s : State := { start (dmaChan 1 0x18) [0x11, 0] with requests := [⟨0x4000, 0⟩], status := true, refused := true }
    s.Inv ∧ s.cfg.aGate = defaultGate ∧ s.cfg.bbusBase = 0x002100 ∧ s.status = true ∧ s.refused = true ∧
    ∃ t, step s = .next t := ⟨⟨rfl, by decide⟩, rfl, rfl, rfl, rfl, _, rfl⟩

theorem witness_TheEngineNeverWritesTheHostsFields :
    (start (dmaChan 1 0x18) [0x11, 0]).quiet ∧ (∀ r c v, Instr.dmarun ≠ wrInstr r c v) ∧
    (∀ m, Instr.dmarun ≠ .enHdma m) ∧ Instr.dmarun ≠ .reset ∧
    ∃ t, exec .dmarun (start (dmaChan 1 0x18) [0x11, 0]) = .next t := by
  refine ⟨quiet_start _ _, ?_, ?_, by decide, _, rfl⟩
  · intro r c v; cases r <;> exact Instr.noConfusion
  · intro m; exact Instr.noConfusion

/-- Two states that differ in `unused`, `reverse_transfer`, the scratch byte and `cycles`. -/
theorem witness_FieldsWithoutEffectHaveNoEffect :
    let s := start (dmaChan 1 0x18) [0x11, 0]
    let t := { start { dmaChan 1 0x18 with unused := true, reverseTransfer := true, scratch := 0x5A } [0x11, 0] with cycles := 7 }
    s.SameEffect t ∧ s ≠ t ∧ (∃ s', exec .dmarun s = .next s') ∧ ∃ t', exec .dmarun t = .next t' :=
  ⟨⟨by decide, rfl, rfl, rfl, rfl, rfl, rfl, rfl, rfl⟩, by decide, ⟨_, rfl⟩, ⟨_, rfl⟩⟩

end Sys2Proof.Tests
end

section
/-! The account of the cycle counter (00_scope.md R15): the relation "what `cycles` gains is the sum of the charges emitted"
composes, and holds of the host's transactions and of the orchestrations, so it holds of every step. -/

namespace Sys2Proof.Machine

/-- The parameters stay, events are added to the trace, and `cycles` gains exactly the cycle-units among them. -/
def Accounted (s t : State) : Prop :=
  t.cfg = s.cfg ∧ ∃ es, t.trace = s.trace ++ es ∧ t.cycles = s.cycles + unitsOf es

/-- Where neither the parameters nor the trace nor the counter changes, there is nothing to account for. -/
theorem Accounted.of_frame {s t : State} (hcfg : t.cfg = s.cfg) (htrace : t.trace = s.trace) (hcycles : t.cycles = s.cycles) :
    Accounted s t :=
  ⟨hcfg, [], by simp [htrace], by simp [hcycles]⟩

theorem Accounted.trans {s t u : State} (h : Accounted s t) (k : Accounted t u) : Accounted s u := by
  obtain ⟨hcfg, es, htrace, hcycles⟩ := h
  obtain ⟨kcfg, fs, ktrace, kcycles⟩ := k
  exact ⟨kcfg.trans hcfg, es ++ fs, by simp [ktrace, htrace], by simp [kcycles, hcycles, Nat.add_assoc]⟩

theorem HostOnly.accounted {s t : State} (h : HostOnly s t) : Accounted s t := .of_frame h.cfg h.trace h.cycles

theorem Orchestrated.accounted {s t : State} (h : Orchestrated s t) : Accounted s t := by
  obtain ⟨es, htrace, hcycles, -⟩ := h.emits
  exact ⟨h.cfg, es, htrace, hcycles⟩

theorem step_accounted {s t : State} (h : step s = .next t) : Accounted s t :=
  step_rel (fun _ => .of_frame rfl rfl rfl) (fun _ _ _ => .trans) (fun _ _ => HostOnly.accounted)
    (fun _ _ => Orchestrated.accounted) (fun _ _ => .of_frame rfl rfl rfl) h

/-- A sum over the events that weighs each by its cycle-units is their `unitsOf`. -/
theorem unitsOf_eq_sum_map {f : PortEvent → Nat} (hf : ∀ e, e.units = f e) (es : List PortEvent) :
    unitsOf es = (es.map f).sum := by
  rw [unitsOf, funext hf]

/-- Settles O56: every step is accounted for, and the statement's weight of an event is its cycle-units. -/
theorem stepAccountsForEveryCycleUnit : Obligations.StepAccountsForEveryCycleUnit := by
  unfold Obligations.StepAccountsForEveryCycleUnit
  intro s t h
  obtain ⟨hcfg, es, htrace, hcycles⟩ := step_accounted h
  exact ⟨hcfg, es, htrace, hcycles.trans (congrArg (s.cycles + ·) (unitsOf_eq_sum_map (fun e => by cases e <;> rfl) es))⟩

end Sys2Proof.Machine
end

section
/-! The invariant of the idle block: nothing outside an orchestration sets `running`, an orchestration clears it at its end,
and the parameters never change, so the invariant composes over every step (10_state.md R43, 42_controller.md R223). -/

namespace Sys2Proof.Machine

theorem HostOnly.inv {s t : State} (h : HostOnly s t) (hs : s.Inv) : t.Inv :=
  ⟨h.running.trans hs.1, h.cfg ▸ hs.2⟩

theorem Orchestrated.inv {s t : State} (h : Orchestrated s t) (hs : s.Inv) : t.Inv :=
  ⟨h.running, h.cfg ▸ hs.2⟩

/-- Settles O55: each part of a step keeps the invariant, and taking a request touches neither of its fields. -/
theorem stepKeepsTheInvariant : Obligations.StepKeepsTheInvariant := by
  unfold Obligations.StepKeepsTheInvariant
  intro s t hs h
  exact step_rel (R := fun s t => s.Inv → t.Inv) (fun _ hs => hs) (fun _ _ _ h k hs => k (h hs)) (fun _ _ => HostOnly.inv)
    (fun _ _ => Orchestrated.inv) (fun _ _ hs => hs) h hs

end Sys2Proof.Machine
end

section
/-! The page as a register file (10_state.md R45, R48, 20_memory.md R63): what a register reads after a write to it and
after a write to another, first for one channel, then for the block. -/

namespace Sys2Proof.Machine

@[simp] theorem loByte_withLo (w : Half) (v : Byte) : loByte (withLo w v) = v := BitVec.extractLsb'_append_eq_right

@[simp] theorem hiByte_withHi (w : Half) (v : Byte) : hiByte (withHi w v) = v := BitVec.extractLsb'_append_eq_left

@[simp] theorem hiByte_withLo (w : Half) (v : Byte) : hiByte (withLo w v) = hiByte w := BitVec.extractLsb'_append_eq_left

@[simp] theorem loByte_withHi (w : Half) (v : Byte) : loByte (withHi w v) = loByte w := BitVec.extractLsb'_append_eq_right

/-- Under Bitwise the six CTRL fields hold every bit of the byte (R198). -/
theorem ctrlByte_setCtrl_bitwise (k : Channel) (v : Byte) : (k.setCtrl v).ctrlByte .bitwise = v := by
  apply BitVec.eq_of_getLsbD_eq
  intro i hi
  simp only [Channel.ctrlByte, Channel.ctrlLow, Channel.setCtrl, BitVec.getLsbD_append]
  interval_cases i <;> simp

/-- Collapse differs from Bitwise in bit 7 alone, and only where bit 6 is set (R198). -/
theorem ctrlByte_collapse (k : Channel) :
    k.ctrlByte .collapse = if k.indirect then k.ctrlByte .bitwise &&& 0x7F else k.ctrlByte .bitwise := by
  cases hi : k.indirect
  · simp [Channel.ctrlByte, hi]
  · apply BitVec.eq_of_getLsbD_eq
    intro i h8
    simp only [Channel.ctrlByte, hi, if_true, BitVec.getLsbD_and, BitVec.getLsbD_append]
    interval_cases i <;> simp

theorem ctrlByte_setCtrl_collapse (k : Channel) (v : Byte) :
    (k.setCtrl v).ctrlByte .collapse = if v.getLsbD 6 then v &&& 0x7F else v := by
  rw [ctrlByte_collapse, ctrlByte_setCtrl_bitwise]
  rfl

/-- A write changes the byte of its own register only, but that offsets 0xB and 0xF are one byte: the two halves of a
16-bit register are kept apart, and the offsets 0xC to 0xE write nothing. -/
theorem readReg_writeReg_of_ne (cfg : Config) (k : Channel) (v : Byte) {r q : Reg} (hne : q ≠ r)
    (hb : ¬(r = .scrb ∧ q = .scrf)) (hf : ¬(r = .scrf ∧ q = .scrb)) :
    (k.writeReg r v).readReg cfg q = k.readReg cfg q := by
  cases r
  case rsvc | rsvd | rsve => rfl
  case scrb | scrf =>
    cases q <;> simp [Channel.writeReg, Channel.readReg, Channel.ctrlByte, Channel.ctrlLow] at hne hb hf ⊢
  case ctrl | tgt | srcl | srch | srcb | sizel | sizeh | ibank | hadrl | hadrh | line =>
    cases q <;>
      simp [Channel.writeReg, Channel.setCtrl, Channel.readReg, Channel.ctrlByte, Channel.ctrlLow] at hne ⊢

@[simp] theorem cfg_writePage (c : Chan) (r : Reg) (v : Byte) (s : State) : (writePage c r v s).cfg = s.cfg := rfl

@[simp] theorem ch_writePage_self (c : Chan) (r : Reg) (v : Byte) (s : State) :
    (writePage c r v s).ch c = (s.ch c).writeReg r v := by
  simp [writePage]

theorem ch_writePage_ne (r : Reg) (v : Byte) (s : State) {c d : Chan} (h : d ≠ c) : (writePage c r v s).ch d = s.ch d := by
  simp [writePage, ch_modCh_ne, h]

/-- Settles O18: the read answers from the channel as the write left it, and each register yields what it took in, the
reserved offsets and CTRL by their own rules. -/
theorem registersReadBackWhatWasWritten : Obligations.RegistersReadBackWhatWasWritten := by
  unfold Obligations.RegistersReadBackWhatWasWritten
  intro r c v s t h
  rw [exec_wrInstr] at h
  cases h
  rw [exec_rdInstr, readPage, cfg_writePage, ch_writePage_self]
  cases r
  case ctrl =>
    cases hp : s.cfg.ctrlReadback <;>
      simp [Channel.writeReg, Channel.readReg, hp, ctrlByte_setCtrl_bitwise, ctrlByte_setCtrl_collapse, reply]
  all_goals simp [Channel.writeReg, Channel.readReg, reply]

/-- Settles O19: another channel keeps all its fields; in the same channel only the pair 0xB and 0xF shares a byte. -/
theorem registerWritesLeaveTheOtherRegisters : Obligations.RegisterWritesLeaveTheOtherRegisters := by
  unfold Obligations.RegisterWritesLeaveTheOtherRegisters
  intro r q c d v s t h hother
  rw [exec_wrInstr] at h
  cases h
  rw [cfg_writePage]
  by_cases hd : d = c
  · subst hd
    obtain ⟨hne, hb, hf⟩ := hother.resolve_left (absurd rfl)
    rw [ch_writePage_self, readReg_writeReg_of_ne _ _ _ hne hb hf]
  · rw [ch_writePage_ne _ _ _ hd]

end Sys2Proof.Machine
end

section
/-! The engine and the fields the host owns (10_state.md R22 to R29, R31, R33, R36): a visit to one channel keeps them
(Laws/Quiet.lean), and keeping them composes over the passes, the orchestrations and the commands. -/

namespace Sys2Proof.Machine

/-- Where the host issues nothing re-entrantly before, it does not after, and every channel keeps the fields the host
owns. -/
def KeepsHostOwned (s t : State) : Prop := s.quiet → t.quiet ∧ ∀ c, (t.ch c).hostOwned = (s.ch c).hostOwned

theorem KeepsHostOwned.refl (s : State) : KeepsHostOwned s s := fun hq => ⟨hq, fun _ => rfl⟩

theorem KeepsHostOwned.trans {s t u : State} (h : KeepsHostOwned s t) (k : KeepsHostOwned t u) : KeepsHostOwned s u := by
  intro hs
  obtain ⟨ht, hst⟩ := h hs
  obtain ⟨hu, htu⟩ := k ht
  exact ⟨hu, fun c => (htu c).trans (hst c)⟩

/-- An operation that changes neither the turns to come nor a channel. -/
theorem KeepsHostOwned.of_frame {s t : State} (hturns : t.turns = s.turns) (hch : t.channels = s.channels) :
    KeepsHostOwned s t :=
  fun hq => ⟨quiet_of_turns hq hturns, fun c => by rw [ch_of_channels hch]⟩

theorem QuietOn.keepsHostOwned {c : Chan} {s t : State} (h : s.quiet → QuietOn c s t) : KeepsHostOwned s t := by
  intro hs
  refine ⟨(h hs).quiet, fun d => ?_⟩
  by_cases hd : d = c
  · exact hd ▸ (h hs).owned
  · rw [(h hs).others d hd]

theorem keepsHostOwned_forChannels {f : Chan → State → State} (hf : ∀ c s, s.quiet → QuietOn c s (f c s))
    (s : State) : KeepsHostOwned s (forChannels f s) :=
  forChannels_rel .refl (fun _ _ _ => .trans) (fun c _ => QuietOn.keepsHostOwned (hf c _)) s

theorem keepsHostOwned_orchestrate {body : State → State} (hb : ∀ s, KeepsHostOwned s (body s)) (n : Nat) (s : State) :
    KeepsHostOwned s (orchestrate n body s) :=
  ((KeepsHostOwned.of_frame rfl rfl).trans (hb (charge n { s with running := true }))).trans (.of_frame rfl rfl)

theorem keepsHostOwned_doDmaRun (s : State) : KeepsHostOwned s (doDmaRun s) :=
  keepsHostOwned_orchestrate (keepsHostOwned_forChannels fun c _ => quietOn_runGeneralDma c) _ s

theorem keepsHostOwned_doHdmaRun (s : State) : KeepsHostOwned s (doHdmaRun s) :=
  keepsHostOwned_orchestrate (fun s => (keepsHostOwned_forChannels (fun c _ => quietOn_hdmaTransfer c) s).trans
    (keepsHostOwned_forChannels (fun c _ => quietOn_advance c) _)) _ s

theorem keepsHostOwned_doHdmaSetup (s : State) : KeepsHostOwned s (doHdmaSetup s) :=
  keepsHostOwned_orchestrate (keepsHostOwned_forChannels fun c _ => quietOn_setup c) _ s

theorem keepsHostOwned_reply (r : Reply) (s : State) : KeepsHostOwned s (reply r s) := .of_frame rfl rfl

theorem keepsHostOwned_command {effect : State → State} (he : ∀ s, KeepsHostOwned s (effect s)) (s : State) :
    KeepsHostOwned s (command effect s) := by
  unfold command
  split
  · exact .of_frame rfl rfl
  · exact (he s).trans (keepsHostOwned_reply _ _)

/-- EN.DMA's bits are `enable`, which the engine writes too (R21, R127). -/
theorem keepsHostOwned_assignEnable (m : Byte) (s : State) : KeepsHostOwned s (assignEnable m s) :=
  fun hq => ⟨quiet_of_turns hq (hostOnly_assignEnable m s).turns, fun c => by rw [ch_assignEnable]; rfl⟩

theorem keepsHostOwned_enableDma (m : Byte) (s : State) : KeepsHostOwned s (enableDma m s) := by
  unfold enableDma
  split
  · exact (keepsHostOwned_assignEnable m s).trans (keepsHostOwned_doDmaRun _)
  · exact keepsHostOwned_assignEnable m s

theorem exec_keepsHostOwned {i : Instr} {s t : State} (hwr : ∀ r c v, i ≠ wrInstr r c v) (hen : ∀ m, i ≠ .enHdma m)
    (hreset : i ≠ .reset) (h : exec i s = .next t) : KeepsHostOwned s t := by
  induction i using Instr.byGroup with
  | wr r c v => exact absurd rfl (hwr r c v)
  | enHdma m => exact absurd rfl (hen m)
  | reset => exact absurd rfl hreset
  | rd r c =>
    rw [exec_rdInstr] at h
    cases h
    exact keepsHostOwned_reply _ s
  | enDma m =>
    cases h
    exact (keepsHostOwned_enableDma m s).trans (keepsHostOwned_reply _ _)
  | dmarun =>
    cases h
    exact keepsHostOwned_command keepsHostOwned_doDmaRun s
  | hdmarun =>
    cases h
    exact keepsHostOwned_command keepsHostOwned_doHdmaRun s
  | hdmasetup =>
    cases h
    exact keepsHostOwned_command keepsHostOwned_doHdmaSetup s
  | hfin =>
    cases h
    exact keepsHostOwned_reply _ s

/-- Settles O59: of the nine groups of transactions, those left by the premises keep the fields the host owns. -/
theorem theEngineNeverWritesTheHostsFields : Obligations.TheEngineNeverWritesTheHostsFields := by
  unfold Obligations.TheEngineNeverWritesTheHostsFields
  intro i s t hq hwr hen hreset h
  exact (exec_keepsHostOwned hwr hen hreset h hq).2

end Sys2Proof.Machine
end

section
/-! The address predicates as ranges (20_memory.md R66, R67): a term whose mask is the bank bit 22 and the upper bits of the
low half holds of one aligned block in each bank whose bit 6 is 0, so each of the default terms names a range. -/

namespace Sys2Proof.Machine

/-- Masking with `k` ones above bit `n` keeps that field in place. -/
theorem land_field (x n k : Nat) : x &&& (2 ^ k - 1) * 2 ^ n = x / 2 ^ n % 2 ^ k * 2 ^ n := by
  apply Nat.eq_of_testBit_eq
  intro i
  simp only [Nat.testBit_and, Nat.testBit_mul_two_pow, Nat.testBit_two_pow_sub_one, Nat.testBit_mod_two_pow,
    Nat.testBit_div_two_pow]
  by_cases hi : n ≤ i
  · simp [hi, Bool.and_comm]
  · simp [hi]

/-- The mask of a term that names one block of `2 ^ n` addresses of the low half, in each bank whose bit 6 is 0. -/
def lowBankMask (n : Nat) : Nat := 2 ^ 22 ||| (2 ^ (16 - n) - 1) * 2 ^ n

/-- The block of a low-half address starts in the low half. -/
theorem blockStart_lt (x n : Nat) : x % 0x10000 / 2 ^ n * 2 ^ n < 0x10000 :=
  (Nat.div_mul_le_self _ _).trans_lt (Nat.mod_lt _ (by decide))

theorem land_lowBankMask (x : Nat) {n : Nat} (hn : n ≤ 16) :
    x &&& lowBankMask n = x / 0x400000 % 2 * 0x400000 + x % 0x10000 / 2 ^ n * 2 ^ n := by
  have hsplit : 0x10000 = 2 ^ n * 2 ^ (16 - n) := by rw [← Nat.pow_add, Nat.add_sub_cancel' hn]
  have hbank : x &&& 2 ^ 22 = 2 ^ 22 * (x / 0x400000 % 2) := by simpa [Nat.mul_comm] using land_field x 22 1
  have hblock : x / 2 ^ n % 2 ^ (16 - n) = x % 0x10000 / 2 ^ n := by rw [hsplit, Nat.mod_mul_right_div_self]
  have hlt : x % 0x10000 / 2 ^ n * 2 ^ n < 2 ^ 22 := (blockStart_lt x n).trans (by decide)
  rw [lowBankMask, Nat.and_or_distrib_left, hbank, land_field, hblock, ← Nat.two_pow_add_eq_or_of_lt hlt, Nat.mul_comm]

theorem matchesTerm_iff (t : AddrMatch) (a : Addr) :
    matchesTerm t a = true ↔ a.toNat &&& t.mask.toNat = t.value.toNat := by
  rw [matchesTerm, beq_iff_eq, ← BitVec.toNat_inj, BitVec.toNat_and]

/-- The term of block `p` of the low half: bit 22 is 0, and the low 16 bits lie in the block. -/
theorem matchesTerm_lowBank_iff {t : AddrMatch} {n p : Nat} (hn : n ≤ 16) (hmask : t.mask.toNat = lowBankMask n)
    (hvalue : t.value.toNat = p * 2 ^ n) (hlow : t.value.toNat < 0x10000) (a : Addr) :
    matchesTerm t a = true ↔
      a.toNat / 0x400000 % 2 = 0 ∧ p * 2 ^ n ≤ a.toNat % 0x10000 ∧ a.toNat % 0x10000 ≤ p * 2 ^ n + 2 ^ n - 1 := by
  have hpos : 0 < 2 ^ n := Nat.two_pow_pos n
  have hblock := blockStart_lt a.toNat n
  have hquot : a.toNat % 0x10000 / 2 ^ n * 2 ^ n = t.value.toNat ↔ a.toNat % 0x10000 / 2 ^ n = p := by
    rw [hvalue, Nat.mul_left_inj hpos.ne']
  rw [← Nat.div_eq_iff hpos, ← hquot, matchesTerm_iff, hmask, land_lowBankMask _ hn]
  omega

/-- R66, term by term: the PPU page, the two pages of controller ports and CPU registers, the DMA registers. -/
theorem gated_default_iff {cfg : Config} (hcfg : cfg.aGate = defaultGate) (a : Addr) :
    gated cfg a = true ↔ a.toNat / 0x400000 % 2 = 0 ∧
      (0x2100 ≤ a.toNat % 0x10000 ∧ a.toNat % 0x10000 ≤ 0x21FF ∨ 0x4000 ≤ a.toNat % 0x10000 ∧ a.toNat % 0x10000 ≤ 0x421F ∨
       0x4300 ≤ a.toNat % 0x10000 ∧ a.toNat % 0x10000 ≤ 0x437F) := by
  have hppu := matchesTerm_lowBank_iff (t := ⟨0x40FF00, 0x002100⟩) (n := 8) (p := 0x21) (by decide) rfl rfl (by decide) a
  have hports := matchesTerm_lowBank_iff (t := ⟨0x40FE00, 0x004000⟩) (n := 9) (p := 0x20) (by decide) rfl rfl (by decide) a
  have hcpu := matchesTerm_lowBank_iff (t := ⟨0x40FFE0, 0x004200⟩) (n := 5) (p := 0x210) (by decide) rfl rfl (by decide) a
  have hdma := matchesTerm_lowBank_iff (t := ⟨0x40FF80, 0x004300⟩) (n := 7) (p := 0x86) (by decide) rfl rfl (by decide) a
  simp only [gated, hcfg, matchesAny, defaultGate, List.any_cons, List.any_nil, Bool.or_eq_true, Bool.false_eq_true, or_false,
    hppu, hports, hcpu, hdma]
  omega

/-- Settles O36: the default masks meet R66's four cases, and their four blocks make up the three ranges. -/
theorem defaultGateRejectsFourPages : Obligations.DefaultGateRejectsFourPages := by
  unfold Obligations.DefaultGateRejectsFourPages
  exact ⟨by decide, gated_default_iff rfl⟩

/-- The term of banks 7E and 7F: the seven upper bits of the bank (R67). -/
theorem matchesTerm_wramBanks_iff (a : Addr) :
    matchesTerm ⟨0xFE0000, 0x7E0000⟩ a = true ↔ a.toNat / 0x10000 = 0x7E ∨ a.toNat / 0x10000 = 0x7F := by
  have hland : a.toNat &&& 0xFE0000 = a.toNat / 2 ^ 17 % 2 ^ 7 * 2 ^ 17 := land_field a.toNat 17 7
  have hlt : a.toNat < 2 ^ 24 := a.isLt
  rw [matchesTerm_iff]
  change a.toNat &&& 0xFE0000 = 0x7E0000 ↔ _
  rw [hland]
  omega

/-- Settles O37: the default predicate is its two terms, the WRAM banks and the first block of 2000 of the low banks. -/
theorem defaultWramRanges : Obligations.DefaultWramRanges := by
  unfold Obligations.DefaultWramRanges
  intro a
  have hlow := matchesTerm_lowBank_iff (t := ⟨0x40E000, 0x000000⟩) (n := 13) (p := 0) (by decide) rfl rfl (by decide) a
  simp only [inWram, defaultConfig, matchesAny, defaultWram, List.any_cons, List.any_nil, Bool.or_eq_true,
    Bool.false_eq_true, or_false, matchesTerm_wramBanks_iff, hlow]
  omega

end Sys2Proof.Machine
end

section
/-! What the block issues on the bus (20_memory.md R62, R68, R69, R81): the accesses of a step are permitted ones, since the
host's transactions add none and those of an orchestration pass the gate or stay in the B-bus page. -/

namespace Sys2Proof.Machine

/-- The parameters stay, and every event added to the trace is a permitted one. -/
def AddsPermitted (s t : State) : Prop := t.cfg = s.cfg ∧ ∃ es, t.trace = s.trace ++ es ∧ ∀ e ∈ es, e.permitted s.cfg

theorem AddsPermitted.of_frame {s t : State} (hcfg : t.cfg = s.cfg) (htrace : t.trace = s.trace) : AddsPermitted s t :=
  ⟨hcfg, [], by simp [htrace], by simp⟩

theorem AddsPermitted.trans {s t u : State} (h : AddsPermitted s t) (k : AddsPermitted t u) : AddsPermitted s u := by
  obtain ⟨hcfg, es, htrace, hes⟩ := h
  obtain ⟨kcfg, fs, ktrace, hfs⟩ := k
  refine ⟨kcfg.trans hcfg, es ++ fs, by simp [ktrace, htrace], fun e he => ?_⟩
  exact (List.mem_append.1 he).elim (hes e) fun he => hcfg ▸ hfs e he

theorem Orchestrated.addsPermitted {s t : State} (h : Orchestrated s t) : AddsPermitted s t := by
  obtain ⟨es, htrace, -, hes⟩ := h.emits
  exact ⟨h.cfg, es, htrace, hes⟩

theorem step_addsPermitted {s t : State} (h : step s = .next t) : AddsPermitted s t :=
  step_rel (fun _ => .of_frame rfl rfl) (fun _ _ _ => .trans) (fun _ _ h => .of_frame h.cfg h.trace)
    (fun _ _ => Orchestrated.addsPermitted) (fun _ _ => .of_frame rfl rfl) h

/-- The register page is the last block the default gate rejects (R66). -/
theorem inRegisterPage_of_not_gated {cfg : Config} (hcfg : cfg.aGate = defaultGate) {a : Addr} (h : gated cfg a = false) :
    inRegisterPage a = false := by
  simp only [gated, hcfg, matchesAny, defaultGate, List.any_cons, Bool.or_eq_false_iff] at h
  obtain ⟨-, -, -, hpage, -⟩ := h
  exact hpage

/-- Bit 14 is set in the register page and clear in the B-bus page 2100-21FF (R62). -/
theorem inRegisterPage_bBusAddr {cfg : Config} (hcfg : cfg.bbusBase = 0x002100) (off : Byte) :
    inRegisterPage (bBusAddr cfg off) = false := by
  rw [inRegisterPage, beq_eq_false_iff_ne, bBusAddr, hcfg]
  intro h
  simpa using congrArg (·.getLsbD 14) h

theorem inRegisterPage_of_permitted {cfg : Config} (hgate : cfg.aGate = defaultGate) (hbase : cfg.bbusBase = 0x002100)
    {e : PortEvent} (he : e.permitted cfg) {a : Addr} (ha : e.busAddr = some a) : inRegisterPage a = false := by
  rcases he a ha with hopen | ⟨off, rfl⟩
  · exact inRegisterPage_of_not_gated hgate hopen
  · exact inRegisterPage_bBusAddr hbase off

/-- Settles O57: a step adds permitted accesses only, and neither kind of them falls in the register page. -/
theorem stepNeverReachesTheRegisterPage : Obligations.StepNeverReachesTheRegisterPage := by
  unfold Obligations.StepNeverReachesTheRegisterPage
  intro s t hgate hbase h
  obtain ⟨-, es, htrace, hes⟩ := step_addsPermitted h
  exact ⟨es, htrace, fun e he _ => inRegisterPage_of_permitted hgate hbase (hes e he)⟩

end Sys2Proof.Machine
end

section
/-! The transactions the host issues during a bus access (20_memory.md R75): while an orchestration runs, top level and
re-entrant issue agree, since EN.DMA starts nothing then and the commands are refused. -/

namespace Sys2Proof.Machine

/-- Settles O32: outside the channels a list of re-entrant transactions only adds answers and may set the mark. -/
theorem reentrantTransactionsIssueNoAccess : Obligations.ReentrantTransactionsIssueNoAccess := by
  unfold Obligations.ReentrantTransactionsIssueNoAccess
  intro ts s
  have h := hostOnly_reenterAll ts s
  exact ⟨h.trace, h.cycles, h.turns, h.running, h.status, h.refused⟩

theorem command_of_running {s : State} (h : s.running = true) (effect : State → State) :
    command effect s = refuse .reentrantCommand s := by
  rw [command, if_pos h]

theorem enableDma_of_running {s : State} (h : s.running = true) (m : Byte) : enableDma m s = assignEnable m s := by
  simp [enableDma, h]

/-- Settles O31: of the nine groups only EN.DMA and the commands ask whether an orchestration runs. -/
theorem reentrantTransactionsActAsTheirRules : Obligations.ReentrantTransactionsActAsTheirRules := by
  unfold Obligations.ReentrantTransactionsActAsTheirRules
  intro i s h
  induction i using Instr.byGroup with
  | wr r c v => rw [exec_wrInstr, reenterInstr_wrInstr]
  | rd r c => rw [exec_rdInstr, reenterInstr_rdInstr]
  | enDma m => rw [exec_enDma, enableDma_of_running h, reenterInstr]
  | enHdma m => rw [exec_enHdma, reenterInstr]
  | dmarun => rw [exec_dmarun, command_of_running h, reenterInstr]
  | hdmarun => rw [exec_hdmarun, command_of_running h, reenterInstr]
  | hdmasetup => rw [exec_hdmasetup, command_of_running h, reenterInstr]
  | reset => rw [exec_reset, command_of_running h, reenterInstr]
  | hfin => rw [exec_hfin, reenterInstr]

end Sys2Proof.Machine
end

section
/-! The fields of a header as numbers (30_encoding.md R91): they make it up, and the checks of R95 are facts about them. -/

namespace Sys2Proof.Machine

theorem toNat_hdrKind (h : BitVec 16) : (hdrKind h).toNat = h.toNat / 0x1000 := by
  have := h.isLt
  simp only [hdrKind, BitVec.extractLsb'_toNat, Nat.shiftRight_eq_div_pow]
  omega

theorem toNat_hdrRsv (h : BitVec 16) : (hdrRsv h).toNat = h.toNat / 0x80 % 0x20 := by
  simp [hdrRsv, Nat.shiftRight_eq_div_pow]

theorem toNat_hdrLow (h : BitVec 16) : (hdrLow h).toNat = h.toNat % 0x80 := by
  simp [hdrLow]

theorem val_hdrCh (h : BitVec 16) : (hdrCh h).val = h.toNat / 0x10 % 8 := by
  simp [hdrCh, Nat.shiftRight_eq_div_pow]

theorem toNat_hdrOff (h : BitVec 16) : (hdrOff h).toNat = h.toNat % 0x10 := by
  simp [hdrOff]

/-- A header is made of its kind, its reserved field and its low bits. -/
theorem hdr_ext {g h : BitVec 16} (hkind : hdrKind g = hdrKind h) (hrsv : hdrRsv g = hdrRsv h)
    (hlow : hdrLow g = hdrLow h) : g = h := by
  rw [← BitVec.toNat_inj] at hkind hrsv hlow ⊢
  simp only [toNat_hdrKind, toNat_hdrRsv, toNat_hdrLow] at hkind hrsv hlow
  omega

/-- The low bits are made of the channel and the offset. -/
theorem hdrLow_ext {g h : BitVec 16} (hch : hdrCh g = hdrCh h) (hoff : hdrOff g = hdrOff h) : hdrLow g = hdrLow h := by
  rw [← Fin.val_inj, val_hdrCh, val_hdrCh] at hch
  rw [← BitVec.toNat_inj] at hoff ⊢
  simp only [toNat_hdrOff, toNat_hdrLow] at hoff ⊢
  omega

theorem reservedClear_iff (t : Txn) : t.reservedClear = true ↔ hdrRsv t.hdr = 0 := by
  have hland : t.hdr.toNat &&& 0x0F80 = t.hdr.toNat / 2 ^ 7 % 2 ^ 5 * 2 ^ 7 := land_field t.hdr.toNat 7 5
  rw [Txn.reservedClear, beq_iff_eq, ← BitVec.toNat_inj, ← BitVec.toNat_inj, BitVec.toNat_and, toNat_hdrRsv]
  simp [hland]

theorem kindDefined_iff (t : Txn) : t.kindDefined = true ↔ hdrKind t.hdr ≤ 8 := by
  have hkind := toNat_hdrKind t.hdr
  rw [Txn.kindDefined, decide_eq_true_iff]
  bv_omega

theorem operandsClear_iff (t : Txn) : t.operandsClear = true ↔ hdrKind t.hdr ≤ 1 ∨ hdrLow t.hdr = 0 := by
  have hland : t.hdr.toNat &&& 0x007F = t.hdr.toNat % 0x80 := Nat.and_two_pow_sub_one_eq_mod t.hdr.toNat 7
  have hkind := toNat_hdrKind t.hdr
  have hlow := toNat_hdrLow t.hdr
  rw [Txn.operandsClear, Bool.or_eq_true, decide_eq_true_iff, beq_iff_eq, ← BitVec.toNat_inj, BitVec.toNat_and]
  change _ ∨ t.hdr.toNat &&& 0x007F = 0 ↔ _
  rw [hland]
  bv_omega

/-- R95, R98 by the header's fields. -/
theorem wf_iff (t : Txn) :
    t.wf = true ↔ hdrRsv t.hdr = 0 ∧ hdrKind t.hdr ≤ 8 ∧ (hdrKind t.hdr ≤ 1 ∨ hdrLow t.hdr = 0) := by
  rw [Txn.wf, Bool.and_eq_true, Bool.and_eq_true, and_assoc, reservedClear_iff, kindDefined_iff, operandsClear_iff]

@[simp] theorem offset_regAt : ∀ off : BitVec 4, (regAt off).offset = off := by decide

/-! The encoder on the register transactions: the header of a row with the channel put in. -/

theorem hdr_encode_wrInstr (r : Reg) (c : Chan) (v : Byte) :
    (encode (wrInstr r c v)).hdr = r.offset.setWidth 16 ||| chBits c := by
  cases r <;> rfl

theorem din_encode_wrInstr (r : Reg) (c : Chan) (v : Byte) : (encode (wrInstr r c v)).din = v := by
  cases r <;> rfl

theorem rowMask_encode_wrInstr (r : Reg) (c : Chan) (v : Byte) :
    (encode (wrInstr r c v)).hdr &&& 0xFF8F = r.offset.setWidth 16 := by
  rw [hdr_encode_wrInstr]
  revert c
  cases r <;> decide

theorem rowMask_encode_rdInstr (r : Reg) (c : Chan) :
    (encode (rdInstr r c)).hdr &&& 0xFF8F = 0x1000 ||| r.offset.setWidth 16 := by
  revert c
  cases r <;> decide

/-- The fields of a WR header (R93). -/
theorem fields_encode_wrInstr (r : Reg) (c : Chan) (v : Byte) :
    hdrKind (encode (wrInstr r c v)).hdr = 0 ∧ hdrRsv (encode (wrInstr r c v)).hdr = 0 ∧
    hdrCh (encode (wrInstr r c v)).hdr = c ∧ hdrOff (encode (wrInstr r c v)).hdr = r.offset := by
  rw [hdr_encode_wrInstr]
  revert c
  cases r <;> decide

/-- The fields of an RD header (R93). -/
theorem fields_encode_rdInstr (r : Reg) (c : Chan) :
    hdrKind (encode (rdInstr r c)).hdr = 1 ∧ hdrRsv (encode (rdInstr r c)).hdr = 0 ∧
    hdrCh (encode (rdInstr r c)).hdr = c ∧ hdrOff (encode (rdInstr r c)).hdr = r.offset := by
  revert c
  cases r <;> decide

/-- A header of another kind whose other bits are 0 decodes by its kind alone (R92). -/
theorem decode_command {h : BitVec 16} (hwr : hdrKind h ≠ 0) (hrd : hdrKind h ≠ 1) (hrsv : hdrRsv h = 0)
    (hlow : hdrLow h = 0) (v : Byte) : decode ⟨h, v⟩ = commandOfKind (hdrKind h) v := by
  rw [decode, if_neg (not_not.2 hrsv), if_neg hwr, if_neg hrd, if_neg fun hne => hne.2 hlow]

theorem decode_encode (i : Instr) : decode (encode i) = .ok i := by
  induction i using Instr.byGroup with
  | wr r c v =>
    obtain ⟨-, -, hch, -⟩ := fields_encode_wrInstr r c v
    exact (decode_wrRow r _ (encode (wrInstr r c v)).din (rowMask_encode_wrInstr r c v)).trans
      (by rw [hch, din_encode_wrInstr])
  | rd r c =>
    obtain ⟨-, -, hch, -⟩ := fields_encode_rdInstr r c
    exact (decode_rdRow r _ (encode (rdInstr r c)).din (rowMask_encode_rdInstr r c)).trans (by rw [hch])
  | enDma m => exact decode_command (h := 0x2000) (by decide) (by decide) rfl rfl m
  | enHdma m => exact decode_command (h := 0x3000) (by decide) (by decide) rfl rfl m
  | dmarun => exact decode_command (h := 0x4000) (by decide) (by decide) rfl rfl 0
  | hdmarun => exact decode_command (h := 0x5000) (by decide) (by decide) rfl rfl 0
  | hdmasetup => exact decode_command (h := 0x6000) (by decide) (by decide) rfl rfl 0
  | reset => exact decode_command (h := 0x7000) (by decide) (by decide) rfl rfl 0
  | hfin => exact decode_command (h := 0x8000) (by decide) (by decide) rfl rfl 0

/-- Settles O1: a register transaction's header keeps its row under the row mask and its channel in bits 6:4; the other
seven headers hold their kind alone. -/
theorem decodeOfEncodeIsTheTransaction : Obligations.DecodeOfEncodeIsTheTransaction := by
  unfold Obligations.DecodeOfEncodeIsTheTransaction
  exact decode_encode

theorem commandOfKind_cases {k : BitVec 4} {v : Byte} {i : Instr} (h : commandOfKind k v = .ok i) :
    k = 2 ∧ i = .enDma v ∨ k = 3 ∧ i = .enHdma v ∨ k = 4 ∧ i = .dmarun ∨ k = 5 ∧ i = .hdmarun ∨ k = 6 ∧ i = .hdmasetup ∨
    k = 7 ∧ i = .reset ∨ k = 8 ∧ i = .hfin := by
  unfold commandOfKind at h
  split at h <;> cases h <;> rename_i hk <;> simp [← BitVec.toNat_inj, hk]

theorem commandOfKind_isOk_iff (k : BitVec 4) (v : Byte) : (∃ i, commandOfKind k v = .ok i) ↔ 2 ≤ k ∧ k ≤ 8 := by
  constructor
  · rintro ⟨i, h⟩
    rcases commandOfKind_cases h with ⟨rfl, -⟩ | ⟨rfl, -⟩ | ⟨rfl, -⟩ | ⟨rfl, -⟩ | ⟨rfl, -⟩ | ⟨rfl, -⟩ | ⟨rfl, -⟩ <;> decide
  · intro h
    have hk : ∀ k : BitVec 4, 2 ≤ k ∧ k ≤ 8 → k = 2 ∨ k = 3 ∨ k = 4 ∨ k = 5 ∨ k = 6 ∨ k = 7 ∨ k = 8 := by decide
    rcases hk k h with rfl | rfl | rfl | rfl | rfl | rfl | rfl <;> exact ⟨_, rfl⟩

/-- The byte is an operand of the two enable ports only (R92, R95). -/
theorem commandOfKind_congr_din {k : BitVec 4} (h2 : k ≠ 2) (h3 : k ≠ 3) (v w : Byte) :
    commandOfKind k v = commandOfKind k w := by
  unfold commandOfKind
  split
  case h_1 => bv_omega
  case h_2 => bv_omega
  all_goals rfl

/-- All the ways a raw transaction can decode. -/
theorem decode_cases {t : Txn} {i : Instr} (h : decode t = .ok i) :
    hdrRsv t.hdr = 0 ∧
    (hdrKind t.hdr = 0 ∧ i = wrInstr (regAt (hdrOff t.hdr)) (hdrCh t.hdr) t.din ∨
     hdrKind t.hdr = 1 ∧ i = rdInstr (regAt (hdrOff t.hdr)) (hdrCh t.hdr) ∨
     hdrLow t.hdr = 0 ∧ commandOfKind (hdrKind t.hdr) t.din = .ok i) := by
  unfold decode at h
  split_ifs at h with hrsv hwr hrd hlow
  · cases h
    exact ⟨not_not.1 hrsv, .inl ⟨hwr, rfl⟩⟩
  · cases h
    exact ⟨not_not.1 hrsv, .inr (.inl ⟨hrd, rfl⟩)⟩
  · obtain ⟨-, hkind⟩ := (commandOfKind_isOk_iff _ _).1 ⟨i, h⟩
    exact ⟨not_not.1 hrsv, .inr (.inr ⟨not_not.1 fun hne => hlow ⟨hkind, hne⟩, h⟩)⟩

/-- The decoder accepts exactly the headers that are no reserved encoding (R95, R96). -/
theorem decode_isOk_iff (t : Txn) : (∃ i, decode t = .ok i) ↔ t.wf = true := by
  have hle : ∀ k : BitVec 4, k ≤ 1 ↔ k = 0 ∨ k = 1 := by decide
  rw [wf_iff, hle]
  constructor
  · rintro ⟨i, h⟩
    obtain ⟨hrsv, ⟨hk, -⟩ | ⟨hk, -⟩ | ⟨hlow, hcmd⟩⟩ := decode_cases h
    · exact ⟨hrsv, by rw [hk]; decide, .inl (.inl hk)⟩
    · exact ⟨hrsv, by rw [hk]; decide, .inl (.inr hk)⟩
    · exact ⟨hrsv, ((commandOfKind_isOk_iff _ _).1 ⟨i, hcmd⟩).2, .inr hlow⟩
  · rintro ⟨hrsv, hkind, hlow⟩
    by_cases hwr : hdrKind t.hdr = 0
    · exact ⟨_, by rw [decode, if_neg (not_not.2 hrsv), if_pos hwr]⟩
    by_cases hrd : hdrKind t.hdr = 1
    · exact ⟨_, by rw [decode, if_neg (not_not.2 hrsv), if_neg hwr, if_pos hrd]⟩
    have hlow := hlow.resolve_left (not_or.2 ⟨hwr, hrd⟩)
    rw [decode_command hwr hrd hrsv hlow, commandOfKind_isOk_iff]
    exact ⟨by bv_omega, hkind⟩

theorem decode_error_of_not_wf {t : Txn} (h : t.wf = false) : ∃ e, decode t = .error e := by
  cases hd : decode t with
  | error e => exact ⟨e, rfl⟩
  | ok i => simp [(decode_isOk_iff t).1 ⟨i, hd⟩] at h

/-- Settles O3: the fields of the header decide both sides, and an error of the decoder is refused in the two places that
decode. -/
theorem reservedHeadersAreRefusedAndNothingElse : Obligations.ReservedHeadersAreRefusedAndNothingElse := by
  unfold Obligations.ReservedHeadersAreRefusedAndNothingElse
  refine ⟨decode_isOk_iff, fun t rest s hwf => ?_⟩
  obtain ⟨e, he⟩ := decode_error_of_not_wf hwf
  constructor
  · intro hreq
    simp only [step, hreq, he]
    rfl
  · simp only [reenterTxn, he]
    rfl

/-- Settles O4: each of the reserved fields contradicts what the decoder accepts, and the byte is an operand of kinds 0x0,
0x2 and 0x3 only. -/
theorem reservedBitsAndIgnoredDataBytes : Obligations.ReservedBitsAndIgnoredDataBytes := by
  unfold Obligations.ReservedBitsAndIgnoredDataBytes
  constructor
  · intro t hbits i hd
    obtain ⟨hrsv, hk⟩ := decode_cases hd
    obtain hne | ⟨hwr, hrd, hlow⟩ := hbits
    · exact hne hrsv
    · obtain ⟨hk, -⟩ | ⟨hk, -⟩ | ⟨hk, -⟩ := hk
      · exact hwr hk
      · exact hrd hk
      · exact hlow hk
  · intro h v w hwr h2 h3
    change hdrKind h ≠ 0 at hwr
    have hcmd : commandOfKind (hdrKind h) v = commandOfKind (hdrKind h) w := commandOfKind_congr_din h2 h3 v w
    simp only [decode, hwr, hcmd, if_false]

/-- A command's encoding holds its kind alone, and the byte of an enable port. -/
theorem encode_of_command {k : BitVec 4} {v : Byte} {i : Instr} (h : commandOfKind k v = .ok i) :
    encode i = ⟨k ++ 0#12, if k = 2 ∨ k = 3 then v else 0⟩ := by
  rcases commandOfKind_cases h with ⟨rfl, rfl⟩ | ⟨rfl, rfl⟩ | ⟨rfl, rfl⟩ | ⟨rfl, rfl⟩ | ⟨rfl, rfl⟩ | ⟨rfl, rfl⟩ | ⟨rfl, rfl⟩ <;>
    rfl

/-- The header of a kind alone. -/
theorem fields_kindHeader : ∀ k : BitVec 4, hdrKind (k ++ 0#12) = k ∧ hdrRsv (k ++ 0#12) = 0 ∧ hdrLow (k ++ 0#12) = 0 := by
  decide

/-- Settles O2: the encoding has the same fields as the header it was decoded from. -/
theorem encodeOfDecodeIsTheRawTransaction : Obligations.EncodeOfDecodeIsTheRawTransaction := by
  unfold Obligations.EncodeOfDecodeIsTheRawTransaction
  intro t i h
  obtain ⟨hrsv, ⟨hk, rfl⟩ | ⟨hk, rfl⟩ | ⟨hlow, hcmd⟩⟩ := decode_cases h
  · obtain ⟨ekind, ersv, ech, eoff⟩ := fields_encode_wrInstr (regAt (hdrOff t.hdr)) (hdrCh t.hdr) t.din
    rw [offset_regAt] at eoff
    exact ⟨hdr_ext (ekind.trans hk.symm) (ersv.trans hrsv.symm) (hdrLow_ext ech eoff), fun _ => din_encode_wrInstr _ _ _⟩
  · obtain ⟨ekind, ersv, ech, eoff⟩ := fields_encode_rdInstr (regAt (hdrOff t.hdr)) (hdrCh t.hdr)
    rw [offset_regAt] at eoff
    refine ⟨hdr_ext (ekind.trans hk.symm) (ersv.trans hrsv.symm) (hdrLow_ext ech eoff), ?_⟩
    simp [hk]
  · obtain ⟨ekind, ersv, elow⟩ := fields_kindHeader (hdrKind t.hdr)
    rw [encode_of_command hcmd]
    refine ⟨hdr_ext ekind (ersv.trans hrsv.symm) (elow.trans hlow.symm), fun hk => if_pos (hk.resolve_left fun h0 => ?_)⟩
    simp [h0, commandOfKind] at hcmd

/-- Settles O6: six words are the encoding of a transaction, and the other three break one field each. -/
theorem wordsWrittenOutDecode : Obligations.WordsWrittenOutDecode := by
  unfold Obligations.WordsWrittenOutDecode
  exact ⟨decode_encode (.wrSizel 7 0xAB), decode_encode (.rdScrf 7), decode_encode (.enDma 0x81), decode_encode (.enHdma 0xFE),
    decode_encode .hdmarun, decode_encode .hfin, rfl, rfl, rfl⟩

end Sys2Proof.Machine
end

section
/-! The opcode table as data (30_encoding.md R97): its rows by register, what a covered header decodes to, and the row of
each transaction. -/

namespace Sys2Proof.Machine

/-- The row of WR at a register. -/
def wrRow (r : Reg) : OpcodeRow := ⟨(wrInstr r 0 0).mnemonic, r.offset.setWidth 16, 0xFF8F⟩

/-- The row of RD at a register. -/
def rdRow (r : Reg) : OpcodeRow := ⟨(rdInstr r 0).mnemonic, 0x1000 ||| r.offset.setWidth 16, 0xFF8F⟩

/-- The registers in the order of their offsets. -/
def pageRegs : List Reg := regNames.map Prod.snd

theorem mem_pageRegs (r : Reg) : r ∈ pageRegs := by cases r <;> decide

theorem opcodeTable_eq : opcodeTable = pageRegs.map wrRow ++ pageRegs.map rdRow ++ opcodeRowsSingle := rfl

theorem mem_opcodeTable_iff (row : OpcodeRow) :
    row ∈ opcodeTable ↔ (∃ r, row = wrRow r) ∨ (∃ r, row = rdRow r) ∨ row ∈ opcodeRowsSingle := by
  simp [opcodeTable_eq, mem_pageRegs, eq_comm]

theorem mnemonic_wrInstr (r : Reg) (c : Chan) (v : Byte) : (wrInstr r c v).mnemonic = (wrRow r).mnemonic := by
  cases r <;> rfl

theorem mnemonic_rdInstr (r : Reg) (c : Chan) : (rdInstr r c).mnemonic = (rdRow r).mnemonic := by
  cases r <;> rfl

/-- The row mask loses no bit of a row's pattern and keeps no bit that the row's own mask loses. -/
theorem rowMask_row : ∀ row ∈ opcodeTable, row.mask &&& 0xFF8F = 0xFF8F ∧ row.pattern &&& 0xFF8F = row.pattern := by
  decide

/-- A row is found by the header it covers. -/
theorem pattern_of_covers {row : OpcodeRow} (hrow : row ∈ opcodeTable) {h : BitVec 16} (hc : row.covers h = true) :
    row.pattern = h &&& 0xFF8F := by
  obtain ⟨hmask, hpattern⟩ := rowMask_row row hrow
  rw [OpcodeRow.covers, beq_iff_eq] at hc
  rw [← hpattern, ← hc, BitVec.and_assoc, hmask]

theorem patterns_ne : opcodeTable.Pairwise fun a b => a.pattern ≠ b.pattern := by decide

theorem rows_disjoint : opcodeTable.Pairwise fun a b => ∀ h, ¬(a.covers h = true ∧ b.covers h = true) := by
  refine patterns_ne.imp_of_mem fun ha hb hne h hc => hne ?_
  rw [pattern_of_covers ha hc.1, pattern_of_covers hb hc.2]

theorem decode_singleRow {row : OpcodeRow} (hrow : row ∈ opcodeRowsSingle) (v : Byte) :
    ∃ i, decode ⟨row.pattern, v⟩ = .ok i ∧ i.mnemonic = row.mnemonic := by
  have hfields : ∀ row ∈ opcodeRowsSingle, hdrKind row.pattern ≠ 0 ∧ hdrKind row.pattern ≠ 1 ∧ hdrRsv row.pattern = 0 ∧
    hdrLow row.pattern = 0 := by decide
  obtain ⟨hwr, hrd, hrsv, hlow⟩ := hfields row hrow
  rw [decode_command hwr hrd hrsv hlow]
  fin_cases hrow <;> exact ⟨_, rfl, rfl⟩

theorem decode_of_covers {row : OpcodeRow} (hrow : row ∈ opcodeTable) {t : Txn} (hc : row.covers t.hdr = true) :
    ∃ i, decode t = .ok i ∧ i.mnemonic = row.mnemonic := by
  have hpattern := pattern_of_covers hrow hc
  obtain ⟨r, rfl⟩ | ⟨r, rfl⟩ | hsingle := (mem_opcodeTable_iff row).1 hrow
  · exact ⟨_, decode_wrRow r t.hdr t.din hpattern.symm, mnemonic_wrInstr _ _ _⟩
  · exact ⟨_, decode_rdRow r t.hdr t.din hpattern.symm, mnemonic_rdInstr _ _⟩
  · have hmask : ∀ row ∈ opcodeRowsSingle, row.mask = BitVec.allOnes 16 := by decide
    rw [OpcodeRow.covers, hmask row hsingle, BitVec.and_allOnes, beq_iff_eq] at hc
    obtain ⟨h, v⟩ := t
    subst hc
    exact decode_singleRow hsingle v

theorem exists_row_of_single {row : OpcodeRow} (hrow : row ∈ opcodeRowsSingle) :
    ∃ row' ∈ opcodeTable, row'.covers row.pattern = true ∧ row'.mnemonic = row.mnemonic := by
  have hcovers : ∀ row ∈ opcodeRowsSingle, row.covers row.pattern = true := by decide
  exact ⟨row, (mem_opcodeTable_iff row).2 (.inr (.inr hrow)), hcovers row hrow, rfl⟩

theorem exists_row_of_encode (i : Instr) :
    ∃ row ∈ opcodeTable, row.covers (encode i).hdr = true ∧ row.mnemonic = i.mnemonic := by
  induction i using Instr.byGroup with
  | wr r c v =>
    exact ⟨wrRow r, (mem_opcodeTable_iff _).2 (.inl ⟨r, rfl⟩), beq_iff_eq.2 (rowMask_encode_wrInstr r c v),
      (mnemonic_wrInstr r c v).symm⟩
  | rd r c =>
    exact ⟨rdRow r, (mem_opcodeTable_iff _).2 (.inr (.inl ⟨r, rfl⟩)), beq_iff_eq.2 (rowMask_encode_rdInstr r c),
      (mnemonic_rdInstr r c).symm⟩
  | enDma m => exact exists_row_of_single (row := ⟨"EN.DMA", 0x2000, 0xFFFF⟩) (by decide)
  | enHdma m => exact exists_row_of_single (row := ⟨"EN.HDMA", 0x3000, 0xFFFF⟩) (by decide)
  | dmarun => exact exists_row_of_single (row := ⟨"DMARUN", 0x4000, 0xFFFF⟩) (by decide)
  | hdmarun => exact exists_row_of_single (row := ⟨"HDMARUN", 0x5000, 0xFFFF⟩) (by decide)
  | hdmasetup => exact exists_row_of_single (row := ⟨"HDMASETUP", 0x6000, 0xFFFF⟩) (by decide)
  | reset => exact exists_row_of_single (row := ⟨"RESET", 0x7000, 0xFFFF⟩) (by decide)
  | hfin => exact exists_row_of_single (row := ⟨"HFIN", 0x8000, 0xFFFF⟩) (by decide)

/-- Settles O5: the row mask reads a row's pattern off any header it covers, which finds the row and what it decodes to;
and a header that decodes is the encoding of its transaction, which the transaction's row covers. -/
theorem opcodeRowsAreDisjointAndAreWhatDecodes : Obligations.OpcodeRowsAreDisjointAndAreWhatDecodes := by
  unfold Obligations.OpcodeRowsAreDisjointAndAreWhatDecodes
  refine ⟨rfl, rows_disjoint, fun t i h => ?_, fun t row hrow => decode_of_covers hrow⟩
  obtain ⟨hhdr, -⟩ := encodeOfDecodeIsTheRawTransaction t i h
  exact hhdr ▸ exists_row_of_encode i

end Sys2Proof.Machine
end

section
/-! The host's mapping (30_encoding.md R99): the 128 addresses of the page are the register headers, channel by channel. -/

namespace Sys2Proof.Machine

/-- An offset in the page is a channel's block of 16 and a register's place in it. -/
theorem exists_chan_reg {n : Nat} (hn : n < 0x80) : ∃ (c : Chan) (r : Reg), c.val * 0x10 + r.offset.toNat = n := by
  refine ⟨⟨n / 0x10, by omega⟩, regAt (BitVec.ofNat 4 n), ?_⟩
  rw [offset_regAt, BitVec.toNat_ofNat]
  exact Nat.div_add_mod' n 0x10

/-- The address field that R99 subtracts for is the header's channel and offset. -/
theorem setWidth_pageOffset (r : Reg) : ∀ c : Chan,
    (BitVec.ofNat 7 (c.val * 0x10 + r.offset.toNat)).setWidth 16 = r.offset.setWidth 16 ||| chBits c := by
  cases r <;> decide

theorem pageOffset_of_page {cfg : Config} {a : Addr}
    (h : cfg.dmaPageBase.toNat ≤ a.toNat ∧ a.toNat ≤ cfg.dmaPageBase.toNat + 0x7F) :
    pageOffset cfg a = some (BitVec.ofNat 7 (a.toNat - cfg.dmaPageBase.toNat)) := if_pos h

theorem hostWrite_of_pageOffset {cfg : Config} {a : Addr} {c : Chan} {r : Reg}
    (h : pageOffset cfg a = some (BitVec.ofNat 7 (c.val * 0x10 + r.offset.toNat))) (v : Byte) :
    hostWrite cfg a v = some (encode (wrInstr r c v)) := by
  rw [hostWrite, h, Option.map_some, setWidth_pageOffset]
  cases r <;> rfl

theorem hostRead_of_pageOffset {cfg : Config} {a : Addr} {c : Chan} {r : Reg}
    (h : pageOffset cfg a = some (BitVec.ofNat 7 (c.val * 0x10 + r.offset.toNat))) :
    hostRead cfg a = some (encode (rdInstr r c)) := by
  rw [hostRead, h, Option.map_some, setWidth_pageOffset, ← BitVec.or_assoc]
  cases r <;> rfl

/-- Settles O21: an access in the page is mapped to the encoding of a write or read, which decodes to it. -/
theorem hostMappingReachesThePage : Obligations.HostMappingReachesThePage := by
  unfold Obligations.HostMappingReachesThePage
  refine fun cfg a v => ⟨fun hpage => ?_, fun hout => ?_⟩
  · obtain ⟨c, r, hcr⟩ := exists_chan_reg (n := a.toNat - cfg.dmaPageBase.toNat) (by omega)
    have hoff := hcr ▸ pageOffset_of_page hpage
    exact ⟨_, _, c, r, hostWrite_of_pageOffset hoff v, hostRead_of_pageOffset hoff, decode_encode _, decode_encode _, hcr⟩
  · have hoff : pageOffset cfg a = none := if_neg hout
    simp [hostWrite, hostRead, hoff]

end Sys2Proof.Machine
end

section
/-! The pseudo-instructions that write (30_encoding.md R102): the bytes of an immediate put together again, and two writes
to one channel, one after the other. -/

namespace Sys2Proof.Machine

theorem immByte_eq_extractLsb' {w : Nat} (imm : BitVec w) (i : Nat) : immByte imm.toNat i = imm.extractLsb' (8 * i) 8 := by
  rw [immByte, BitVec.extractLsb', Nat.shiftRight_eq_div_pow]

/-- The low and the high byte of an immediate are its bits 15:0. -/
theorem joinBytes_immByte {w : Nat} (imm : BitVec w) :
    joinBytes (immByte imm.toNat 1) (immByte imm.toNat 0) = imm.extractLsb' 0 16 := by
  rw [immByte_eq_extractLsb', immByte_eq_extractLsb', joinBytes]
  exact BitVec.extractLsb'_append_extractLsb'_eq_extractLsb' rfl

/-- So are those of its low 16 bits, the operand of a 16-bit pseudo-instruction. -/
theorem joinBytes_immByte_mod (imm : BitVec 24) :
    joinBytes (immByte (imm.toNat % 2 ^ 16) 1) (immByte (imm.toNat % 2 ^ 16) 0) = imm.extractLsb' 0 16 := by
  have hmod : imm.toNat % 2 ^ 16 = (imm.extractLsb' 0 16).toNat := by simp
  rw [hmod, joinBytes_immByte]
  exact BitVec.extractLsb'_eq_self

theorem expand_of_wf {p : Pseudo} {c : Chan} (hwf : p.wf = true) (hc : pseudoChan p = c.val) :
    expand p = some (expandAt p c) := by
  rw [expand, if_pos hwf, hc, asmChan, dif_pos c.isLt, Option.map_some]

theorem withHi_withLo (w : Half) (hi lo : Byte) : withHi (withLo w lo) hi = joinBytes hi lo := by
  rw [withHi, loByte_withLo]

theorem writePage_eq (c : Chan) (r : Reg) (v : Byte) (s : State) :
    writePage c r v s = { s with
      channels := s.channels.set c (s.channels[c].writeReg r v), replies := s.replies ++ [.done] } := rfl

/-- Two writes to one channel in a row: the second goes to the channel as the first left it. -/
theorem writePage_writePage (c : Chan) (r q : Reg) (v w : Byte) (s : State) :
    writePage c q w (writePage c r v s) = { s with
      channels := s.channels.set c ((s.channels[c].writeReg r v).writeReg q w), replies := s.replies ++ [.done, .done] } := by
  simp [writePage_eq]

/-- Settles O20: the expansions are two writes to one channel, and for WR24.SRC a third to its bank; the halves written one
after the other make up the register. -/
theorem pseudoWritesLoadTheWholeRegister : Obligations.PseudoWritesLoadTheWholeRegister := by
  unfold Obligations.PseudoWritesLoadTheWholeRegister
  intro c imm s
  have hwf16 : (decide (c.val < 8) && decide (imm.toNat % 2 ^ 16 < 2 ^ 16)) = true := by simp [Nat.mod_lt]
  have hwf24 : (Pseudo.wr24Src c.val imm.toNat).wf = true := by simp [Pseudo.wf, imm.isLt]
  refine ⟨⟨_, _, _, _, expand_of_wf hwf16 rfl, rfl, rfl, ?src16⟩,
    ⟨_, _, _, _, _, _, expand_of_wf hwf24 rfl, rfl, rfl, rfl, ?src24⟩,
    ⟨_, _, _, _, expand_of_wf hwf16 rfl, rfl, rfl, ?size⟩, ⟨_, _, _, _, expand_of_wf hwf16 rfl, rfl, rfl, ?hadr⟩⟩
  case src24 =>
    have hbank : immByte imm.toNat 2 = imm.extractLsb' 16 8 := immByte_eq_extractLsb' imm 2
    rw [writePage_writePage, writePage_eq]
    simp [Channel.writeReg, withHi_withLo, joinBytes_immByte, hbank]
  all_goals
    rw [writePage_writePage]
    simp only [Channel.writeReg, withHi_withLo, joinBytes_immByte_mod]

end Sys2Proof.Machine
end

section
/-! The B-register mode decoder (40_general_dma.md R129, R130): what each mode adds to the target, in the words of the
pattern table. -/

namespace Sys2Proof.Machine

/-- Modes 0, 2 and 6 keep to one register (R129). -/
theorem modeStep_of_fixed {mode : BitVec 3} (h : mode = 0 ∨ mode = 2 ∨ mode = 6) (mask : Mode4Mask) (idx : Nat) :
    modeStep mask mode idx = 0 := by
  rcases h with rfl | rfl | rfl <;> rfl

/-- Modes 1 and 5 alternate between two registers (R129). -/
theorem modeStep_of_alternating {mode : BitVec 3} (h : mode = 1 ∨ mode = 5) (mask : Mode4Mask) (idx : Nat) :
    modeStep mask mode idx = BitVec.ofNat 8 (idx % 2) := by
  rcases h with rfl | rfl <;> rfl

/-- Modes 3 and 7 take each of two registers twice (R129). -/
theorem modeStep_of_paired {mode : BitVec 3} (h : mode = 3 ∨ mode = 7) (mask : Mode4Mask) (idx : Nat) :
    modeStep mask mode idx = BitVec.ofNat 8 (idx / 2 % 2) := by
  rcases h with rfl | rfl <;> rfl

/-- Mode 4 under the mask 0xFF adds the index mod 256 (R130). -/
theorem toNat_modeStep_four_full (idx : Nat) : (modeStep .full 4 idx).toNat = idx % 256 := by
  change idx % 256 % 256 &&& 2 ^ 8 - 1 = idx % 256
  rw [Nat.and_two_pow_sub_one_eq_mod]
  omega

/-- Mode 4 under the mask 0x03 adds the index mod 4 (R130). -/
theorem toNat_modeStep_four_low2 (idx : Nat) : (modeStep .low2 4 idx).toNat = idx % 4 := by
  change idx % 256 % 256 &&& 2 ^ 2 - 1 = idx % 4
  rw [Nat.and_two_pow_sub_one_eq_mod]
  omega

/-- Settles O34: each mode's pattern, read off at the residues of the index. -/
theorem modeDecoderFollowsThePatternTable : Obligations.ModeDecoderFollowsThePatternTable := by
  unfold Obligations.ModeDecoderFollowsThePatternTable
  intro mask t i
  refine ⟨fun m hm => ?fixed, fun m hm => ?alternating, fun m hm => ?paired, ?full, ?low2⟩
  case fixed => simp [bOffset, modeStep_of_fixed hm]
  case alternating =>
    have hodd : (2 * i + 1) % 2 = 1 := by omega
    simp [bOffset, modeStep_of_alternating hm, hodd]
  case paired =>
    have h0 : 4 * i / 2 % 2 = 0 := by omega
    have h1 : (4 * i + 1) / 2 % 2 = 0 := by omega
    have h2 : (4 * i + 2) / 2 % 2 = 1 := by omega
    have h3 : (4 * i + 3) / 2 % 2 = 1 := by omega
    simp only [bOffset, modeStep_of_paired hm, h0, h1, h2, h3]
    simp
  case full => rw [bOffset, BitVec.toNat_add, toNat_modeStep_four_full, Nat.add_mod_mod]
  case low2 => rw [bOffset, BitVec.toNat_add, toNat_modeStep_four_low2]

end Sys2Proof.Machine
end

section
/-! The bus events of one transfer byte (40_general_dma.md R128, R131 to R134): what each gated or conflicted access adds to
the trace and yields, and the two directions put together from them. -/

namespace Sys2Proof.Machine

theorem abusRead_fst (a : Addr) (s : State) : (abusRead a s).1 = if gated s.cfg a then 0x00 else nextByte s := by
  unfold abusRead
  split <;> rfl

theorem trace_abusRead (a : Addr) (s : State) :
    (abusRead a s).2.trace = s.trace ++ if gated s.cfg a then [] else [.read a (nextByte s)] := by
  unfold abusRead
  split <;> simp [memRead_frame]

theorem trace_abusWrite (a : Addr) (v : Byte) (s : State) :
    (abusWrite a v s).trace = s.trace ++ if gated s.cfg a then [] else [.write a v] := by
  unfold abusWrite
  split <;> simp [memWrite_frame]

theorem bbusRead_fst (vb : Bool) (b : Addr) (s : State) : (bbusRead vb b s).1 = if vb then nextByte s else 0x00 := by
  unfold bbusRead
  split <;> rfl

theorem trace_bbusRead (vb : Bool) (b : Addr) (s : State) :
    (bbusRead vb b s).2.trace = s.trace ++ if vb then [.read b (nextByte s)] else [] := by
  unfold bbusRead
  split <;> simp [memRead_frame]

theorem cfg_bbusRead (vb : Bool) (b : Addr) (s : State) : (bbusRead vb b s).2.cfg = s.cfg := by
  unfold bbusRead
  split <;> simp [memRead_frame]

theorem trace_bbusWrite (vb : Bool) (b : Addr) (v : Byte) (s : State) :
    (bbusWrite vb b v s).trace = s.trace ++ if vb then [.write b v] else [] := by
  unfold bbusWrite
  split <;> simp [memWrite_frame]

/-- R67: only the WRAM port, and only against a WRAM address, is a conflict. -/
theorem validB_eq_false_iff (cfg : Config) (off : Byte) (a : Addr) :
    validB cfg off a = false ↔ off = 0x80 ∧ inWram cfg a = true := by
  simp [validB]

/-- The accesses of a byte from the A bus to the B-bus register at `off`, where the bus answers a read with v (R131, R133). -/
def accessesAToB (cfg : Config) (off : Byte) (a : Addr) (v : Byte) : List PortEvent :=
  (if gated cfg a then [] else [.read a v]) ++
    if validB cfg off a then [.write (bBusAddr cfg off) (if gated cfg a then 0x00 else v)] else []

/-- The accesses of a byte from the B-bus register at `off` to the A bus, where the bus answers a read with v (R132, R133). -/
def accessesBToA (cfg : Config) (off : Byte) (a : Addr) (v : Byte) : List PortEvent :=
  (if validB cfg off a then [.read (bBusAddr cfg off) v] else []) ++
    if gated cfg a then [] else [.write a (if validB cfg off a then v else 0x00)]

theorem trace_transfer_aToB {c : Chan} {s : State} (hdir : (s.ch c).direction = false) (a : Addr) (idx : Nat) :
    (transfer c a idx s).trace = s.trace ++ .charge 8 ::
      accessesAToB s.cfg (bOffset s.cfg.mode4Mask (s.ch c).transferMode (s.ch c).targetAddress idx) a (nextByte s) := by
  simp only [transfer, hdir, Bool.false_eq_true, if_false, trace_bbusWrite, trace_abusRead, abusRead_fst, trace_charge,
    List.append_assoc, List.singleton_append]
  rfl

theorem trace_transfer_bToA {c : Chan} {s : State} (hdir : (s.ch c).direction = true) (a : Addr) (idx : Nat) :
    (transfer c a idx s).trace = s.trace ++ .charge 8 ::
      accessesBToA s.cfg (bOffset s.cfg.mode4Mask (s.ch c).transferMode (s.ch c).targetAddress idx) a (nextByte s) := by
  simp [transfer, hdir, trace_abusWrite, trace_bbusRead, bbusRead_fst, cfg_bbusRead, accessesBToA]

/-- Settles O35: the accesses of each direction, by the gate and by the conflict; every byte costs 8, and with no re-entrant
transactions it writes no channel. -/
theorem transferIssuesItsAccessesInOrder : Obligations.TransferIssuesItsAccessesInOrder := by
  unfold Obligations.TransferIssuesItsAccessesInOrder
  intro c a idx s
  simp only [← validB_eq_false_iff, Bool.not_eq_false]
  refine ⟨?_, ?_, ?_, ?_, ?_, ?_, ?_, ?_, cycles_transfer c a idx s, fun hq => (quietBus_transfer c a idx hq).channels⟩
  iterate 4
    intro hdir hgate hvb
    simp [trace_transfer_aToB hdir, accessesAToB, hgate, hvb, bBusAddr]
  iterate 4
    intro hdir hgate hvb
    simp [trace_transfer_bToA hdir, accessesBToA, hgate, hvb, bBusAddr]

end Sys2Proof.Machine
end

section
/-! General DMA on one channel (40_general_dma.md R120 to R127): the two cases without a byte, and the loop by the equation
that Laws/Dma.lean proves of it without its bound. -/

namespace Sys2Proof.Machine

/-- R121. -/
theorem runGeneralDma_of_disabled {c : Chan} {s : State} (h : (s.ch c).enable = false) : runGeneralDma c s = s := by
  simp [runGeneralDma, h]

/-- R122, R126, R127. -/
theorem runGeneralDma_of_zero {c : Chan} {s : State} (hen : (s.ch c).enable = true) (hz : (s.ch c).transferSize = 0) :
    runGeneralDma c s = (charge 8 s).modCh c fun k => { k with enable := false } := by
  simp [runGeneralDma, hen, hz]

/-- R122, R123, R127. -/
theorem runGeneralDma_of_ne_zero {c : Chan} {s : State} (hen : (s.ch c).enable = true) (hn : (s.ch c).transferSize ≠ 0) :
    runGeneralDma c s =
      (dmaLoop (dmaFuel c (charge 8 s)) c 0 (charge 8 s)).modCh c fun k => { k with enable := false } := by
  have hz : ((s.ch c).transferSize == 0) = false := beq_eq_false_iff_ne.2 hn
  simp only [runGeneralDma, hen, ch_charge, hz, Bool.false_eq_true, if_true, if_false]

/-- R125. -/
theorem dmaStops_iff (c : Chan) (s : State) :
    dmaStops c s = true ↔ (s.ch c).transferSize = 0 ∨ (s.ch c).enable = false := by
  simp [dmaStops]

/-- Settles O38: the charge is the whole effect on a zero count, beside the flag. -/
theorem disabledChannelAndZeroCount : Obligations.DisabledChannelAndZeroCount := by
  unfold Obligations.DisabledChannelAndZeroCount
  exact fun c s => ⟨runGeneralDma_of_disabled, runGeneralDma_of_zero⟩

/-- Settles O39: the loop is `dmaLoop` under the bound that suffices for its state, so its equation has no bound. -/
theorem generalDmaLoopsUntilCountOrDisable : Obligations.GeneralDmaLoopsUntilCountOrDisable := by
  unfold Obligations.GeneralDmaLoopsUntilCountOrDisable
  intro c
  refine ⟨fun idx s => dmaLoop (dmaFuel c s) c idx s, fun s => runGeneralDma_of_ne_zero, fun idx s hn => ?_⟩
  have hloop := dmaLoop_unfold c idx s hn
  simp only [dmaStops_iff] at hloop
  rw [dmaByte_eq] at hloop
  exact hloop

end Sys2Proof.Machine
end

section
/-! Non-interference (40_general_dma.md R136, R137, 10_state.md R36, 60_exceptions.md R251): `SameEffect` of two runs is kept
by each operation of the block. The operations read a channel only through its effective fields, and so read the same in
both runs. -/

namespace Sys2Proof.Machine

/-- What is computed from a channel's effective fields is the same in both runs. -/
theorem State.SameEffect.read {s t : State} (h : s.SameEffect t) {α : Type} {g : Channel → α}
    (hg : ∀ k, g k.effective = g k) (c : Chan) : g (s.ch c) = g (t.ch c) := by
  rw [← hg, h.channels, hg]

theorem State.SameEffect.enable {s t : State} (h : s.SameEffect t) (c : Chan) : (s.ch c).enable = (t.ch c).enable :=
  h.read (fun _ => rfl) c

theorem State.SameEffect.transferSize {s t : State} (h : s.SameEffect t) (c : Chan) :
    (s.ch c).transferSize = (t.ch c).transferSize :=
  h.read (fun _ => rfl) c

theorem State.SameEffect.active {s t : State} (h : s.SameEffect t) (c : Chan) : (s.ch c).active = (t.ch c).active :=
  h.read (fun _ => rfl) c

/-! ### The operations over the state -/

/-- A channel update whose effective result depends on effective fields only, and is the same in both runs. -/
theorem State.SameEffect.modCh {s t : State} (h : s.SameEffect t) (c : Chan) {f : Channel → Channel}
    (hf : ∀ k, (f k.effective).effective = (f k).effective) : (s.modCh c f).SameEffect (t.modCh c f) where
  channels d := by
    rw [ch_modCh, ch_modCh]
    split
    · exact h.read (g := fun k => (f k).effective) hf c
    · exact h.channels d
  status := h.status
  running := h.running
  refused := h.refused
  cfg := h.cfg
  requests := h.requests
  turns := h.turns
  trace := h.trace
  draws := h.draws

theorem State.SameEffect.emit {s t : State} (h : s.SameEffect t) (e : PortEvent) : (emit e s).SameEffect (emit e t) :=
  { h with trace := by rw [trace_emit, trace_emit, h.trace] }

theorem State.SameEffect.charge {s t : State} (h : s.SameEffect t) (n : Nat) : (charge n s).SameEffect (charge n t) :=
  { h with trace := by rw [trace_charge, trace_charge, h.trace] }

theorem State.SameEffect.withTurns {s t : State} (h : s.SameEffect t) (rest : List BusTurn) :
    State.SameEffect { s with turns := rest } { t with turns := rest } :=
  { h with turns := rfl }

/-- The answers may differ. -/
theorem State.SameEffect.reply {s t : State} (h : s.SameEffect t) (r q : Reply) : (reply r s).SameEffect (reply q t) :=
  { h with }

theorem State.SameEffect.refuse {s t : State} (h : s.SameEffect t) (w : RefuseReason) :
    (refuse w s).SameEffect (refuse w t) :=
  { h with refused := rfl }

theorem State.SameEffect.forChannels {s t : State} (h : s.SameEffect t) {f : Chan → State → State}
    (hf : ∀ c s t, s.SameEffect t → (f c s).SameEffect (f c t)) : (forChannels f s).SameEffect (forChannels f t) :=
  List.foldl_rel h fun c _ s t => hf c s t

/-! ### The host's transactions -/

theorem effective_writeReg (r : Reg) (v : Byte) (k : Channel) :
    (k.effective.writeReg r v).effective = (k.writeReg r v).effective := by
  cases r <;> rfl

theorem State.SameEffect.writePage {s t : State} (h : s.SameEffect t) (c : Chan) (r : Reg) (v : Byte) :
    (writePage c r v s).SameEffect (writePage c r v t) :=
  (h.modCh c (effective_writeReg r v)).reply _ _

theorem State.SameEffect.readPage {s t : State} (h : s.SameEffect t) (c : Chan) (r : Reg) :
    (readPage c r s).SameEffect (readPage c r t) :=
  h.reply _ _

theorem State.SameEffect.answerFinished {s t : State} (h : s.SameEffect t) :
    (answerFinished s).SameEffect (answerFinished t) :=
  h.reply _ _

theorem State.SameEffect.assignEnable {s t : State} (h : s.SameEffect t) (m : Byte) :
    (assignEnable m s).SameEffect (assignEnable m t) :=
  h.forChannels fun c _ _ h => h.modCh c fun _ => rfl

theorem State.SameEffect.assignHdmaEnable {s t : State} (h : s.SameEffect t) (m : Byte) :
    (assignHdmaEnable m s).SameEffect (assignHdmaEnable m t) :=
  h.forChannels fun c _ _ h => h.modCh c fun _ => rfl

theorem State.SameEffect.reenterInstr {s t : State} (h : s.SameEffect t) (i : Instr) :
    (reenterInstr i s).SameEffect (reenterInstr i t) := by
  induction i using Instr.byGroup with
  | wr r c v =>
    rw [reenterInstr_wrInstr, reenterInstr_wrInstr]
    exact h.writePage c r v
  | rd r c =>
    rw [reenterInstr_rdInstr, reenterInstr_rdInstr]
    exact h.readPage c r
  | enDma m => exact (h.assignEnable m).reply _ _
  | enHdma m => exact (h.assignHdmaEnable m).reply _ _
  | dmarun => exact h.refuse _
  | hdmarun => exact h.refuse _
  | hdmasetup => exact h.refuse _
  | reset => exact h.refuse _
  | hfin => exact h.answerFinished

theorem State.SameEffect.reenterTxn {s t : State} (h : s.SameEffect t) (q : Txn) :
    (reenterTxn q s).SameEffect (reenterTxn q t) := by
  unfold Machine.reenterTxn
  split
  · exact h.reenterInstr _
  · exact h.refuse _

theorem State.SameEffect.reenterAll {s t : State} (h : s.SameEffect t) (qs : List Txn) :
    (reenterAll qs s).SameEffect (reenterAll qs t) :=
  List.foldl_rel h fun q _ _ _ h => h.reenterTxn q

/-! ### The bus -/

theorem State.SameEffect.nextByte {s t : State} (h : s.SameEffect t) : nextByte s = nextByte t := by
  unfold Machine.nextByte
  rw [h.turns, h.draws]

theorem State.SameEffect.countDraw {s t : State} (h : s.SameEffect t) : (countDraw s).SameEffect (countDraw t) := by
  unfold Machine.countDraw
  rw [h.turns]
  split
  · exact { h with turns := rfl, draws := congrArg (· + 1) h.draws }
  · exact h

theorem State.SameEffect.hostTurn {s t : State} (h : s.SameEffect t) : (hostTurn s).SameEffect (hostTurn t) := by
  unfold Machine.hostTurn
  rw [h.turns]
  split
  · exact h
  · exact (h.withTurns _).reenterAll _

/-- Two reads that yield the same byte and leave states of the same effect. -/
def SameRead (p q : Byte × State) : Prop := p.1 = q.1 ∧ p.2.SameEffect q.2

theorem State.SameEffect.memRead {s t : State} (h : s.SameEffect t) (a : Addr) : SameRead (memRead a s) (memRead a t) := by
  refine ⟨h.nextByte, ?_⟩
  unfold Machine.memRead
  rw [h.nextByte]
  exact (h.emit _).countDraw.hostTurn

theorem State.SameEffect.memWrite {s t : State} (h : s.SameEffect t) (a : Addr) (v : Byte) :
    (memWrite a v s).SameEffect (memWrite a v t) :=
  (h.emit _).hostTurn

theorem State.SameEffect.abusRead {s t : State} (h : s.SameEffect t) (a : Addr) :
    SameRead (abusRead a s) (abusRead a t) := by
  unfold Machine.abusRead
  rw [h.cfg]
  split
  · exact ⟨rfl, h⟩
  · exact h.memRead a

theorem State.SameEffect.abusWrite {s t : State} (h : s.SameEffect t) (a : Addr) (v : Byte) :
    (abusWrite a v s).SameEffect (abusWrite a v t) := by
  unfold Machine.abusWrite
  rw [h.cfg]
  split
  · exact h
  · exact h.memWrite a v

theorem State.SameEffect.bbusRead {s t : State} (h : s.SameEffect t) (valid : Bool) (b : Addr) :
    SameRead (bbusRead valid b s) (bbusRead valid b t) := by
  unfold Machine.bbusRead
  split
  · exact h.memRead b
  · exact ⟨rfl, h⟩

theorem State.SameEffect.bbusWrite {s t : State} (h : s.SameEffect t) (valid : Bool) (b : Addr) (v : Byte) :
    (bbusWrite valid b v s).SameEffect (bbusWrite valid b v t) := by
  unfold Machine.bbusWrite
  split
  · exact h.memWrite b v
  · exact h

/-- The write step of a byte whose read step is the same in both runs. -/
theorem SameRead.abusWrite {p q : Byte × State} (h : SameRead p q) (a : Addr) :
    (abusWrite a p.1 p.2).SameEffect (abusWrite a q.1 q.2) := by
  obtain ⟨hv, hs⟩ := h
  rw [hv]
  exact hs.abusWrite a _

theorem SameRead.bbusWrite {p q : Byte × State} (h : SameRead p q) (valid : Bool) (b : Addr) :
    (bbusWrite valid b p.1 p.2).SameEffect (bbusWrite valid b q.1 q.2) := by
  obtain ⟨hv, hs⟩ := h
  rw [hv]
  exact hs.bbusWrite valid b _

/-- A transfer reads the direction, the mode and the target of its channel, not `reverse_transfer` (R135, R136). -/
theorem State.SameEffect.transfer {s t : State} (h : s.SameEffect t) (c : Chan) (a : Addr) (idx : Nat) :
    (transfer c a idx s).SameEffect (transfer c a idx t) := by
  have hdir : (s.ch c).direction = (t.ch c).direction := h.read (fun _ => rfl) c
  have hmode : (s.ch c).transferMode = (t.ch c).transferMode := h.read (fun _ => rfl) c
  have htgt : (s.ch c).targetAddress = (t.ch c).targetAddress := h.read (fun _ => rfl) c
  unfold Machine.transfer
  simp only [hdir, hmode, htgt, h.cfg]
  split
  · exact ((h.charge 8).bbusRead _ _).abusWrite a
  · exact ((h.charge 8).abusRead a).bbusWrite _ _

/-! ### General DMA -/

theorem State.SameEffect.dmaByte {s t : State} (h : s.SameEffect t) (c : Chan) (idx : Nat) :
    (dmaByte c idx s).SameEffect (dmaByte c idx t) := by
  have haddr : (s.ch c).sourceAddr = (t.ch c).sourceAddr := h.read (fun _ => rfl) c
  unfold Machine.dmaByte
  rw [haddr]
  refine ((h.transfer c _ idx).modCh c fun k => ?_).modCh c fun _ => rfl
  cases hfixed : k.fixedTransfer <;> simp [Channel.effective, hfixed]

theorem State.SameEffect.dmaLoop {s t : State} (h : s.SameEffect t) (fuel : Nat) (c : Chan) (idx : Nat) :
    (dmaLoop fuel c idx s).SameEffect (dmaLoop fuel c idx t) := by
  induction fuel generalizing idx s t with
  | zero => exact h
  | succ n ih =>
    have hb := h.dmaByte c idx
    have hstop : dmaStops c (Machine.dmaByte c idx s) = dmaStops c (Machine.dmaByte c idx t) := by
      rw [dmaStops, hb.transferSize, hb.enable, dmaStops]
    unfold Machine.dmaLoop
    simp only [hstop]
    split
    · exact hb
    · exact ih hb _

theorem State.SameEffect.runGeneralDma {s t : State} (h : s.SameEffect t) (c : Chan) :
    (runGeneralDma c s).SameEffect (runGeneralDma c t) := by
  have hc := h.charge 8
  have hfuel : dmaFuel c (Machine.charge 8 s) = dmaFuel c (Machine.charge 8 t) := by
    rw [dmaFuel, hc.turns, hc.transferSize, dmaFuel]
  unfold Machine.runGeneralDma
  simp only [h.enable, hc.transferSize, hfuel]
  split
  · refine State.SameEffect.modCh ?_ c fun _ => rfl
    split
    · exact hc
    · exact hc.dmaLoop _ c 0
  · exact h

/-! ### HDMA -/

theorem State.SameEffect.tableByte {s t : State} (h : s.SameEffect t) (c : Chan) :
    SameRead (tableByte c s) (tableByte c t) := by
  have haddr : (s.ch c).tableAddr = (t.ch c).tableAddr := h.read (fun _ => rfl) c
  obtain ⟨hv, hr⟩ := (h.charge 8).abusRead (t.ch c).tableAddr
  unfold Machine.tableByte
  simp only [haddr]
  exact ⟨hv, hr.modCh c (f := fun k => { k with hdmaAddress := k.hdmaAddress + 1 }) fun _ => rfl⟩

theorem State.SameEffect.loadCount {s t : State} (h : s.SameEffect t) (c : Chan) (v : Byte) :
    (loadCount c v s).SameEffect (loadCount c v t) :=
  h.modCh c fun _ => rfl

theorem State.SameEffect.loadPointer {s t : State} (h : s.SameEffect t) (c : Chan) :
    (loadPointer c s).SameEffect (loadPointer c t) := by
  obtain ⟨hlo, h1⟩ := h.tableByte c
  obtain ⟨hhi, h2⟩ := h1.tableByte c
  unfold Machine.loadPointer
  simp only [hlo, hhi]
  exact h2.modCh c fun _ => rfl

theorem State.SameEffect.readsPointer {s t : State} (h : s.SameEffect t) (c : Chan) :
    readsPointer c s = readsPointer c t := by
  have hind : (s.ch c).indirect = (t.ch c).indirect := h.read (fun _ => rfl) c
  have hdone : (s.ch c).hdmaCompleted = (t.ch c).hdmaCompleted := h.read (fun _ => rfl) c
  simp only [Machine.readsPointer, finishedAfter, hind, hdone, h.active]

theorem State.SameEffect.reload {s t : State} (h : s.SameEffect t) (c : Chan) : (reload c s).SameEffect (reload c t) := by
  have hex : entryExhausted (s.ch c) = entryExhausted (t.ch c) := h.read (fun _ => rfl) c
  obtain ⟨hv, hr⟩ := h.tableByte c
  have hcount := hr.loadCount c (Machine.tableByte c t).1
  unfold Machine.reload
  simp only [hex, hv, hcount.readsPointer]
  split
  · split
    · exact hcount.loadPointer c
    · exact hcount
  · exact h

theorem State.SameEffect.setup {s t : State} (h : s.SameEffect t) (c : Chan) : (setup c s).SameEffect (setup c t) := by
  have hm := h.modCh c (f := fun k => { k with hdmaDoTransfer := true }) fun _ => rfl
  have hskip (g : SetupGuard) := hm.read (g := setupSkips g) (fun k => by cases g <;> rfl) c
  unfold Machine.setup
  simp only [hm.cfg, hskip]
  split
  · exact hm
  · exact (hm.modCh c fun _ => rfl).reload c

theorem State.SameEffect.advance {s t : State} (h : s.SameEffect t) (c : Chan) :
    (advance c s).SameEffect (advance c t) := by
  unfold Machine.advance
  rw [h.active]
  split
  · exact (h.modCh c fun _ => rfl).reload c
  · exact h

theorem State.SameEffect.hdmaByte {s t : State} (h : s.SameEffect t) (c : Chan) (idx : Nat) :
    (hdmaByte c idx s).SameEffect (hdmaByte c idx t) := by
  have hind : (s.ch c).indirect = (t.ch c).indirect := h.read (fun _ => rfl) c
  have hsrc : (s.ch c).sourceAddr = (t.ch c).sourceAddr := h.read (fun _ => rfl) c
  have htable : (s.ch c).tableAddr = (t.ch c).tableAddr := h.read (fun _ => rfl) c
  have hptr : (s.ch c).indirectAddr = (t.ch c).indirectAddr := h.read (fun _ => rfl) c
  unfold Machine.hdmaByte
  rw [hind, hsrc, htable, hptr, h.cfg]
  split
  · exact (h.transfer c _ idx).modCh c fun _ => rfl
  · split <;> exact (h.transfer c _ idx).modCh c fun _ => rfl

theorem State.SameEffect.hdmaBytes {s t : State} (h : s.SameEffect t) (n : Nat) (c : Chan) (idx : Nat) :
    (hdmaBytes n c idx s).SameEffect (hdmaBytes n c idx t) := by
  induction n generalizing idx s t with
  | zero => exact h
  | succ n ih => exact ih (h.hdmaByte c idx) _

theorem State.SameEffect.hdmaTransfer {s t : State} (h : s.SameEffect t) (c : Chan) :
    (hdmaTransfer c s).SameEffect (hdmaTransfer c t) := by
  have hm := h.modCh c (f := fun k => { k with enable := false }) fun _ => rfl
  have hmoves := hm.read (g := Channel.hdmaDoTransfer) (fun _ => rfl) c
  have hmode := hm.read (g := Channel.transferMode) (fun _ => rfl) c
  unfold Machine.hdmaTransfer
  simp only [h.active, hmoves, hmode]
  split
  · split
    · exact hm.hdmaBytes _ c 0
    · exact hm
  · exact h

/-! ### The orchestrations and the transactions -/

theorem State.SameEffect.orchestrate {s t : State} (h : s.SameEffect t) {body : State → State}
    (hb : ∀ s t, s.SameEffect t → (body s).SameEffect (body t)) (n : Nat) :
    (orchestrate n body s).SameEffect (orchestrate n body t) :=
  have hrun : State.SameEffect { s with running := true } { t with running := true } := { h with running := rfl }
  { hb _ _ (hrun.charge n) with status := rfl, running := rfl }

theorem State.SameEffect.doDmaRun {s t : State} (h : s.SameEffect t) : (doDmaRun s).SameEffect (doDmaRun t) := by
  unfold Machine.doDmaRun
  rw [h.cfg]
  exact h.orchestrate (fun _ _ h => h.forChannels fun c _ _ h => h.runGeneralDma c) _

theorem State.SameEffect.doHdmaRun {s t : State} (h : s.SameEffect t) : (doHdmaRun s).SameEffect (doHdmaRun t) := by
  unfold Machine.doHdmaRun
  rw [h.cfg]
  exact h.orchestrate (fun _ _ h => (h.forChannels fun c _ _ h => h.hdmaTransfer c).forChannels fun c _ _ h => h.advance c) _

theorem State.SameEffect.doHdmaSetup {s t : State} (h : s.SameEffect t) :
    (doHdmaSetup s).SameEffect (doHdmaSetup t) := by
  unfold Machine.doHdmaSetup
  rw [h.cfg]
  exact h.orchestrate (fun _ _ h => h.forChannels fun c _ _ h => h.setup c) _

theorem State.SameEffect.resetChannels {s t : State} (h : s.SameEffect t) :
    (resetChannels s).SameEffect (resetChannels t) :=
  h.forChannels fun c _ _ h => h.modCh c fun _ => rfl

theorem State.SameEffect.command {s t : State} (h : s.SameEffect t) {effect : State → State}
    (he : (effect s).SameEffect (effect t)) : (command effect s).SameEffect (command effect t) := by
  unfold Machine.command
  rw [h.running]
  split
  · exact h.refuse _
  · exact he.reply _ _

theorem State.SameEffect.enableDma {s t : State} (h : s.SameEffect t) (m : Byte) :
    (enableDma m s).SameEffect (enableDma m t) := by
  have hmask : dmaEn s = dmaEn t := by simp only [dmaEn, maskOf, h.enable]
  unfold Machine.enableDma
  rw [h.running, hmask]
  split
  · exact (h.assignEnable m).doDmaRun
  · exact h.assignEnable m

/-- Settles O60: in each of the nine groups of transactions, what is carried out keeps `SameEffect`. -/
theorem fieldsWithoutEffectHaveNoEffect : Obligations.FieldsWithoutEffectHaveNoEffect := by
  unfold Obligations.FieldsWithoutEffectHaveNoEffect
  intro i s t s' t' h hs ht
  induction i using Instr.byGroup with
  | wr r c v =>
    rw [exec_wrInstr] at hs ht
    cases hs; cases ht
    exact h.writePage c r v
  | rd r c =>
    rw [exec_rdInstr] at hs ht
    cases hs; cases ht
    exact h.readPage c r
  | enDma m =>
    cases hs; cases ht
    exact (h.enableDma m).reply _ _
  | enHdma m =>
    cases hs; cases ht
    exact (h.assignHdmaEnable m).reply _ _
  | dmarun =>
    cases hs; cases ht
    exact h.command h.doDmaRun
  | hdmarun =>
    cases hs; cases ht
    exact h.command h.doHdmaRun
  | hdmasetup =>
    cases hs; cases ht
    exact h.command h.doHdmaSetup
  | reset =>
    cases hs; cases ht
    exact h.command h.resetChannels
  | hfin =>
    cases hs; cases ht
    exact h.answerFinished

end Sys2Proof.Machine
end

section
/-! The chain test (41_hdma.md R151, 10_state.md R40): a channel's later channels are its next one and that one's later
channels. -/

namespace Sys2Proof.Machine

theorem nextChannel_eq_none_iff (c : Chan) : nextChannel c = none ↔ c = 7 := by
  revert c
  decide

theorem nextChannel_eq_some_iff (c j : Chan) : nextChannel c = some j ↔ j.val = c.val + 1 := by
  revert c j
  decide

theorem not_active_iff (k : Channel) : ¬(k.hdmaEnable = true ∧ k.hdmaCompleted = false) ↔ k.active = false := by
  rw [← active_iff, Bool.not_eq_true]

theorem lt_iff_eq_or_lt_of_next {c j : Chan} (h : j.val = c.val + 1) (i : Chan) : c < i ↔ i = j ∨ j < i := by
  simp only [Fin.lt_def, Fin.ext_iff]
  omega

theorem finishedAfter_last (s : State) : finishedAfter 7 s = true :=
  (finishedAfter_iff 7 s).2 fun j hj => absurd hj (not_lt.2 (Fin.le_last j))

/-- R151 along R40's links. -/
theorem finishedAfter_of_next {c j : Chan} (h : j.val = c.val + 1) (s : State) :
    finishedAfter c s = (!(s.ch j).active && finishedAfter j s) := by
  rw [Bool.eq_iff_iff, Bool.and_eq_true, Bool.not_eq_true', finishedAfter_iff, finishedAfter_iff]
  simp only [lt_iff_eq_or_lt_of_next h, or_imp, forall_and, forall_eq]

/-- Settles O30: the later channels of a channel are its next one and the later channels of that. -/
theorem chainTestFollowsTheLinks : Obligations.ChainTestFollowsTheLinks := by
  unfold Obligations.ChainTestFollowsTheLinks
  intro c s
  simp only [not_active_iff, nextChannel_eq_none_iff, nextChannel_eq_some_iff]
  refine ⟨finishedAfter_iff c s, ?_, fun j hj => ⟨hj, finishedAfter_of_next hj s⟩⟩
  rintro rfl
  exact ⟨rfl, finishedAfter_last s⟩

end Sys2Proof.Machine
end

section
/-! The table of an HDMA channel (41_hdma.md R153 to R160): one byte of it, Reload from these bytes, and Setup and Advance,
which end in a Reload. -/

namespace Sys2Proof.Machine

theorem turns_abusRead (a : Addr) (s : State) :
    (abusRead a s).2.turns = if gated s.cfg a then s.turns else s.turns.tail := by
  unfold abusRead
  split <;> simp [memRead_frame]

theorem tableByte_fst (c : Chan) (s : State) :
    (tableByte c s).1 = if gated s.cfg (s.ch c).tableAddr then 0x00 else nextByte s :=
  abusRead_fst _ (charge 8 s)

theorem trace_tableByte (c : Chan) (s : State) :
    (tableByte c s).2.trace = s.trace ++ .charge 8 ::
      if gated s.cfg (s.ch c).tableAddr then [] else [.read (s.ch c).tableAddr (nextByte s)] :=
  (trace_abusRead _ (charge 8 s)).trans (List.append_assoc ..)

theorem turns_tableByte (c : Chan) (s : State) :
    (tableByte c s).2.turns = if gated s.cfg (s.ch c).tableAddr then s.turns else s.turns.tail :=
  turns_abusRead _ (charge 8 s)

/-- Settles O43: the byte, the events and the turns by the gate, the charge and the quiet channels by their laws. -/
theorem tableReadsAreChargedAndGated : Obligations.TableReadsAreChargedAndGated := by
  unfold Obligations.TableReadsAreChargedAndGated
  intro c s
  rw [← aBusAddr, ← Channel.tableAddr]
  refine ⟨fun hgate => ?_, fun hgate => ?_, cycles_tableByte c s, fun hq => ch_tableByte c hq⟩
  all_goals simp [tableByte_fst, trace_tableByte, turns_tableByte, hgate]

theorem setCh_setCh (s : State) (c : Chan) (k l : Channel) : (s.setCh c k).setCh c l = s.setCh c l := by
  simp [State.setCh]

theorem modCh_modCh (s : State) (c : Chan) (f g : Channel → Channel) : (s.modCh c f).modCh c g = s.modCh c (g ∘ f) := by
  simp [State.modCh, setCh_setCh]

/-- R155. -/
theorem entryExhausted_iff (k : Channel) : entryExhausted k = true ↔ k.lineCounter.extractLsb' 0 7 = 0 := by
  have low7 : ∀ v : Byte, v &&& 0x7F = 0 ↔ v.extractLsb' 0 7 = 0 := by decide
  rw [entryExhausted, beq_iff_eq, low7]

theorem reload_of_not_exhausted {c : Chan} {s : State} (h : entryExhausted (s.ch c) = false) : reload c s = s := by
  simp [reload, h]

/-- The state in which Reload decides on the pointer: the count byte read and loaded (R157). -/
def countLoaded (c : Chan) (s : State) : State := loadCount c (tableByte c s).1 (tableByte c s).2

/-- R155, R157, R158. -/
theorem reload_with_pointer {c : Chan} {s : State} (h : entryExhausted (s.ch c) = true)
    (hp : readsPointer c (countLoaded c s) = true) : reload c s = loadPointer c (countLoaded c s) := by
  rw [reload, if_pos h]
  exact if_pos hp

/-- R155, R157, R159. -/
theorem reload_without_pointer {c : Chan} {s : State} (h : entryExhausted (s.ch c) = true)
    (hp : readsPointer c (countLoaded c s) = false) : reload c s = countLoaded c s := by
  rw [reload, if_pos h]
  exact if_neg (ne_true_of_eq_false hp)

/-- The count byte as one change of channel c after its read. -/
theorem countLoaded_eq (c : Chan) (s : State) :
    countLoaded c s = (tableByte c s).2.setCh c { (tableByte c s).2.ch c with
      lineCounter := (tableByte c s).1, hdmaCompleted := decide ((tableByte c s).1 = 0),
      hdmaDoTransfer := decide ((tableByte c s).1 ≠ 0) } := by
  rw [decide_not]
  rfl

/-- R158, R159. -/
theorem readsPointer_countLoaded_iff (c : Chan) (s : State) :
    readsPointer c (countLoaded c s) = true ↔ ((countLoaded c s).ch c).indirect = true ∧
      ¬((tableByte c s).1 = 0 ∧ finishedAfter c (countLoaded c s) = true) := by
  have hcompleted : ((countLoaded c s).ch c).hdmaCompleted = ((tableByte c s).1 == 0) := by
    simp [countLoaded, loadCount]
  simp only [readsPointer, hcompleted, Bool.and_eq_true, Bool.not_eq_true', ← Bool.not_eq_true, beq_iff_eq]

/-- Settles O44: Reload by whether the entry is exhausted, and an exhausted one by the test on the pointer. -/
theorem reloadReadsCountAndPointer : Obligations.ReloadReadsCountAndPointer := by
  unfold Obligations.ReloadReadsCountAndPointer
  intro c s
  refine ⟨fun h => reload_of_not_exhausted ?_, fun h => ?_⟩
  · rwa [← Bool.not_eq_true, entryExhausted_iff]
  · have hex := (entryExhausted_iff _).2 h
    intro v t
    have ht : t = countLoaded c s := (countLoaded_eq c s).symm
    clear_value t
    subst ht
    rw [← readsPointer_countLoaded_iff]
    exact ⟨reload_with_pointer hex, fun hp => reload_without_pointer hex (Bool.not_eq_true _ ▸ hp)⟩

theorem setupSkips_mark (g : SetupGuard) (k : Channel) (b : Bool) :
    setupSkips g { k with hdmaDoTransfer := b } = setupSkips g k := by
  cases g <;> rfl

/-- R154. -/
theorem setup_of_skips {c : Chan} {s : State} (h : setupSkips s.cfg.setupGuard (s.ch c) = true) :
    setup c s = s.setCh c { s.ch c with hdmaDoTransfer := true } := by
  simp only [setup, cfg_modCh, ch_modCh_self, setupSkips_mark, h, if_true]
  rfl

/-- R153. -/
theorem setup_of_not_skips {c : Chan} {s : State} (h : setupSkips s.cfg.setupGuard (s.ch c) = false) :
    setup c s = reload c (s.setCh c { s.ch c with
      hdmaDoTransfer := true, enable := false, hdmaAddress := (s.ch c).sourceAddress, lineCounter := 0 }) := by
  simp only [setup, cfg_modCh, ch_modCh_self, setupSkips_mark, h, Bool.false_eq_true, if_false, modCh_modCh]
  rfl

/-- The guard lets a channel through exactly in the other two of its four cases (R154). -/
theorem setupSkips_eq_false_iff (g : SetupGuard) (k : Channel) :
    setupSkips g k = false ↔
      g = .skipIfEnabled ∧ k.hdmaEnable = false ∨ g = .skipIfDisabled ∧ k.hdmaEnable = true := by
  cases g <;> simp [setupSkips]

/-- Settles O46: the two sides of the guard. -/
theorem setupFollowsTheGuard : Obligations.SetupFollowsTheGuard := by
  unfold Obligations.SetupFollowsTheGuard
  intro c s
  rw [← setupSkips_iff, ← setupSkips_eq_false_iff]
  exact ⟨setup_of_skips, setup_of_not_skips⟩

theorem advance_of_inactive {c : Chan} {s : State} (h : (s.ch c).active = false) : advance c s = s := by
  simp [advance, h]

/-- R160. -/
theorem advance_of_active {c : Chan} {s : State} (h : (s.ch c).active = true) :
    advance c s = reload c (s.setCh c { s.ch c with
      lineCounter := (s.ch c).lineCounter - 1, hdmaDoTransfer := ((s.ch c).lineCounter - 1).getLsbD 7 }) := by
  rw [advance, if_pos h]
  rfl

theorem toNat_sub_one (v : Byte) : (v - 1).toNat = (v.toNat + 255) % 256 := by
  rw [BitVec.toNat_sub, Nat.add_comm]
  rfl

theorem getLsbD_seven (v : Byte) : v.getLsbD 7 = decide (128 ≤ v.toNat) := by
  rw [← BitVec.msb_eq_getLsbD_last, BitVec.msb_eq_decide]

/-- Settles O47: the decrement and its bit 7 in the numbers the statement gives them in. -/
theorem advanceCountsDownOneLine : Obligations.AdvanceCountsDownOneLine := by
  unfold Obligations.AdvanceCountsDownOneLine
  intro c s
  rw [not_active_iff]
  refine ⟨advance_of_inactive, fun hen hrun => ⟨(s.ch c).lineCounter - 1, toNat_sub_one _, ?_⟩⟩
  rw [advance_of_active ((active_iff _).2 ⟨hen, hrun⟩), getLsbD_seven]

end Sys2Proof.Machine
end

section
/-! Reload of an exhausted entry with the host's answers known (41_hdma.md R155 to R159): a table byte that reaches the bus
as one change of the state, and Reload put together from one or three of them. -/

namespace Sys2Proof.Machine

/-- The state after bus activity on channel c, with nothing re-entrant: its fields, the charges, the events, and the turns
that are left. -/
def State.progress (s : State) (c : Chan) (k : Channel) (n : Nat) (es : List PortEvent) (rest : List BusTurn) : State :=
  { s.setCh c k with cycles := s.cycles + n, trace := s.trace ++ es, turns := rest }

@[simp] theorem ch_progress_self (s : State) (c : Chan) (k : Channel) (n : Nat) (es : List PortEvent)
    (rest : List BusTurn) : (s.progress c k n es rest).ch c = k :=
  ch_setCh_self s c k

theorem ch_progress_ne {c d : Chan} (h : d ≠ c) (s : State) (k : Channel) (n : Nat) (es : List PortEvent)
    (rest : List BusTurn) : (s.progress c k n es rest).ch d = s.ch d :=
  ch_setCh_ne s c d k h

theorem progress_setCh (s : State) (c : Chan) (k l : Channel) (n : Nat) (es : List PortEvent) (rest : List BusTurn) :
    (s.progress c k n es rest).setCh c l = s.progress c l n es rest := by
  simp [State.progress, State.setCh]

theorem progress_progress (s : State) (c : Chan) (k l : Channel) (m n : Nat) (es fs : List PortEvent)
    (rest rest' : List BusTurn) :
    (s.progress c k m es rest).progress c l n fs rest' = s.progress c l (m + n) (es ++ fs) rest' := by
  simp [State.progress, State.setCh, Nat.add_assoc]

theorem memRead_of_turn {s : State} {b : Byte} {rest : List BusTurn} (h : s.turns = ⟨[], b⟩ :: rest) (a : Addr) :
    memRead a s = (b, { emit (.read a b) s with turns := rest }) := by
  simp [memRead, nextByte, countDraw, hostTurn, h]

/-- R156 on a table address that is not gated. -/
theorem tableByte_of_turn {c : Chan} {s : State} {b : Byte} {rest : List BusTurn} (hturns : s.turns = ⟨[], b⟩ :: rest)
    (hgate : gated s.cfg (s.ch c).tableAddr = false) :
    tableByte c s = (b, s.progress c { s.ch c with hdmaAddress := (s.ch c).hdmaAddress + 1 } 8
      [.charge 8, .read (s.ch c).tableAddr b] rest) := by
  have hread : abusRead (s.ch c).tableAddr (charge 8 s) = _ := abusRead_open _ _ hgate
  rw [memRead_of_turn (s := charge 8 s) hturns] at hread
  simp only [tableByte, hread]
  simp [State.progress, State.modCh, State.setCh, State.ch, emit, charge]

/-- R158 on two table addresses that are not gated. -/
theorem loadPointer_of_turns {c : Chan} {s : State} {b b' : Byte} {rest : List BusTurn}
    (hturns : s.turns = ⟨[], b⟩ :: ⟨[], b'⟩ :: rest) (hgate : gated s.cfg (s.ch c).tableAddr = false)
    (hgate' : gated s.cfg (aBusAddr (s.ch c).sourceBank ((s.ch c).hdmaAddress + 1)) = false) :
    loadPointer c s = s.progress c
      { s.ch c with hdmaAddress := (s.ch c).hdmaAddress + 2, indirectAddress := joinBytes b' b } 16
      [.charge 8, .read (s.ch c).tableAddr b,
       .charge 8, .read (aBusAddr (s.ch c).sourceBank ((s.ch c).hdmaAddress + 1)) b'] rest := by
  have hlo := tableByte_of_turn hturns hgate
  have hhi := tableByte_of_turn (c := c) (s := (tableByte c s).2) (b := b') (rest := rest) (by rw [hlo]; rfl)
    (by rw [hlo, ch_progress_self]; exact hgate')
  simp only [hlo, ch_progress_self, progress_progress, BitVec.add_assoc] at hhi
  simp only [loadPointer, hlo, hhi, State.modCh, ch_progress_self, progress_setCh]
  rfl

/-- R155 to R157 on a table address that is not gated. -/
theorem countLoaded_of_turn {c : Chan} {s : State} {b : Byte} {rest : List BusTurn} (hturns : s.turns = ⟨[], b⟩ :: rest)
    (hgate : gated s.cfg (s.ch c).tableAddr = false) :
    countLoaded c s = s.progress c { s.ch c with
        hdmaAddress := (s.ch c).hdmaAddress + 1, lineCounter := b, hdmaCompleted := b == 0,
        hdmaDoTransfer := !(b == 0) } 8
      [.charge 8, .read (s.ch c).tableAddr b] rest := by
  simp only [countLoaded, loadCount, tableByte_of_turn hturns hgate, State.modCh, ch_progress_self, progress_setCh]

theorem finishedAfter_progress (s : State) (c : Chan) (k : Channel) (n : Nat) (es : List PortEvent)
    (rest : List BusTurn) : finishedAfter c (s.progress c k n es rest) = finishedAfter c s := by
  rw [Bool.eq_iff_iff, finishedAfter_iff, finishedAfter_iff]
  exact forall₂_congr fun j hj => by rw [ch_progress_ne (ne_of_gt hj)]

/-- R158, R159. -/
theorem readsPointer_eq_false_iff (c : Chan) (s : State) :
    readsPointer c s = false ↔
      (s.ch c).indirect = false ∨ (s.ch c).hdmaCompleted = true ∧ finishedAfter c s = true := by
  simp [readsPointer, imp_iff_not_or]

/-- Settles O45: the count byte, and after it the pointer where the test on it, which the count byte decides, asks for it. -/
theorem reloadOfAnExhaustedEntry : Obligations.ReloadOfAnExhaustedEntry := by
  unfold Obligations.ReloadOfAnExhaustedEntry
  intro c s b0 b1 b2 rest hturns hgate hline bank h skip
  have hgate0 : gated s.cfg (aBusAddr bank h) = false :=
    (congrArg (gated s.cfg <| aBusAddr bank ·) (BitVec.add_zero h)).symm.trans (hgate 0 (.inl rfl))
  have hgate1 : gated s.cfg (aBusAddr bank (h + 1)) = false := hgate 1 (.inr (.inl rfl))
  have hgate2 : gated s.cfg (aBusAddr bank (h + 1 + 1)) = false :=
    (congrArg (gated s.cfg <| aBusAddr bank ·) (BitVec.add_assoc h 1 1)).trans (hgate 2 (.inr (.inr rfl)))
  have hex : entryExhausted (s.ch c) = true := by rwa [entryExhausted, beq_iff_eq]
  have hcount := countLoaded_of_turn hturns hgate0
  have hskip : readsPointer c (countLoaded c s) = false ↔ skip := by
    rw [hcount, readsPointer_eq_false_iff, ch_progress_self, finishedAfter_progress, finishedAfter_iff]
    simp only [skip, not_active_iff, beq_iff_eq]
  refine ⟨fun hs => ?_, fun hs => ?_⟩
  · rw [reload_without_pointer hex (hskip.2 hs), hcount]
    rfl
  · have hp : readsPointer c (countLoaded c s) = true := by rwa [← Bool.not_eq_false, hskip]
    rw [reload_with_pointer hex hp, hcount, loadPointer_of_turns (b := b1) (b' := b2) (rest := rest) rfl
      (by rw [ch_progress_self]; exact hgate1) (by rw [ch_progress_self]; exact hgate2)]
    simp only [ch_progress_self, progress_progress, BitVec.add_assoc]
    rfl

end Sys2Proof.Machine
end

section
/-! The per-line transfer of HDMA (41_hdma.md R161 to R167). -/

namespace Sys2Proof.Machine

/-- Settles O42. -/
theorem lineLengths : Obligations.LineLengths := by
  unfold Obligations.LineLengths
  decide

theorem hdmaTransfer_of_inactive {c : Chan} {s : State} (h : (s.ch c).active = false) : hdmaTransfer c s = s := by
  simp [hdmaTransfer, h]

/-- R161 to R163. -/
theorem hdmaTransfer_of_active {c : Chan} {s : State} (h : (s.ch c).active = true) :
    hdmaTransfer c s =
      if (s.ch c).hdmaDoTransfer then
        hdmaBytes (lineLength (s.ch c).transferMode) c 0 (s.setCh c { s.ch c with enable := false })
      else s.setCh c { s.ch c with enable := false } := by
  rw [hdmaTransfer, if_pos h]
  simp only [ch_modCh_self]
  rfl

theorem hdmaBytes_eq_foldl (n : Nat) (c : Chan) (idx : Nat) (s : State) :
    hdmaBytes n c idx s = (List.range' idx n).foldl (fun u i => hdmaByte c i u) s := by
  induction n generalizing idx s with
  | zero => rfl
  | succ n ih => exact ih (idx + 1) (hdmaByte c idx s)

theorem hdmaByte_of_indirect {c : Chan} {s : State} (h : (s.ch c).indirect = true) (idx : Nat) :
    hdmaByte c idx s =
      (transfer c (s.ch c).indirectAddr idx s).modCh c fun k => { k with indirectAddress := k.indirectAddress + 1 } :=
  if_pos h

theorem hdmaByte_of_sourceAddress {c : Chan} {s : State} (h : (s.ch c).indirect = false)
    (hptr : s.cfg.hdmaDirectPtr = .sourceAddress) (idx : Nat) :
    hdmaByte c idx s =
      (transfer c (s.ch c).sourceAddr idx s).modCh c fun k => { k with sourceAddress := k.sourceAddress + 1 } := by
  simp only [hdmaByte, h, hptr, Bool.false_eq_true, if_false]

theorem hdmaByte_of_hdmaAddress {c : Chan} {s : State} (h : (s.ch c).indirect = false)
    (hptr : s.cfg.hdmaDirectPtr = .hdmaAddress) (idx : Nat) :
    hdmaByte c idx s =
      (transfer c (s.ch c).tableAddr idx s).modCh c fun k => { k with hdmaAddress := k.hdmaAddress + 1 } := by
  simp only [hdmaByte, h, hptr, Bool.false_eq_true, if_false]

/-- Settles O48: the byte is `hdmaByte`, by the three pointers it can go by, and the line is their fold. -/
theorem hdmaTransferMovesOneLine : Obligations.HdmaTransferMovesOneLine := by
  unfold Obligations.HdmaTransferMovesOneLine
  intro c
  refine ⟨hdmaByte c, fun idx s => ?_, fun s => ⟨?_, fun hen hrun hdo => ?_, fun hen hrun hdo => ?_⟩⟩
  · split_ifs with hind hptr
    · exact hdmaByte_of_indirect hind idx
    · exact hdmaByte_of_sourceAddress (Bool.not_eq_true _ ▸ hind) hptr idx
    · have hptr' : s.cfg.hdmaDirectPtr = .hdmaAddress := by
        cases h : s.cfg.hdmaDirectPtr
        · exact absurd h hptr
        · rfl
      exact hdmaByte_of_hdmaAddress (Bool.not_eq_true _ ▸ hind) hptr' idx
  · rw [not_active_iff]
    exact hdmaTransfer_of_inactive
  · rw [hdmaTransfer_of_active ((active_iff _).2 ⟨hen, hrun⟩), if_neg (ne_true_of_eq_false hdo)]
  · rw [hdmaTransfer_of_active ((active_iff _).2 ⟨hen, hrun⟩), if_pos hdo, hdmaBytes_eq_foldl, List.range_eq_range']

/-- The channel with its data pointer, the one that `indirect` and `hdma_direct_ptr` select, moved on by n (R164, R165). -/
def Channel.movePointer (ptr : DirectPtr) (n : Half) (k : Channel) : Channel :=
  if k.indirect then { k with indirectAddress := k.indirectAddress + n }
  else match ptr with
    | .sourceAddress => { k with sourceAddress := k.sourceAddress + n }
    | .hdmaAddress => { k with hdmaAddress := k.hdmaAddress + n }

theorem movePointer_zero (ptr : DirectPtr) (k : Channel) : k.movePointer ptr 0#16 = k := by
  simp only [Channel.movePointer, BitVec.add_zero]
  split
  · rfl
  · cases ptr <;> rfl

theorem movePointer_movePointer (ptr : DirectPtr) (m n : Half) (k : Channel) :
    (k.movePointer ptr m).movePointer ptr n = k.movePointer ptr (m + n) := by
  cases hind : k.indirect with
  | true => simp [Channel.movePointer, hind, BitVec.add_assoc]
  | false => cases ptr <;> simp [Channel.movePointer, hind, BitVec.add_assoc]

theorem ch_hdmaByte {s : State} (c : Chan) (idx : Nat) (hq : s.quiet) :
    (hdmaByte c idx s).ch c = (s.ch c).movePointer s.cfg.hdmaDirectPtr 1#16 := by
  have hch := fun a => (quietBus_transfer c a idx hq).ch c
  cases hind : (s.ch c).indirect with
  | true =>
    rw [hdmaByte_of_indirect hind]
    simp [Channel.movePointer, hind, hch]
  | false =>
    cases hptr : s.cfg.hdmaDirectPtr with
    | sourceAddress =>
      rw [hdmaByte_of_sourceAddress hind hptr]
      simp [Channel.movePointer, hind, hch]
    | hdmaAddress =>
      rw [hdmaByte_of_hdmaAddress hind hptr]
      simp [Channel.movePointer, hind, hch]

theorem ch_hdmaBytes {s : State} (n : Nat) (c : Chan) (idx : Nat) (hq : s.quiet) :
    (hdmaBytes n c idx s).ch c = (s.ch c).movePointer s.cfg.hdmaDirectPtr (BitVec.ofNat 16 n) := by
  induction n generalizing idx s with
  | zero => exact (movePointer_zero _ _).symm
  | succ n ih =>
    rw [hdmaBytes, ih _ (quietOn_hdmaByte c idx hq).quiet, ch_hdmaByte c idx hq, (engine_hdmaByte c idx s).cfg,
      movePointer_movePointer, Nat.add_comm n 1, BitVec.ofNat_add]

theorem cycles_hdmaByte (c : Chan) (idx : Nat) (s : State) : (hdmaByte c idx s).cycles = s.cycles + 8 := by
  unfold hdmaByte
  split
  · exact cycles_transfer ..
  · split <;> exact cycles_transfer ..

/-- R134 over a line. -/
theorem cycles_hdmaBytes (n : Nat) (c : Chan) (idx : Nat) (s : State) :
    (hdmaBytes n c idx s).cycles = s.cycles + 8 * n := by
  induction n generalizing idx s with
  | zero => rfl
  | succ n ih =>
    rw [hdmaBytes, ih, cycles_hdmaByte]
    omega

/-- Settles O49: the bytes of the line each cost 8 and move the pointer by 1. -/
theorem hdmaLineMovesItsLength : Obligations.HdmaLineMovesItsLength := by
  unfold Obligations.HdmaLineMovesItsLength
  intro c s hq hen hrun hdo n
  have hq' : (s.setCh c { s.ch c with enable := false }).quiet := quiet_of_turns hq rfl
  refine ⟨?_, ?_, (quietOn_hdmaTransfer c hq).others⟩
  all_goals rw [hdmaTransfer_of_active ((active_iff _).2 ⟨hen, hrun⟩), if_pos hdo]
  · exact cycles_hdmaBytes n c 0 _
  · refine (ch_hdmaBytes n c 0 hq').trans ?_
    rw [ch_setCh_self]
    rfl

end Sys2Proof.Machine
end

section
/-! The 32 register transactions (42_controller.md R180 to R213): the headers of a row decode to its write or read, and a
write or read acts by the register file, so each of the 32 rules is the register's own line of `writeReg` or `readReg`. -/

namespace Sys2Proof.Machine

/-- R181 for every write: its row, and its effect on the channel. -/
theorem writesRegister (r : Reg) :
    WritesRegister (r.offset.setWidth 16) (wrInstr r) fun v k => k.writeReg r v := by
  refine ⟨decode_wrRow r, fun c v s => ?_⟩
  rw [exec_wrInstr, reenterInstr_wrInstr, writePage_eq]
  exact ⟨rfl, rfl⟩

/-- R181 for every read: its row, and its answer. -/
theorem readsRegister (r : Reg) :
    ReadsRegister (0x1000 ||| r.offset.setWidth 16) (rdInstr r) fun cfg k => k.readReg cfg r := by
  refine ⟨decode_rdRow r, fun c s => ?_⟩
  rw [exec_rdInstr, reenterInstr_rdInstr]
  exact ⟨rfl, rfl⟩

/-- Settles O9: the register CTRL takes its six fields from the byte. -/
theorem writeCtrlAssignsSixFields : Obligations.WriteCtrlAssignsSixFields := by
  unfold Obligations.WriteCtrlAssignsSixFields
  exact writesRegister .ctrl

/-- Settles O10: the four registers of one byte. -/
theorem writesOfByteRegisters : Obligations.WritesOfByteRegisters := by
  unfold Obligations.WritesOfByteRegisters
  exact ⟨writesRegister .tgt, writesRegister .srcb, writesRegister .ibank, writesRegister .line⟩

/-- Settles O11: the low offsets of the three registers of two bytes. -/
theorem writesOfLowHalves : Obligations.WritesOfLowHalves := by
  unfold Obligations.WritesOfLowHalves
  exact ⟨writesRegister .srcl, writesRegister .sizel, writesRegister .hadrl⟩

/-- Settles O12: the high offsets of the three registers of two bytes. -/
theorem writesOfHighHalves : Obligations.WritesOfHighHalves := by
  unfold Obligations.WritesOfHighHalves
  exact ⟨writesRegister .srch, writesRegister .sizeh, writesRegister .hadrh⟩

/-- Settles O13: the two offsets of the scratch byte, and the three that hold no field. -/
theorem writesOfScratchAndReservedOffsets : Obligations.WritesOfScratchAndReservedOffsets := by
  unfold Obligations.WritesOfScratchAndReservedOffsets
  exact ⟨writesRegister .scrb, writesRegister .rsvc, writesRegister .rsvd, writesRegister .rsve, writesRegister .scrf⟩

theorem toNat_append_eq_add {m n : Nat} (x : BitVec m) (y : BitVec n) :
    (x ++ y).toNat = x.toNat * 2 ^ n + y.toNat := by
  rw [BitVec.toNat_append, ← Nat.shiftLeft_add_eq_or_of_lt y.isLt, Nat.shiftLeft_eq]

/-- R198's composition as a sum, with d in the place of bit 7. -/
theorem ctrlBits_eq_sum (d : Bool) (k : Channel) :
    BitVec.ofBool d ++ BitVec.ofBool k.indirect ++ k.ctrlLow =
      (d.toNat * 128 + k.indirect.toNat * 64 + (k.unused.toNat * 32 + k.reverseTransfer.toNat * 16 +
        k.fixedTransfer.toNat * 8 + k.transferMode.toNat : BitVec 8) : BitVec 8) := by
  have hmode : k.transferMode.toNat < 8 := k.transferMode.isLt
  have hd := d.toNat_le
  have hi := k.indirect.toNat_le
  have hu := k.unused.toNat_le
  have hr := k.reverseTransfer.toNat_le
  have hf := k.fixedTransfer.toNat_le
  apply BitVec.eq_of_toNat_eq
  simp only [Channel.ctrlLow, toNat_append_eq_add, BitVec.toNat_ofBool, BitVec.toNat_add, BitVec.toNat_mul,
    BitVec.natCast_eq_ofNat, BitVec.ofNat_eq_ofNat, BitVec.toNat_ofNat]
  omega

/-- Settles O14: both policies compose the same bits, Collapse with bit 7 held to 0 where bit 6 is set. -/
theorem readCtrlComposesSixFields : Obligations.ReadCtrlComposesSixFields := by
  unfold Obligations.ReadCtrlComposesSixFields
  refine (congrArg (ReadsRegister 0x1000 .rdCtrl) (funext₂ fun cfg k => ?_)).mp (readsRegister .ctrl)
  cases hp : cfg.ctrlReadback with
  | bitwise => simp only [Channel.readReg, Channel.ctrlByte, hp, ctrlBits_eq_sum]
  | collapse =>
    simp only [Channel.readReg, Channel.ctrlByte, hp, ctrlBits_eq_sum]
    cases k.indirect <;> simp

/-- Settles O15: the four registers of one byte. -/
theorem readsOfByteRegisters : Obligations.ReadsOfByteRegisters := by
  unfold Obligations.ReadsOfByteRegisters
  exact ⟨readsRegister .tgt, readsRegister .srcb, readsRegister .ibank, readsRegister .line⟩

/-- Settles O16: the two offsets of each of the three registers of two bytes. -/
theorem readsOfHalves : Obligations.ReadsOfHalves := by
  unfold Obligations.ReadsOfHalves
  exact ⟨readsRegister .srcl, readsRegister .srch, readsRegister .sizel, readsRegister .sizeh, readsRegister .hadrl,
    readsRegister .hadrh⟩

/-- Settles O17: the two offsets of the scratch byte, and the three that hold no field. -/
theorem readsOfScratchAndReservedOffsets : Obligations.ReadsOfScratchAndReservedOffsets := by
  unfold Obligations.ReadsOfScratchAndReservedOffsets
  exact ⟨readsRegister .scrb, readsRegister .rsvc, readsRegister .rsvd, readsRegister .rsve, readsRegister .scrf⟩

end Sys2Proof.Machine
end

section
/-! The enable ports, the query and the commands (42_controller.md R214 to R223): the headers of one kind alone, the passes
that assign an enable mask, and what a command does idle and while an orchestration runs. -/

namespace Sys2Proof.Machine

/-- A pass of updates of the channels' own fields changes nothing but the channels. -/
theorem forChannels_modCh_eq (g : Chan → Channel → Channel) (s : State) :
    forChannels (fun c s => s.modCh c (g c)) s =
      { s with channels := (forChannels (fun c s => s.modCh c (g c)) s).channels } := rfl

/-- Settles O22: the pass over the eight bits, and the answer. -/
theorem enHdmaAssignsTheEightBits : Obligations.EnHdmaAssignsTheEightBits := by
  unfold Obligations.EnHdmaAssignsTheEightBits
  intro m s
  exact ⟨decode_encode (.enHdma m), reply .done (assignHdmaEnable m s), rfl, rfl, ch_assignHdmaEnable m s,
    congrArg (reply .done) (forChannels_modCh_eq _ s)⟩

theorem command_of_idle {s : State} (h : s.running = false) (effect : State → State) :
    command effect s = reply .done (effect s) :=
  if_neg (ne_true_of_eq_false h)

/-- R214's `(m & ~old) != 0` on the channels' own bits. -/
theorem risingEdge_dmaEn_iff (m : Byte) (s : State) :
    risingEdge (dmaEn s) m = true ↔ ∃ c : Chan, m.getLsbD c.val = true ∧ (s.ch c).enable = false := by
  simp only [risingEdge_iff, dmaEn, getLsbD_maskOf]

theorem enableDma_of_rising {m : Byte} {s : State} (hidle : s.running = false) (h : risingEdge (dmaEn s) m = true) :
    enableDma m s = doDmaRun (assignEnable m s) := by
  simp [enableDma, hidle, h]

theorem enableDma_of_not_rising {m : Byte} {s : State} (h : risingEdge (dmaEn s) m = false) :
    enableDma m s = assignEnable m s := by
  simp [enableDma, h]

/-- Settles O23: the bits are one pass; the run that may follow it starts in the state a DMARUN would start in. -/
theorem enDmaAssignsAndRunsOnARisingEdge : Obligations.EnDmaAssignsAndRunsOnARisingEdge := by
  unfold Obligations.EnDmaAssignsAndRunsOnARisingEdge
  intro m s
  refine ⟨decode_encode (.enDma m), assignEnable m s, ch_assignEnable m s, forChannels_modCh_eq _ s,
    fun hidle hrise => ⟨_, rfl, ?_⟩, fun hnone => ?_, rfl⟩
  · have hidle' : (assignEnable m s).running = false := (hostOnly_assignEnable m s).running.trans hidle
    rw [exec_dmarun, command_of_idle hidle', enableDma_of_rising hidle ((risingEdge_dmaEn_iff m s).2 hrise)]
  · have hbits : enableDma m s = assignEnable m s := by
      obtain hrun | hnone := hnone
      · exact enableDma_of_running hrun m
      · refine enableDma_of_not_rising ?_
        rw [← Bool.not_eq_true, risingEdge_dmaEn_iff]
        rintro ⟨c, hm, hen⟩
        exact absurd (hnone c hm) (ne_true_of_eq_false hen)
    rw [exec_enDma, hbits]
    rfl

theorem answerFinished_eq (s : State) :
    answerFinished s = { s with replies := s.replies ++ [.data (if hdmaFinished s then 0x01 else 0x00)] } := rfl

/-- Settles O29: the two premises are that the query is true and that it is false. -/
theorem hfinAnswersWhetherNoChannelIsActive : Obligations.HfinAnswersWhetherNoChannelIsActive := by
  unfold Obligations.HfinAnswersWhetherNoChannelIsActive
  refine ⟨decode_command (h := 0x8000) (by decide) (by decide) rfl rfl, fun s => ?_⟩
  rw [exec_hfin, reenterInstr, answerFinished_eq]
  refine ⟨fun hnone => ?_, fun ⟨c, hc⟩ => ?_⟩
  · have hfin : hdmaFinished s = true := (hdmaFinished_iff s).2 fun c => (not_active_iff _).1 (hnone c)
    simp [hfin]
  · have hfin : ¬hdmaFinished s = true := fun h =>
      ne_true_of_eq_false ((hdmaFinished_iff s).1 h c) ((active_iff _).2 hc)
    simp [hfin]

theorem refusedWhileRunning_of_command {i : Instr} {effect : State → State}
    (hexec : ∀ s, exec i s = .next (command effect s)) (hreenter : ∀ s, reenterInstr i s = refuse .reentrantCommand s) :
    RefusedWhileRunning i := by
  refine fun s => ⟨fun hrun => ?_, hreenter s⟩
  rw [hexec, command_of_running hrun]
  rfl

/-- R221 to R223: an orchestration and its answer, from the state after its overhead. -/
theorem reply_orchestrate (n : Nat) (body : State → State) (s : State) :
    let u := body { s with running := true, cycles := s.cycles + n, trace := s.trace ++ [.charge n] }
    reply .done (orchestrate n body s) = { u with status := true, running := false, replies := u.replies ++ [.done] } :=
  rfl

/-- Settles O24: the eight visits of one pass. -/
theorem dmaRunRunsTheChannelsInOrder : Obligations.DmaRunRunsTheChannelsInOrder := by
  unfold Obligations.DmaRunRunsTheChannelsInOrder
  refine ⟨decode_command (h := 0x4000) (by decide) (by decide) rfl rfl,
    refusedWhileRunning_of_command exec_dmarun fun _ => rfl, fun s hidle => ⟨_, forChannels_eq runGeneralDma _, ?_⟩⟩
  rw [exec_dmarun, command_of_idle hidle, doDmaRun, reply_orchestrate]

/-- Settles O25: the eight visits of one pass, then the eight of the other. -/
theorem hdmaRunTransfersThenAdvances : Obligations.HdmaRunTransfersThenAdvances := by
  unfold Obligations.HdmaRunTransfersThenAdvances
  refine ⟨decode_command (h := 0x5000) (by decide) (by decide) rfl rfl,
    refusedWhileRunning_of_command exec_hdmarun fun _ => rfl,
    fun s hidle => ⟨_, _, forChannels_eq hdmaTransfer _, forChannels_eq advance _, ?_⟩⟩
  rw [exec_hdmarun, command_of_idle hidle, doHdmaRun, reply_orchestrate, hdmaPasses]

/-- Settles O26: the eight visits of one pass. -/
theorem hdmaSetupSetsUpTheChannelsInOrder : Obligations.HdmaSetupSetsUpTheChannelsInOrder := by
  unfold Obligations.HdmaSetupSetsUpTheChannelsInOrder
  refine ⟨decode_command (h := 0x6000) (by decide) (by decide) rfl rfl,
    refusedWhileRunning_of_command exec_hdmasetup fun _ => rfl, fun s hidle => ⟨_, forChannels_eq setup _, ?_⟩⟩
  rw [exec_hdmasetup, command_of_idle hidle, doHdmaSetup, reply_orchestrate]

/-- R221, R223 for a transaction that is an orchestration and its answer. -/
theorem ends_of_orchestrated {i : Instr} {s r t : State} (hexec : exec i s = .next (reply .done t))
    (h : Orchestrated r t) : ∃ t, exec i s = .next t ∧ t.status = true ∧ t.running = false :=
  ⟨_, hexec, h.status, h.running⟩

/-- Settles O33: each of the four is an orchestration and its answer. -/
theorem orchestrationsEndWithStatusSet : Obligations.OrchestrationsEndWithStatusSet := by
  unfold Obligations.OrchestrationsEndWithStatusSet
  rintro i s hidle (rfl | rfl | rfl | ⟨m, rfl, hrise⟩)
  · exact ends_of_orchestrated (by rw [exec_dmarun, command_of_idle hidle]) (orchestrated_doDmaRun s)
  · exact ends_of_orchestrated (by rw [exec_hdmarun, command_of_idle hidle]) (orchestrated_doHdmaRun s)
  · exact ends_of_orchestrated (by rw [exec_hdmasetup, command_of_idle hidle]) (orchestrated_doHdmaSetup s)
  · exact ends_of_orchestrated (by rw [exec_enDma, enableDma_of_rising hidle hrise])
      (orchestrated_doDmaRun (assignEnable m s))

end Sys2Proof.Machine
end

section
/-! A pass over the channels and the orchestrations without re-entrant transactions (42_controller.md R220 to R223,
70_reset_and_hazards.md R278): each channel changes by its own visit alone, the costs of the visits add up, and the host is
answered nothing until the end. -/

namespace Sys2Proof.Machine

/-- Where the host issues nothing re-entrantly before, it does not after, and nothing was refused or answered. -/
def AnswersNothing (s t : State) : Prop := s.quiet → t.quiet ∧ t.refused = s.refused ∧ t.replies = s.replies

theorem AnswersNothing.refl (s : State) : AnswersNothing s s := fun hq => ⟨hq, rfl, rfl⟩

theorem AnswersNothing.trans {s t u : State} (h : AnswersNothing s t) (k : AnswersNothing t u) :
    AnswersNothing s u := by
  intro hs
  obtain ⟨ht, hrefused, hreplies⟩ := h hs
  obtain ⟨hu, krefused, kreplies⟩ := k ht
  exact ⟨hu, krefused.trans hrefused, kreplies.trans hreplies⟩

theorem QuietOn.answersNothing {c : Chan} {s t : State} (h : s.quiet → QuietOn c s t) : AnswersNothing s t :=
  fun hq => ⟨(h hq).quiet, (h hq).refused, (h hq).replies⟩

theorem answersNothing_forChannels {f : Chan → State → State} (hf : ∀ c s, s.quiet → QuietOn c s (f c s))
    (s : State) : AnswersNothing s (forChannels f s) :=
  forChannels_rel .refl (fun _ _ _ => .trans) (fun c _ => QuietOn.answersNothing (hf c _)) s

/-- The state in which an orchestration's body starts (R221, R222). -/
def State.started (s : State) (n : Nat) : State := charge n { s with running := true }

@[simp] theorem ch_started (s : State) (n : Nat) (d : Chan) : (s.started n).ch d = s.ch d := rfl

@[simp] theorem cfg_started (s : State) (n : Nat) : (s.started n).cfg = s.cfg := rfl

@[simp] theorem cycles_started (s : State) (n : Nat) : (s.started n).cycles = s.cycles + n := rfl

theorem quiet_started {s : State} (hq : s.quiet) (n : Nat) : (s.started n).quiet := hq

theorem ch_orchestrate (n : Nat) (body : State → State) (s : State) (d : Chan) :
    (orchestrate n body s).ch d = (body (s.started n)).ch d := rfl

theorem cycles_orchestrate (n : Nat) (body : State → State) (s : State) :
    (orchestrate n body s).cycles = (body (s.started n)).cycles := rfl

/-- What an idle command that is a quiet orchestration leaves outside the channels, the bus and the counter. -/
theorem frame_of_quiet_orchestrate {body : State → State} (hbody : ∀ s, EngineStep s (body s))
    (hanswers : ∀ s, AnswersNothing s (body s)) (n : Nat) {s : State} (hq : s.quiet) :
    let t := reply .done (orchestrate n body s)
    t.status = true ∧ t.running = false ∧ t.refused = s.refused ∧ t.cfg = s.cfg ∧ t.requests = s.requests ∧
    t.replies = s.replies ++ [.done] := by
  have h := orchestrated hbody n s
  obtain ⟨-, hrefused, hreplies⟩ := hanswers (s.started n) hq
  exact ⟨h.status, h.running, hrefused, h.cfg, h.requests, congrArg (· ++ [Reply.done]) hreplies⟩

theorem quiet_setCh {s : State} (hq : s.quiet) (c : Chan) (k : Channel) : (s.setCh c k).quiet := hq

/-- A quiet visit to channel c that leaves it as k and costs n. -/
structure Visit (c : Chan) (k : Channel) (n : Nat) (s t : State) : Prop where
  quiet : t.quiet
  cfg : t.cfg = s.cfg
  own : t.ch c = k
  others : ∀ d, d ≠ c → t.ch d = s.ch d
  cycles : t.cycles = s.cycles + n

section
variable {f : Chan → State → State} {cfg : Config} {G : Channel → Prop} {effect : Channel → Channel}
  {cost : Channel → Nat}
  (hf : ∀ c s, s.quiet → s.cfg = cfg → G (s.ch c) → Visit c (effect (s.ch c)) (cost (s.ch c)) s (f c s))
include hf

/-- The costs of quiet visits to different channels add up, each taken where the pass starts. -/
theorem cycles_foldl_visits {cs : List Chan} (hnodup : cs.Nodup) {s : State} (hq : s.quiet) (hcfg : s.cfg = cfg)
    (hg : ∀ d ∈ cs, G (s.ch d)) :
    (cs.foldl (fun s c => f c s) s).cycles = s.cycles + (cs.map fun c => cost (s.ch c)).sum := by
  induction cs generalizing s with
  | nil => rfl
  | cons c cs ih =>
    obtain ⟨hc, hnodup⟩ := List.nodup_cons.1 hnodup
    have v := hf c s hq hcfg (hg c List.mem_cons_self)
    have hch : ∀ d ∈ cs, (f c s).ch d = s.ch d := fun d hd => v.others d fun he => hc (he ▸ hd)
    have hrest := ih hnodup v.quiet (v.cfg.trans hcfg) fun d hd => (hch d hd).symm ▸ hg d (List.mem_cons_of_mem c hd)
    rw [List.foldl_cons, hrest, v.cycles, List.map_cons, List.sum_cons, Nat.add_assoc,
      List.map_congr_left fun d hd => congrArg cost (hch d hd)]

/-- A pass of quiet visits: every channel changes as its own visit changes it, and the costs add up. -/
theorem forChannels_visits {s : State} (hq : s.quiet) (hcfg : s.cfg = cfg) (hg : ∀ d, G (s.ch d)) :
    (∀ d, (forChannels f s).ch d = effect (s.ch d)) ∧
    (forChannels f s).cycles = s.cycles + (channelOrder.map fun c => cost (s.ch c)).sum := by
  refine ⟨(pass_rel (fun s => s.quiet ∧ s.cfg = cfg) G (fun k l => l = effect k) ?_ s ⟨hq, hcfg⟩ hg).2,
    cycles_foldl_visits hf (by decide) hq hcfg fun d _ => hg d⟩
  rintro c t ⟨hquiet, hsame⟩ hgt
  have v := hf c t hquiet hsame hgt
  exact ⟨⟨v.quiet, v.cfg.trans hsame⟩, v.own, v.others⟩

end

end Sys2Proof.Machine
end

section
/-! DMARUN without re-entrant transactions (40_general_dma.md R120 to R127, 42_controller.md R216, 70_reset_and_hazards.md
R278): the loop moves its whole count, one byte after the other, and the pass does so on every enabled channel. -/

namespace Sys2Proof.Machine

/-- The channel after a byte of general DMA (R124, R125). -/
def Channel.byteMoved (k : Channel) : Channel :=
  { k with
    sourceAddress := if k.fixedTransfer then k.sourceAddress else k.sourceAddress + 1
    transferSize := k.transferSize - 1 }

/-- The channel after the bytes of its whole count. -/
def Channel.countMoved (k : Channel) : Channel :=
  { k with
    transferSize := 0
    sourceAddress := if k.fixedTransfer then k.sourceAddress else k.sourceAddress + k.transferSize }

theorem countMoved_of_zero {k : Channel} (h : k.transferSize = 0) : k.countMoved = k := by
  cases k
  simp_all [Channel.countMoved]

/-- A byte and then the rest of the count is the whole count. -/
theorem countMoved_byteMoved (k : Channel) : k.byteMoved.countMoved = k.countMoved := by
  cases hf : k.fixedTransfer <;> simp [Channel.countMoved, Channel.byteMoved, hf]

theorem ch_dmaByte_self {s : State} (c : Chan) (idx : Nat) (hq : s.quiet) : (dmaByte c idx s).ch c = (s.ch c).byteMoved := by
  rw [ch_dmaByte c idx hq, if_pos rfl]
  rfl

theorem cycles_dmaByte (c : Chan) (idx : Nat) (s : State) : (dmaByte c idx s).cycles = s.cycles + 8 :=
  cycles_transfer c _ idx s

theorem toNat_transferSize_byteMoved {k : Channel} {n : Nat} (h : k.transferSize.toNat = n + 1) :
    k.byteMoved.transferSize.toNat = n := by
  simp only [Channel.byteMoved]
  bv_omega

/-- R125 on a count of n + 1: the loop ends after the first byte when n is 0, and goes on with n bytes otherwise. -/
theorem dmaLoop_quiet {c : Chan} {s : State} (n idx : Nat) (hq : s.quiet) (hen : (s.ch c).enable = true)
    (hn : (s.ch c).transferSize.toNat = n + 1) :
    (dmaLoop (dmaFuel c s) c idx s).ch c = (s.ch c).countMoved ∧
    (dmaLoop (dmaFuel c s) c idx s).cycles = s.cycles + 8 * (n + 1) := by
  induction n generalizing idx s with
  | zero =>
    have hch := ch_dmaByte_self c idx hq
    have hzero : (s.ch c).byteMoved.transferSize = 0 := BitVec.eq_of_toNat_eq (toNat_transferSize_byteMoved hn)
    have hstop : dmaStops c (dmaByte c idx s) = true := (dmaStops_iff _ _).2 (.inl (hch ▸ hzero))
    rw [dmaLoop_unfold c idx s (by bv_omega), if_pos hstop, hch, ← countMoved_byteMoved, countMoved_of_zero hzero]
    exact ⟨rfl, cycles_dmaByte c idx s⟩
  | succ n ih =>
    have hch := ch_dmaByte_self c idx hq
    have hsize := toNat_transferSize_byteMoved hn
    rw [← hch] at hsize
    have hen' : ((dmaByte c idx s).ch c).enable = true := hch ▸ hen
    have hgo : ¬dmaStops c (dmaByte c idx s) = true := by
      rw [dmaStops_iff, hen']
      rintro (h0 | h0)
      · simp [h0] at hsize
      · exact Bool.noConfusion h0
    obtain ⟨hrest, hcost⟩ := ih (idx + 1) (quietOn_dmaByte c idx hq).quiet hen' hsize
    rw [dmaLoop_unfold c idx s (by bv_omega), if_neg hgo, hrest, hcost, hch, countMoved_byteMoved, cycles_dmaByte]
    exact ⟨rfl, by omega⟩

/-- The channel after its whole general DMA: nothing on a disabled channel (R121); else its count moved and `enable`
cleared (R127). -/
def Channel.dmaDone (k : Channel) : Channel := if k.enable then { k.countMoved with enable := false } else k

/-- What its general DMA costs (R122, R134). -/
def Channel.dmaCost (k : Channel) : Nat := if k.enable then 8 + 8 * k.transferSize.toNat else 0

/-- R121, R122, R126, R127 in the three cases of the channel: disabled, a zero count, and bytes to move. -/
theorem runGeneralDma_quiet (c : Chan) {s : State} (hq : s.quiet) :
    (runGeneralDma c s).ch c = (s.ch c).dmaDone ∧ (runGeneralDma c s).cycles = s.cycles + (s.ch c).dmaCost := by
  unfold Channel.dmaDone Channel.dmaCost
  cases hen : (s.ch c).enable with
  | false =>
    rw [runGeneralDma_of_disabled hen]
    exact ⟨rfl, rfl⟩
  | true =>
    by_cases hz : (s.ch c).transferSize = 0
    · rw [runGeneralDma_of_zero hen hz, ch_modCh_self, ch_charge, countMoved_of_zero hz]
      exact ⟨rfl, by rw [hz]; rfl⟩
    · obtain ⟨n, hn⟩ : ∃ n, (s.ch c).transferSize.toNat = n + 1 :=
        ⟨(s.ch c).transferSize.toNat - 1, by bv_omega⟩
      obtain ⟨hch, hcost⟩ := dmaLoop_quiet n 0 (quietBus_charge 8 hq).quiet hen hn
      rw [runGeneralDma_of_ne_zero hen hz, ch_modCh_self, hch, cycles_modCh, hcost, cycles_charge, hn, Nat.add_assoc]
      exact ⟨rfl, rfl⟩

theorem visit_runGeneralDma (c : Chan) {s : State} (hq : s.quiet) :
    Visit c (s.ch c).dmaDone (s.ch c).dmaCost s (runGeneralDma c s) := by
  have h := quietOn_runGeneralDma c hq
  obtain ⟨hch, hcost⟩ := runGeneralDma_quiet c hq
  exact ⟨h.quiet, (engine_runGeneralDma c s).cfg, hch, h.others, hcost⟩

/-- Settles O41: the pass visits every channel once, after the overhead. -/
theorem quietDmaRunCompletesEveryEnabledChannel : Obligations.QuietDmaRunCompletesEveryEnabledChannel := by
  unfold Obligations.QuietDmaRunCompletesEveryEnabledChannel
  intro s hidle hq
  obtain ⟨hch, hcost⟩ := forChannels_visits (G := fun _ => True) (fun c _ hq _ _ => visit_runGeneralDma c hq)
    (quiet_started hq s.cfg.kDma) rfl fun _ => trivial
  refine ⟨reply .done (doDmaRun s), by rw [exec_dmarun, command_of_idle hidle], fun c => ?_, ?_,
    frame_of_quiet_orchestrate (engine_forChannels engine_runGeneralDma)
      (answersNothing_forChannels fun c _ => quietOn_runGeneralDma c) s.cfg.kDma hq⟩
  · rw [ch_reply, doDmaRun, ch_orchestrate, hch]
    rfl
  · rw [cycles_reply, doDmaRun, cycles_orchestrate, hcost]
    rfl

end Sys2Proof.Machine
end

section
/-! HDMARUN without re-entrant transactions on a line on which no entry runs out (41_hdma.md R160 to R165, 42_controller.md
R217): the transfer pass moves each active channel's line, the advance pass counts it down. -/

namespace Sys2Proof.Machine

theorem active_movePointer (ptr : DirectPtr) (n : Half) (k : Channel) : (k.movePointer ptr n).active = k.active := by
  unfold Channel.movePointer
  split
  · rfl
  · cases ptr <;> rfl

theorem lineCounter_movePointer (ptr : DirectPtr) (n : Half) (k : Channel) :
    (k.movePointer ptr n).lineCounter = k.lineCounter := by
  unfold Channel.movePointer
  split
  · rfl
  · cases ptr <;> rfl

/-- The bytes an active channel transfers on a line (R161, R163). -/
def Channel.lineBytes (k : Channel) : Nat := if k.hdmaDoTransfer then lineLength k.transferMode else 0

/-- What a channel's line costs (R134, R161). -/
def Channel.lineCost (k : Channel) : Nat :=
  if k.active ∧ k.hdmaDoTransfer then 8 * lineLength k.transferMode else 0

/-- The channel after the transfer pass (R161, R162). -/
def Channel.lineMoved (ptr : DirectPtr) (k : Channel) : Channel :=
  if k.active then Channel.movePointer ptr (BitVec.ofNat 16 k.lineBytes) { k with enable := false } else k

/-- R161 to R165 in the three cases of the channel: inactive, active without a transfer, and active with one. -/
theorem hdmaTransfer_quiet (c : Chan) {s : State} (hq : s.quiet) :
    (hdmaTransfer c s).ch c = (s.ch c).lineMoved s.cfg.hdmaDirectPtr ∧
    (hdmaTransfer c s).cycles = s.cycles + (s.ch c).lineCost := by
  cases hact : (s.ch c).active with
  | false => simp [hdmaTransfer_of_inactive hact, Channel.lineMoved, Channel.lineCost, hact]
  | true =>
    rw [hdmaTransfer_of_active hact, Channel.lineMoved, if_pos hact]
    by_cases hdo : (s.ch c).hdmaDoTransfer = true
    · rw [Channel.lineBytes, Channel.lineCost, if_pos hdo, if_pos hdo, if_pos ⟨hact, hdo⟩,
        ch_hdmaBytes _ c 0 (quiet_setCh hq c _), ch_setCh_self]
      exact ⟨rfl, cycles_hdmaBytes ..⟩
    · rw [Channel.lineBytes, Channel.lineCost, if_neg hdo, if_neg hdo, if_neg fun h => hdo h.2, ch_setCh_self]
      exact ⟨(movePointer_zero _ _).symm, rfl⟩

theorem visit_hdmaTransfer (c : Chan) {s : State} {cfg : Config} (hq : s.quiet) (hcfg : s.cfg = cfg) :
    Visit c ((s.ch c).lineMoved cfg.hdmaDirectPtr) (s.ch c).lineCost s (hdmaTransfer c s) := by
  have h := quietOn_hdmaTransfer c hq
  obtain ⟨hch, hcost⟩ := hdmaTransfer_quiet c hq
  exact ⟨h.quiet, (engine_hdmaTransfer c s).cfg, hcfg ▸ hch, h.others, hcost⟩

/-- The channel after its line counter is counted down within an entry (R160). -/
def Channel.countedDown (k : Channel) : Channel :=
  if k.active then
    { k with lineCounter := k.lineCounter - 1, hdmaDoTransfer := (k.lineCounter - 1).getLsbD 7 }
  else k

/-- Counting the channel down ends no table entry (R155). -/
def Channel.WithinEntry (k : Channel) : Prop := k.active = true → (k.lineCounter - 1) &&& 0x7F ≠ 0

theorem advance_of_withinEntry {c : Chan} {s : State} (h : (s.ch c).WithinEntry) :
    advance c s = s.setCh c (s.ch c).countedDown := by
  unfold Channel.countedDown
  cases hact : (s.ch c).active with
  | false => simp [advance_of_inactive hact, setCh_ch]
  | true =>
    rw [advance_of_active hact, reload_of_not_exhausted]
    · rfl
    · rw [ch_setCh_self, entryExhausted, beq_eq_false_iff_ne]
      exact h hact

theorem visit_advance {c : Chan} {s : State} (hq : s.quiet) (h : (s.ch c).WithinEntry) :
    Visit c (s.ch c).countedDown 0 s (advance c s) := by
  rw [advance_of_withinEntry h]
  exact ⟨quiet_setCh hq c _, rfl, ch_setCh_self s c _, fun d => ch_setCh_ne s c d _, rfl⟩

/-- The transfer pass decides nothing of what the advance pass asks of a channel. -/
theorem withinEntry_lineMoved {k : Channel} (h : k.WithinEntry) (ptr : DirectPtr) : (k.lineMoved ptr).WithinEntry := by
  unfold Channel.lineMoved Channel.WithinEntry
  split
  · rw [active_movePointer, lineCounter_movePointer]
    exact h
  · exact h

theorem engine_hdmaPasses (s : State) : EngineStep s (hdmaPasses s) :=
  (engine_forChannels engine_hdmaTransfer s).trans (engine_forChannels engine_advance _)

theorem answersNothing_hdmaPasses (s : State) : AnswersNothing s (hdmaPasses s) :=
  (answersNothing_forChannels (fun c _ => quietOn_hdmaTransfer c) s).trans
    (answersNothing_forChannels (fun c _ => quietOn_advance c) _)

/-- The transfer pass and then the advance pass. -/
theorem hdmaPasses_quiet {s : State} (hq : s.quiet) (h : ∀ d, (s.ch d).WithinEntry) :
    (∀ d, (hdmaPasses s).ch d = ((s.ch d).lineMoved s.cfg.hdmaDirectPtr).countedDown) ∧
    (hdmaPasses s).cycles = s.cycles + (channelOrder.map fun c => (s.ch c).lineCost).sum := by
  obtain ⟨hch, hcost⟩ := forChannels_visits (G := fun _ => True) (fun c _ hq hcfg _ => visit_hdmaTransfer c hq hcfg) hq
    rfl fun _ => trivial
  obtain ⟨hq', -⟩ := answersNothing_forChannels (fun c _ => quietOn_hdmaTransfer c) s hq
  obtain ⟨kch, kcost⟩ := forChannels_visits (cfg := s.cfg) (cost := fun _ => 0) (fun c _ hq _ h => visit_advance hq h)
    hq' (engine_forChannels engine_hdmaTransfer s).cfg fun d => hch d ▸ withinEntry_lineMoved (h d) _
  exact ⟨fun d => by rw [hdmaPasses, kch, hch], by simp [hdmaPasses, kcost, hcost]⟩

/-- What a line changes in an active channel, each pointer by its own condition. -/
theorem countedDown_lineMoved_of_active {k : Channel} (hact : k.active = true) (ptr : DirectPtr) :
    let n := BitVec.ofNat 16 (if k.hdmaDoTransfer then lineLength k.transferMode else 0)
    let direct := k.indirect = false
    (k.lineMoved ptr).countedDown = { k with
      enable := false
      lineCounter := k.lineCounter - 1
      hdmaDoTransfer := (k.lineCounter - 1).getLsbD 7
      indirectAddress := k.indirectAddress + if direct then 0 else n
      sourceAddress := k.sourceAddress + if direct ∧ ptr = .sourceAddress then n else 0
      hdmaAddress := k.hdmaAddress + if direct ∧ ptr = .hdmaAddress then n else 0 } := by
  have hmoved : (k.lineMoved ptr).active = true := by
    rw [Channel.lineMoved, if_pos hact, active_movePointer]
    exact hact
  rw [Channel.countedDown, if_pos hmoved, Channel.lineMoved, if_pos hact, lineCounter_movePointer]
  cases k.indirect <;> cases ptr <;> simp [Channel.movePointer, Channel.lineBytes]

/-- Settles O50: the two passes, after the overhead. -/
theorem quietHdmaRunWithinEntries : Obligations.QuietHdmaRunWithinEntries := by
  unfold Obligations.QuietHdmaRunWithinEntries
  intro s hidle hq hwithin
  obtain ⟨hch, hcost⟩ := hdmaPasses_quiet (quiet_started hq s.cfg.kHrun) hwithin
  refine ⟨reply .done (doHdmaRun s), by rw [exec_hdmarun, command_of_idle hidle], fun c hact => ?_, fun c hact => ?_, ?_,
    frame_of_quiet_orchestrate engine_hdmaPasses answersNothing_hdmaPasses s.cfg.kHrun hq⟩
  · rw [ch_reply, doHdmaRun, ch_orchestrate, hch]
    simp [Channel.countedDown, Channel.lineMoved, hact]
  · rw [ch_reply, doHdmaRun, ch_orchestrate, hch]
    exact countedDown_lineMoved_of_active hact _
  · rw [cycles_reply, doHdmaRun, cycles_orchestrate, hcost]
    rfl

end Sys2Proof.Machine
end

section
/-! HDMASETUP without re-entrant transactions (41_hdma.md R153 to R158, 42_controller.md R218): what Reload of an exhausted
entry leaves in its channel whatever the bytes read, and Setup from it. -/

namespace Sys2Proof.Machine

/-- The channel after the count byte v of a table entry was read and loaded (R155 to R157). -/
def Channel.counted (v : Byte) (k : Channel) : Channel :=
  { k with hdmaAddress := k.hdmaAddress + 1, lineCounter := v, hdmaCompleted := v == 0, hdmaDoTransfer := !(v == 0) }

theorem ch_countLoaded_quiet (c : Chan) {s : State} (hq : s.quiet) :
    (countLoaded c s).ch c = (s.ch c).counted (tableByte c s).1 := by
  rw [countLoaded, loadCount, ch_modCh_self, ch_tableByte c hq, if_pos rfl]
  rfl

theorem quiet_countLoaded (c : Chan) {s : State} (hq : s.quiet) : (countLoaded c s).quiet :=
  quiet_of_turns (quietOn_tableByte c hq).quiet rfl

/-- R158: the table pointer moves on by the two bytes read. -/
theorem ch_loadPointer_quiet (c : Chan) {s : State} (hq : s.quiet) : ∃ p,
    (loadPointer c s).ch c = { s.ch c with hdmaAddress := (s.ch c).hdmaAddress + 2, indirectAddress := p } := by
  refine ⟨joinBytes (tableByte c (tableByte c s).2).1 (tableByte c s).1, ?_⟩
  simp only [loadPointer, ch_modCh_self, ch_tableByte c (quietOn_tableByte c hq).quiet, ch_tableByte c hq, if_true,
    BitVec.add_assoc]
  rfl

/-- Reload reads the count byte, and with `indirect` set it may read the pointer after it (R155 to R159). -/
theorem ch_reload_quiet {c : Chan} {s : State} {k : Channel} (hq : s.quiet) (hch : s.ch c = k)
    (hex : entryExhausted k = true) : ∃ v,
    (reload c s).ch c = k.counted v ∨
    k.indirect = true ∧ ∃ p,
      (reload c s).ch c = { k.counted v with hdmaAddress := k.hdmaAddress + 3, indirectAddress := p } := by
  subst hch
  have hcount := ch_countLoaded_quiet c hq
  refine ⟨(tableByte c s).1, ?_⟩
  cases hp : readsPointer c (countLoaded c s) with
  | false =>
    rw [reload_without_pointer hex hp]
    exact .inl hcount
  | true =>
    obtain ⟨hind, -⟩ := (readsPointer_countLoaded_iff c s).1 hp
    obtain ⟨p, hload⟩ := ch_loadPointer_quiet c (quiet_countLoaded c hq)
    rw [hcount] at hind hload
    rw [reload_with_pointer hex hp, hload]
    exact .inr ⟨hind, p, by simp only [Channel.counted, BitVec.add_assoc]; rfl⟩

/-- The channel as Setup hands it to Reload (R153). -/
def Channel.tableStart (k : Channel) : Channel :=
  { k with hdmaDoTransfer := true, enable := false, hdmaAddress := k.sourceAddress, lineCounter := 0 }

theorem entryExhausted_of_zero {k : Channel} (h : k.lineCounter = 0) : entryExhausted k = true := by
  rw [entryExhausted, h]
  rfl

/-- What Setup makes of a channel k (R153, R154): a channel the guard skips is marked for transfer; another is disabled, its
table pointer set past what was read at the source pointer, its flags set by the count byte. -/
def SetUp (guard : SetupGuard) (k l : Channel) : Prop :=
  (setupSkips guard k = true → l = { k with hdmaDoTransfer := true }) ∧
  (setupSkips guard k = false →
    l = { k with
      enable := false, hdmaAddress := l.hdmaAddress, lineCounter := l.lineCounter,
      hdmaCompleted := l.lineCounter == 0, hdmaDoTransfer := !(l.lineCounter == 0),
      indirectAddress := l.indirectAddress } ∧
    (l.hdmaAddress = k.sourceAddress + 1 ∧ l.indirectAddress = k.indirectAddress ∨
     l.hdmaAddress = k.sourceAddress + 3 ∧ k.indirect = true))

theorem setUp_setup (c : Chan) {s : State} (hq : s.quiet) : SetUp s.cfg.setupGuard (s.ch c) ((setup c s).ch c) := by
  refine ⟨fun hskip => by rw [setup_of_skips hskip, ch_setCh_self], fun hskip => ?_⟩
  have hsetup : setup c s = reload c (s.setCh c (s.ch c).tableStart) := setup_of_not_skips hskip
  rw [hsetup]
  obtain ⟨v, h | ⟨hind, p, h⟩⟩ := ch_reload_quiet (quiet_setCh hq c (s.ch c).tableStart) (ch_setCh_self s c _)
    (entryExhausted_of_zero rfl)
  · rw [h]
    exact ⟨rfl, .inl ⟨rfl, rfl⟩⟩
  · rw [h]
    exact ⟨rfl, .inr ⟨rfl, hind⟩⟩

/-- The pass of HDMASETUP. -/
theorem setUp_forChannels {s : State} (hq : s.quiet) (d : Chan) :
    SetUp s.cfg.setupGuard (s.ch d) ((forChannels setup s).ch d) := by
  refine (pass_rel (fun t => t.quiet ∧ t.cfg = s.cfg) (fun _ => True) (SetUp s.cfg.setupGuard) ?_ s ⟨hq, rfl⟩
    fun _ => trivial).2 d
  rintro c t ⟨hq, hcfg⟩ -
  have h := quietOn_setup c hq
  exact ⟨⟨h.quiet, (engine_setup c t).cfg.trans hcfg⟩, hcfg ▸ setUp_setup c hq, h.others⟩

/-- Settles O51: the pass sets up every channel, reads only, and answers nothing before its end. -/
theorem quietHdmaSetupFrame : Obligations.QuietHdmaSetupFrame := by
  unfold Obligations.QuietHdmaSetupFrame
  intro s hidle hq
  have hsetup := setUp_forChannels (quiet_started hq s.cfg.kHsetup)
  exact ⟨reply .done (doHdmaSetup s), by rw [exec_hdmasetup, command_of_idle hidle], fun c => (hsetup c).1,
    fun c => (hsetup c).2, readsOnly_doHdmaSetup s,
    frame_of_quiet_orchestrate (engine_forChannels engine_setup) (answersNothing_forChannels fun c _ => quietOn_setup c)
      s.cfg.kHsetup hq⟩

end Sys2Proof.Machine
end

section
/-! The step as a whole (60_exceptions.md R240, R243, R255): it runs the transaction its request decodes to, and whatever
that is, it ends with that transaction's answer, after the answers of the transactions issued re-entrantly. -/

namespace Sys2Proof.Machine

theorem step_of_no_request {s : State} (h : s.requests = []) : step s = .next s := by
  simp only [step, h]

theorem step_of_decode {s : State} {q : Txn} {rest : List Txn} {i : Instr} (h : s.requests = q :: rest)
    (hd : decode q = .ok i) : step s = exec i (s.takeRequest rest) := by
  simp only [step, h, hd]

theorem step_of_not_wf {s : State} {q : Txn} {rest : List Txn} (h : s.requests = q :: rest) (hwf : q.wf = false) :
    step s = .next (refuse .reservedEncoding (s.takeRequest rest)) := by
  obtain ⟨hstep, -⟩ := reservedHeadersAreRefusedAndNothingElse.2 q rest s hwf
  exact hstep h

theorem decodeTableWord_eq_some_iff (nbits w : Nat) (i : Instr) :
    decodeTableWord nbits w = some i ↔ decode (txnOfTableWord nbits w) = .ok i := by
  unfold decodeTableWord
  split
  next j hd => simp [hd]
  next e hd => simp [hd]

/-- Settles O7: a table word is placed in front of the requests, so that taking it gives back the state. -/
theorem stepRunsTheRequestedTransaction : Obligations.StepRunsTheRequestedTransaction := by
  unfold Obligations.StepRunsTheRequestedTransaction
  exact ⟨fun s t rest i => step_of_decode,
    fun s nbits w i hw => step_of_decode rfl ((decodeTableWord_eq_some_iff nbits w i).1 hw),
    fun s => step_of_no_request⟩

/-- What a transaction does on the host port before its own answer: it takes no request and only adds answers. -/
structure KeepsAnswers (s t : State) : Prop where
  requests : t.requests = s.requests
  replies : s.replies <+: t.replies

theorem KeepsAnswers.refl (s : State) : KeepsAnswers s s := ⟨rfl, List.prefix_rfl⟩

theorem KeepsAnswers.trans {s t u : State} (h : KeepsAnswers s t) (k : KeepsAnswers t u) : KeepsAnswers s u :=
  ⟨k.requests.trans h.requests, h.replies.trans k.replies⟩

theorem HostOnly.keepsAnswers {s t : State} (h : HostOnly s t) : KeepsAnswers s t := ⟨h.requests, h.replies⟩

theorem Orchestrated.keepsAnswers {s t : State} (h : Orchestrated s t) : KeepsAnswers s t := ⟨h.requests, h.replies⟩

theorem keepsAnswers_enableDma (m : Byte) (s : State) : KeepsAnswers s (enableDma m s) := by
  have hassign := (hostOnly_assignEnable m s).keepsAnswers
  unfold enableDma
  split
  · exact hassign.trans (orchestrated_doDmaRun _).keepsAnswers
  · exact hassign

/-- How a transaction issued in the state s ends (60_exceptions.md R240, R242): in a next state, with r as the last answer. -/
def EndsWith (r : Reply) (s : State) (o : Host.Outcome State Fault Refusal) : Prop :=
  ∃ u, o = .next (reply r u) ∧ KeepsAnswers s u

theorem endsWith_refuse (w : RefuseReason) (s : State) : EndsWith (.refused w) s (.next (refuse w s)) :=
  ⟨_, rfl, rfl, List.prefix_rfl⟩

/-- A command ends with the refusal or with `t_done`, by whether an orchestration runs (R243). -/
theorem endsWith_command {effect : State → State} {s : State} (h : KeepsAnswers s (effect s)) :
    EndsWith (if s.running then .refused .reentrantCommand else .done) s (.next (command effect s)) := by
  cases hrun : s.running with
  | false =>
    rw [command_of_idle hrun]
    exact ⟨_, rfl, h⟩
  | true =>
    rw [command_of_running hrun]
    exact endsWith_refuse _ s

/-- Every transaction ends with the answer of its kind (30_encoding.md R92). -/
theorem exec_endsWith_answerTo {q : Txn} {i : Instr} (h : decode q = .ok i) (s : State) :
    EndsWith (answerTo q s) s (exec i s) := by
  rw [answerTo, if_pos ((decode_isOk_iff q).1 ⟨i, h⟩)]
  obtain ⟨-, ⟨hk, rfl⟩ | ⟨hk, rfl⟩ | ⟨-, hcmd⟩⟩ := decode_cases h
  · rw [hk, exec_wrInstr]
    exact ⟨_, rfl, (hostOnly_modCh _ _ s).keepsAnswers⟩
  · rw [hk, exec_rdInstr]
    exact ⟨s, rfl, .refl s⟩
  · obtain ⟨hk, rfl⟩ | ⟨hk, rfl⟩ | ⟨hk, rfl⟩ | ⟨hk, rfl⟩ | ⟨hk, rfl⟩ | ⟨hk, rfl⟩ | ⟨hk, rfl⟩ := commandOfKind_cases hcmd <;>
      rw [hk]
    · exact ⟨_, exec_enDma q.din s, keepsAnswers_enableDma q.din s⟩
    · exact ⟨_, exec_enHdma q.din s, (hostOnly_assignHdmaEnable q.din s).keepsAnswers⟩
    · exact endsWith_command (orchestrated_doDmaRun s).keepsAnswers
    · exact endsWith_command (orchestrated_doHdmaRun s).keepsAnswers
    · exact endsWith_command (orchestrated_doHdmaSetup s).keepsAnswers
    · exact endsWith_command (hostOnly_resetChannels s).keepsAnswers
    · exact ⟨s, exec_hfin s, .refl s⟩

/-- A step ends as its request does, once that is taken. -/
theorem step_endsWith_answerTo {s : State} {q : Txn} {rest : List Txn} (h : s.requests = q :: rest) :
    EndsWith (answerTo q s) (s.takeRequest rest) (step s) := by
  cases hwf : q.wf with
  | true =>
    obtain ⟨i, hd⟩ := (decode_isOk_iff q).2 hwf
    rw [step_of_decode h hd]
    exact exec_endsWith_answerTo hd (s.takeRequest rest)
  | false =>
    rw [step_of_not_wf h hwf, answerTo, hwf]
    exact endsWith_refuse _ _

/-- Settles O8: with no request the state is held; with one, the step ends as its transaction does. -/
theorem everyStepEndsAndTakesOneRequest : Obligations.EveryStepEndsAndTakesOneRequest := by
  unfold Obligations.EveryStepEndsAndTakesOneRequest
  intro s
  cases hreq : s.requests with
  | nil => exact ⟨s, step_of_no_request hreq, hreq, fun _ => rfl, by simp⟩
  | cons q rest =>
    obtain ⟨u, hstep, hrequests, rs, hreplies⟩ := step_endsWith_answerTo hreq
    refine ⟨reply (answerTo q s) u, hstep, hrequests, by simp, fun q' rest' h => ⟨rs, ?_⟩⟩
    cases h
    rw [replies_reply, ← hreplies, replies_takeRequest]

end Sys2Proof.Machine
end

section
/-! RESET and power-on (70_reset_and_hazards.md R260 to R263): the pass that disarms every channel, a block that comes up
disarmed, and what a disarmed block answers to HFIN and does on DMARUN. -/

namespace Sys2Proof.Machine

theorem exec_reset_of_idle {s : State} (h : s.running = false) : exec .reset s = .next (reply .done (resetChannels s)) := by
  rw [exec_reset, command_of_idle h]

/-- Settles O27: the pass disarms each channel, as an idle command whose only other effect is its answer. -/
theorem resetClearsTheFourFlagsOfEveryChannel : Obligations.ResetClearsTheFourFlagsOfEveryChannel := by
  unfold Obligations.ResetClearsTheFourFlagsOfEveryChannel
  exact ⟨decode_command (h := 0x7000) (by decide) (by decide) rfl rfl,
    refusedWhileRunning_of_command exec_reset fun _ => rfl,
    fun s hidle => ⟨_, exec_reset_of_idle hidle, ch_resetChannels s, congrArg (reply .done) (forChannels_modCh_eq _ s)⟩⟩

/-- A pass whose visits change nothing. -/
theorem forChannels_eq_self {f : Chan → State → State} {s : State} (h : ∀ c, f c s = s) : forChannels f s = s := by
  simp only [forChannels_eq, h]

/-- R121 on every channel: the overhead is all that is left of the run, beside `status`. -/
theorem doDmaRun_of_disabled {s : State} (h : ∀ c, (s.ch c).enable = false) :
    doDmaRun s = { s.started s.cfg.kDma with status := true, running := false } := by
  have hpass : forChannels runGeneralDma (s.started s.cfg.kDma) = s.started s.cfg.kDma :=
    forChannels_eq_self fun c => runGeneralDma_of_disabled (h c)
  exact congrArg (fun t : State => { t with status := true, running := false }) hpass

/-- Settles O28: RESET leaves no channel active, and none enabled. -/
theorem afterResetNothingRuns : Obligations.AfterResetNothingRuns := by
  unfold Obligations.AfterResetNothingRuns
  intro s t hidle h
  rw [exec_reset_of_idle hidle] at h
  cases h
  have hch : ∀ c, (reply .done (resetChannels s)).ch c = (s.ch c).disarm := ch_resetChannels s
  have hidle' : (reply .done (resetChannels s)).running = false := (hostOnly_resetChannels s).running.trans hidle
  generalize reply .done (resetChannels s) = t at hch hidle' ⊢
  have hinactive : ∀ c, ¬((t.ch c).hdmaEnable = true ∧ (t.ch c).hdmaCompleted = false) := by simp [hch, Channel.disarm]
  have hdisabled : ∀ c, (t.ch c).enable = false := fun c => by rw [hch, Channel.disarm]
  obtain ⟨-, hfin⟩ := hfinAnswersWhetherNoChannelIsActive
  refine ⟨((hfin t).1 hinactive).1, reply .done (doDmaRun t), by rw [exec_dmarun, command_of_idle hidle'], ?_⟩
  rw [doDmaRun_of_disabled hdisabled]
  exact ⟨rfl, rfl, rfl⟩

theorem ch_powerOn (draw : Vector Channel 8) (n : Nat) (b : Bool) (cfg : Config) (c : Chan) :
    (State.powerOn draw n b cfg).ch c = draw[c].disarm := by
  fin_cases c <;> rfl

/-- Settles O53: every channel is the drawn one, disarmed. -/
theorem powerOnArmsNothing : Obligations.PowerOnArmsNothing := by
  unfold Obligations.PowerOnArmsNothing
  exact fun draw n b cfg => ⟨ch_powerOn draw n b cfg, rfl, rfl, rfl, rfl, rfl⟩

theorem inv_powerOn (draw : Vector Channel 8) (n : Nat) (b : Bool) {cfg : Config} (h : admissible cfg = true) :
    (State.powerOn draw n b cfg).Inv :=
  ⟨rfl, h⟩

/-- Settles O54: the state after reset is a power-on, under the default gate, which O36 found admissible. -/
theorem resetMeetsTheInvariant : Obligations.ResetMeetsTheInvariant := by
  unfold Obligations.ResetMeetsTheInvariant
  obtain ⟨hdefault, -⟩ := defaultGateRejectsFourPages
  exact ⟨inv_powerOn _ _ _ hdefault, ⟨_, _, _, rfl⟩, fun draw n b _ => inv_powerOn draw n b⟩

/-- What R263 forbids does not happen: `cycles` does not fall, and `status` and the mark stay where they are set. -/
structure ClearsNothing (s t : State) : Prop where
  cycles : s.cycles ≤ t.cycles
  status : s.status = true → t.status = true
  refused : s.refused = true → t.refused = true

/-- Where none of the three changes, none is cleared. -/
theorem ClearsNothing.of_frame {s t : State} (hcycles : t.cycles = s.cycles) (hstatus : t.status = s.status)
    (hrefused : t.refused = s.refused) : ClearsNothing s t :=
  ⟨hcycles.ge, hstatus.trans, hrefused.trans⟩

theorem ClearsNothing.trans {s t u : State} (h : ClearsNothing s t) (k : ClearsNothing t u) : ClearsNothing s u :=
  ⟨h.cycles.trans k.cycles, k.status ∘ h.status, k.refused ∘ h.refused⟩

theorem Accounted.cycles_le {s t : State} (h : Accounted s t) : s.cycles ≤ t.cycles := by
  obtain ⟨-, es, -, hcycles⟩ := h
  exact hcycles ▸ Nat.le_add_right _ _

theorem HostOnly.clearsNothing {s t : State} (h : HostOnly s t) : ClearsNothing s t :=
  ⟨h.cycles.ge, h.status.trans, h.refused⟩

theorem Orchestrated.clearsNothing {s t : State} (h : Orchestrated s t) : ClearsNothing s t :=
  ⟨h.accounted.cycles_le, fun _ => h.status, h.refused⟩

/-- Settles O58: neither the host's transactions nor the orchestrations clear any of the three, so no step does. -/
theorem statusAndMarkAreNeverCleared : Obligations.StatusAndMarkAreNeverCleared := by
  unfold Obligations.StatusAndMarkAreNeverCleared
  intro s t h
  obtain ⟨hcycles, hstatus, hrefused⟩ : ClearsNothing s t :=
    step_rel (fun _ => .of_frame rfl rfl rfl) (fun _ _ _ => .trans) (fun _ _ => HostOnly.clearsNothing)
      (fun _ _ => Orchestrated.clearsNothing) (fun _ _ => .of_frame rfl rfl rfl) h
  exact ⟨hcycles, hstatus, hrefused⟩

end Sys2Proof.Machine
end

section
/-! Costs (70_reset_and_hazards.md R278, R279): a complete general DMA exactly, and an HDMARUN and an HDMASETUP by a bound
that holds whatever the host does at the accesses. Each visit to a channel has a bound of its own, and bounds add up over a
pass. -/

namespace Sys2Proof.Machine

/-- Settles O40: the visit to an enabled channel with bytes to move. -/
theorem completeGeneralDmaCostsEightPerByte : Obligations.CompleteGeneralDmaCostsEightPerByte := by
  unfold Obligations.CompleteGeneralDmaCostsEightPerByte
  intro c s hq hen _
  have v := visit_runGeneralDma c hq
  have hcost : (s.ch c).dmaCost = 8 + 8 * (s.ch c).transferSize.toNat := if_pos hen
  have hdone : (s.ch c).dmaDone = { (s.ch c).countMoved with enable := false } := if_pos hen
  exact ⟨hcost ▸ v.cycles, hdone ▸ v.own, v.others⟩

/-- From s to t `cycles` does not fall, and gains n at most. -/
def CostsAtMost (n : Nat) (s t : State) : Prop := s.cycles ≤ t.cycles ∧ t.cycles ≤ s.cycles + n

theorem CostsAtMost.trans {m n : Nat} {s t u : State} (h : CostsAtMost m s t) (k : CostsAtMost n t u) :
    CostsAtMost (m + n) s u := by
  unfold CostsAtMost at *
  omega

/-- An exact cost, under any bound on it. -/
theorem CostsAtMost.of_eq {m n : Nat} {s t : State} (h : t.cycles = s.cycles + m) (hm : m ≤ n) : CostsAtMost n s t := by
  unfold CostsAtMost
  omega

theorem costsAtMost_foldl {n : Nat} {f : Chan → State → State} (hf : ∀ c s, CostsAtMost n s (f c s)) (cs : List Chan)
    (s : State) : CostsAtMost (cs.length * n) s (cs.foldl (fun s c => f c s) s) := by
  induction cs generalizing s with
  | nil => exact .of_eq rfl (Nat.zero_le _)
  | cons c cs ih =>
    rw [List.length_cons, Nat.succ_mul, Nat.add_comm]
    exact (hf c s).trans (ih (f c s))

theorem costsAtMost_forChannels {n : Nat} {f : Chan → State → State} (hf : ∀ c s, CostsAtMost n s (f c s)) (s : State) :
    CostsAtMost (8 * n) s (forChannels f s) :=
  costsAtMost_foldl hf channelOrder s

theorem cycles_countLoaded (c : Chan) (s : State) : (countLoaded c s).cycles = s.cycles + 8 := cycles_tableByte c s

theorem cycles_loadPointer (c : Chan) (s : State) : (loadPointer c s).cycles = s.cycles + 16 := by
  simp only [loadPointer, cycles_modCh, cycles_tableByte]

/-- No table byte on an entry that runs on; else the count byte, and the pointer's two where it is read. -/
theorem costsAtMost_reload (c : Chan) (s : State) : CostsAtMost (8 * 3) s (reload c s) := by
  cases hex : entryExhausted (s.ch c) with
  | false =>
    rw [reload_of_not_exhausted hex]
    exact .of_eq (m := 0) rfl (by decide)
  | true =>
    cases hp : readsPointer c (countLoaded c s) with
    | false =>
      rw [reload_without_pointer hex hp]
      exact .of_eq (cycles_countLoaded c s) (by decide)
    | true =>
      rw [reload_with_pointer hex hp]
      exact .of_eq (m := 8 + 16) (by rw [cycles_loadPointer, cycles_countLoaded, Nat.add_assoc]) (by decide)

theorem costsAtMost_reload_setCh (c : Chan) (s : State) (k : Channel) :
    CostsAtMost (8 * 3) s (reload c (s.setCh c k)) :=
  costsAtMost_reload c (s.setCh c k)

theorem costsAtMost_setup (c : Chan) (s : State) : CostsAtMost (8 * 3) s (setup c s) := by
  cases hskip : setupSkips s.cfg.setupGuard (s.ch c) with
  | true =>
    rw [setup_of_skips hskip]
    exact .of_eq (m := 0) rfl (by decide)
  | false =>
    rw [setup_of_not_skips hskip]
    exact costsAtMost_reload_setCh c s _

theorem costsAtMost_advance (c : Chan) (s : State) : CostsAtMost (8 * 3) s (advance c s) := by
  cases hact : (s.ch c).active with
  | false =>
    rw [advance_of_inactive hact]
    exact .of_eq (m := 0) rfl (by decide)
  | true =>
    rw [advance_of_active hact]
    exact costsAtMost_reload_setCh c s _

theorem lineLength_le : ∀ mode : BitVec 3, lineLength mode ≤ 4 := by decide

theorem costsAtMost_hdmaTransfer (c : Chan) (s : State) : CostsAtMost (8 * 4) s (hdmaTransfer c s) := by
  cases hact : (s.ch c).active with
  | false =>
    rw [hdmaTransfer_of_inactive hact]
    exact .of_eq (m := 0) rfl (by decide)
  | true =>
    rw [hdmaTransfer_of_active hact]
    split
    · exact .of_eq (cycles_hdmaBytes ..) (Nat.mul_le_mul_left 8 (lineLength_le _))
    · exact .of_eq (m := 0) rfl (by decide)

theorem costsAtMost_hdmaPasses (s : State) : CostsAtMost (8 * (8 * 4 + 8 * 3)) s (hdmaPasses s) :=
  (costsAtMost_forChannels costsAtMost_hdmaTransfer s).trans (costsAtMost_forChannels costsAtMost_advance _)

/-- A transaction that is an orchestration and its answer costs its overhead exactly, and its body by a bound (R222). -/
theorem cycles_of_orchestrate {i : Instr} {k n : Nat} {body : State → State} {s t : State}
    (hexec : exec i s = .next (reply .done (orchestrate k body s))) (hbody : ∀ s, CostsAtMost n s (body s))
    (h : exec i s = .next t) : s.cycles + k ≤ t.cycles ∧ t.cycles ≤ s.cycles + k + n := by
  rw [hexec] at h
  cases h
  exact hbody (s.started k)

/-- Settles O52: 8 channels with 4 bytes of a line and 3 table bytes each, and 8 channels with 3 table bytes each. -/
theorem hdmaCostIsBounded : Obligations.HdmaCostIsBounded := by
  unfold Obligations.HdmaCostIsBounded
  intro s t hidle
  constructor
  · exact cycles_of_orchestrate (by rw [exec_hdmarun, command_of_idle hidle, doHdmaRun]) costsAtMost_hdmaPasses
  · exact cycles_of_orchestrate (by rw [exec_hdmasetup, command_of_idle hidle, doHdmaSetup])
      (costsAtMost_forChannels costsAtMost_setup)

end Sys2Proof.Machine
end
